-- ==== Sys2Proof/Word.lean ====
section
/-! DEFINITION. The word types of the block (R10, R53, R54). Bit 0 is the least significant bit of each. -/

namespace Sys2Proof

/-- A byte: 8 bits, unsigned unless stated (R10). -/
abbrev Byte := BitVec 8

/-- A command word (R53). -/
abbrev Word := BitVec 16

/-- The data of a response, and one register of the register map (R31, R54). -/
abbrev Data := BitVec 32

end Sys2Proof
end

