-- ==== Sys2Proof/Syntax.lean ====
section
/-! DEFINITION. The commands of the block: one constructor for each row of R56 (spec/opcode_table.json), and the four
ports they arrive on (R55). -/

namespace Sys2Proof

/-- The command ports, one for each agent (R3, R55). -/
inductive Port where
  /-- `P_HOST`: the cooperative poll loop. -/
  | host
  /-- `P_SER_RX`: the serial receive event. -/
  | serRx
  /-- `P_SER_TX`: the serial "transmitter ready" event. -/
  | serTx
  /-- `P_TIMER`: the external watchdog timer. -/
  | timer
  deriving DecidableEq, Repr

/-- The two ring instances (R17); `SEL` 0 and 1 of R53. -/
inductive RingSel where
  /-- `RB_RX`, the receive ring. -/
  | rx
  /-- `RB_TX`, the transmit ring. -/
  | tx
  deriving DecidableEq, Repr

/-- A command (R56). -/
inductive Instr where
  /-- `PUSH.RX b` (R72). -/
  | pushRx (b : Byte)
  /-- `PUSH.TX b` (R73). -/
  | pushTx (b : Byte)
  /-- `POP.TX` (R74). -/
  | popTx
  /-- `LEN.RX` (R75). -/
  | lenRx
  /-- `LEN.TX` (R75). -/
  | lenTx
  /-- `ISEMPTY.RX` (R76). -/
  | isEmptyRx
  /-- `ISEMPTY.TX` (R76). -/
  | isEmptyTx
  /-- `CLEAR.RX` (R77). -/
  | clearRx
  /-- `CLEAR.TX` (R77). -/
  | clearTx
  /-- `POLL` (R79). -/
  | poll
  /-- `READ r` (R106). -/
  | read (r : BitVec 4)
  /-- `WDEXP` (R107). -/
  | wdexp
  deriving DecidableEq, Repr

end Sys2Proof
end

