-- ==== Sys2Proof/WellFormed.lean ====
section
/-! DEFINITION. Which commands have a legal word (R56). The only operand with a bound is the register index. -/

namespace Sys2Proof

/-- R56: `READ r` has a legal word for `r ≤ 0xD` alone. Every other operand is legal at every value. -/
def Instr.wf : Instr → Bool
  | .pushRx _ => true
  | .pushTx _ => true
  | .popTx => true
  | .lenRx => true
  | .lenTx => true
  | .isEmptyRx => true
  | .isEmptyTx => true
  | .clearRx => true
  | .clearTx => true
  | .poll => true
  | .read r => decide (r ≤ 0xD)
  | .wdexp => true

end Sys2Proof
end

