-- ==== Sys2Proof/Decode.lean ====
section
/-! DEFINITION. From command words to commands and back (R53, R56, R57). -/

namespace Sys2Proof

/-- `OP`, bits 15:12 of a command word (R53). -/
def Word.op (w : Word) : BitVec 4 := w.extractLsb' 12 4

/-- `SEL`, bits 11:8 of a command word (R53). -/
def Word.sel (w : Word) : BitVec 4 := w.extractLsb' 8 4

/-- `IMM`, bits 7:0 of a command word (R53). -/
def Word.imm (w : Word) : Byte := w.extractLsb' 0 8

/-- Why a word is illegal on every port: the cases (a) to (e) of R57. Where two cases hold of one word, `decode` names
the one it meets first; the outcome is the same (log entry 19). -/
inductive Illegal where
  /-- (a): `OP` is 0x0 or 0x9 to 0xF. -/
  | reservedOp
  /-- (b): `OP` is 0x1 with `SEL` other than 0 or 1. -/
  | pushRing
  /-- (c): `OP` is 0x2 with `SEL ≠ 1`. -/
  | popRing
  /-- (d): a nonzero `IMM`, or a `SEL` that the operation does not take. -/
  | operand
  /-- (e): `OP` is 0x7 with `SEL` 0xE or 0xF. -/
  | reservedRegister
  deriving DecidableEq, Repr

/-- A command of two rings (`LEN`, `ISEMPTY`, `CLEAR`): `SEL` selects, `IMM` must be 0 (R56, R57 (d)). -/
def decodeRing (w : Word) (rx tx : Instr) : Except Illegal Instr :=
  if w.imm ≠ 0 then .error .operand
  else if w.sel = 0 then .ok rx
  else if w.sel = 1 then .ok tx
  else .error .operand

/-- A command with no operand (`POLL`, `WDEXP`): `SEL` and `IMM` must be 0 (R56, R57 (d)). -/
def decodePlain (w : Word) (i : Instr) : Except Illegal Instr :=
  if w.imm = 0 ∧ w.sel = 0 then .ok i else .error .operand

/-- The command of a word, or the case of R57 that makes it illegal. -/
def decode (w : Word) : Except Illegal Instr :=
  if w.op = 1 then
    if w.sel = 0 then .ok (.pushRx w.imm)
    else if w.sel = 1 then .ok (.pushTx w.imm)
    else .error .pushRing
  else if w.op = 2 then
    if w.sel ≠ 1 then .error .popRing
    else if w.imm = 0 then .ok .popTx
    else .error .operand
  else if w.op = 3 then decodeRing w .lenRx .lenTx
  else if w.op = 4 then decodeRing w .isEmptyRx .isEmptyTx
  else if w.op = 5 then decodeRing w .clearRx .clearTx
  else if w.op = 6 then decodePlain w .poll
  else if w.op = 7 then
    if w.imm ≠ 0 then .error .operand
    else if w.sel ≤ 0xD then .ok (.read w.sel)
    else .error .reservedRegister
  else if w.op = 8 then decodePlain w .wdexp
  else .error .reservedOp

/-- A command word from its three fields (R53). -/
def commandWord (op sel : BitVec 4) (imm : Byte) : Word := op ++ sel ++ imm

/-- The word of a command (R56). -/
def encode : Instr → Word
  | .pushRx b => commandWord 1 0 b
  | .pushTx b => commandWord 1 1 b
  | .popTx => commandWord 2 1 0
  | .lenRx => commandWord 3 0 0
  | .lenTx => commandWord 3 1 0
  | .isEmptyRx => commandWord 4 0 0
  | .isEmptyTx => commandWord 4 1 0
  | .clearRx => commandWord 5 0 0
  | .clearTx => commandWord 5 1 0
  | .poll => commandWord 6 0 0
  | .read r => commandWord 7 r 0
  | .wdexp => commandWord 8 0 0

/-- One row of R56: a word is of the row when its bits under `mask` are `value`. -/
structure OpcodeRow where
  mnemonic : String
  value : Word
  mask : Word
  port : Port
  deriving DecidableEq, Repr

/-- R56, row for row, in its order. -/
def opcodeTable : List OpcodeRow := [
  ⟨"PUSH.RX", 0x1000, 0xFF00, .serRx⟩,
  ⟨"PUSH.TX", 0x1100, 0xFF00, .host⟩,
  ⟨"POP.TX", 0x2100, 0xFFFF, .serTx⟩,
  ⟨"LEN.RX", 0x3000, 0xFFFF, .host⟩,
  ⟨"LEN.TX", 0x3100, 0xFFFF, .host⟩,
  ⟨"ISEMPTY.RX", 0x4000, 0xFFFF, .host⟩,
  ⟨"ISEMPTY.TX", 0x4100, 0xFFFF, .host⟩,
  ⟨"CLEAR.RX", 0x5000, 0xFFFF, .host⟩,
  ⟨"CLEAR.TX", 0x5100, 0xFFFF, .host⟩,
  ⟨"POLL", 0x6000, 0xFFFF, .host⟩,
  ⟨"READ", 0x7000, 0xF0FF, .host⟩,
  ⟨"WDEXP", 0x8000, 0xFFFF, .timer⟩]

/-- R56: a word is of a row iff `(word & mask) == match`. -/
def OpcodeRow.matches (row : OpcodeRow) (w : Word) : Bool := (w &&& row.mask) == row.value

/-- The mnemonic of a command, as R56 spells it. -/
def Instr.mnemonic : Instr → String
  | .pushRx _ => "PUSH.RX"
  | .pushTx _ => "PUSH.TX"
  | .popTx => "POP.TX"
  | .lenRx => "LEN.RX"
  | .lenTx => "LEN.TX"
  | .isEmptyRx => "ISEMPTY.RX"
  | .isEmptyTx => "ISEMPTY.TX"
  | .clearRx => "CLEAR.RX"
  | .clearTx => "CLEAR.TX"
  | .poll => "POLL"
  | .read _ => "READ"
  | .wdexp => "WDEXP"

/-- The one port that accepts a command (R55). -/
def Instr.port : Instr → Port
  | .pushRx _ => .serRx
  | .pushTx _ => .host
  | .popTx => .serTx
  | .lenRx => .host
  | .lenTx => .host
  | .isEmptyRx => .host
  | .isEmptyTx => .host
  | .clearRx => .host
  | .clearTx => .host
  | .poll => .host
  | .read _ => .host
  | .wdexp => .timer

/-- The decoder's answer for a table row's bits, numbered as spec/opcode_table.json numbers them. A command word has
16 bits, so a number that needs more is no command. -/
def decodeTableWord (nbits w : Nat) : Option Instr :=
  let bits := w % 2 ^ nbits
  if bits < 2 ^ 16 then
    match decode (BitVec.ofNat 16 bits) with
    | .ok i => some i
    | .error _ => none
  else none

end Sys2Proof
end

