-- ==== Sys2Proof/Config.lean ====
section
/-! DEFINITION. The implementation parameters of R8 and the values the spec leaves open.

The parameters are plain data (`Params`), held in `State.params`, written by no step (R127: "None can be changed at
run time"). Every claim about a state is therefore a claim about every configuration. Which configurations have a
meaning (R9) is `Params.wf` in Machine/Operands.lean. -/

namespace Sys2Proof

/-- `CK_POLICY` (R8): what happens to a frame whose checksum fails. -/
inductive CkPolicy where
  /-- Drop the frame (the default). -/
  | reject
  /-- Parse it, as the reference implementation does. -/
  | accept
  deriving DecidableEq, Repr

/-- `CK_FN` (R8, R63): the checksum function over class, id, length and payload. -/
inductive CkFn where
  /-- The 8-bit Fletcher sum of R63 (the default). PRESUMED by the spec itself: it marks the algorithm as general
  knowledge (93_implementation_defined.md X1, X2). Log entry 14. -/
  | fletcher8
  /-- Any other checksum function: `Config.otherCkFn`, of which nothing is known. Log entry 3. -/
  | other
  deriving DecidableEq, Repr

/-- The parameters of R8. -/
structure Params where
  /-- `RX_N`, slot count of `RB_RX` (OPEN, at least 2). -/
  rxN : Nat
  /-- `TX_N`, slot count of `RB_TX` (OPEN, at least 2). -/
  txN : Nat
  /-- `RAW_CAP`, capacity of the raw frame buffer in bytes. -/
  rawCap : Nat
  /-- `SYNC1`, first sync byte. -/
  sync1 : Byte
  /-- `SYNC2`, second sync byte. -/
  sync2 : Byte
  /-- `HDR_LEN`, header bytes. Log entry 5. -/
  hdrLen : Nat
  /-- `CK_LEN`, trailing checksum bytes. Log entry 5. -/
  ckLen : Nat
  /-- `WD_TIMEOUT_MS`, the watchdog period passed on every arm. -/
  wdTimeoutMs : Nat
  /-- `CNT_W`, width of every event counter. Log entry 4. -/
  cntW : Nat
  /-- `CK_POLICY`. -/
  ckPolicy : CkPolicy
  /-- `CK_FN`. -/
  ckFn : CkFn
  /-- `SKIP_W`, bytes skipped at a payload offset with no table entry, in a known message. -/
  skipW : Nat
  /-- `POP_SENTINEL`, the byte a pop of an empty ring returns. -/
  popSentinel : Byte
  deriving DecidableEq, Repr

/-- The values R8 fixes. DESIGN CHOICE (log entry 2): R8 leaves `RX_N` and `TX_N` OPEN; 64 and 4 are the capacities of
the spec's own test vectors (95_test_vectors.md), which that file says are not the block's. -/
def Params.default : Params where
  rxN := 64
  txN := 4
  rawCap := 255
  sync1 := 0xB5
  sync2 := 0x62
  hdrLen := 6
  ckLen := 2
  wdTimeoutMs := 5000
  cntW := 32
  ckPolicy := .reject
  ckFn := .fletcher8
  skipW := 1
  popSentinel := 0x00

/-- A checksum function other than the default (R63: "A model takes `CK_FN` as a configuration function of the bytes
at frame indices 2 to `total − 3`"). It answers the bytes expected at `total − 2` and `total − 1`; R90: "a different
`CK_FN` fixes its own order". FREE VALUE: no body, so a claim holds for every such function. Log entry 3. -/
opaque Config.otherCkFn : List Byte → Byte × Byte

/-- `zext_32` (R31, R75) of a count that does not fit in 32 bits, which has no value: the occupancy of a ring of more than
`2^32` slots, or a counter of a block with `CNT_W > 32`. FREE VALUE. Log entry 13. -/
opaque Config.wideCount : Nat → Data

/-- The parse cursor after a group that ends at an offset of 256 or more, which does not fit the 8 bits of `pcur` (R24) and
which no rule truncates (R10). FREE VALUE. Log entry 12. -/
opaque Config.widePcur : Nat → BitVec 8

/-- `PLATFORM_BASE` (R43): where the block sits in a platform's address map, if it sits in one. OPEN. No rule depends
on it. Log entry 18. -/
opaque Config.platformBase : Option Nat

end Sys2Proof
end

