-- ==== Sys2Proof/Machine/State.lean ====
section
/-! DEFINITION. The state of the block (10_state.md) as plain data, the reasons a step can stop, and the state after
reset (R35). -/

namespace Sys2Proof.Machine

/-- The byte storage of one internal space (R33): index and byte pairs, indices strictly rising, no entry equal to what
an unlisted index reads as (`emptyByte`, Machine/Ops.lean). -/
abbrev Memory := List Host.Cell

/-- The indexed byte spaces of R33. -/
inductive Space where
  /-- `RB_RX.mem` or `RB_TX.mem`. -/
  | ring (q : RingSel)
  /-- `RAW`. -/
  | raw
  deriving DecidableEq, Repr

/-- Why a step stops with a fault. The spec's block never traps or halts (R109); this is an access to which no rule gives
an effect. With the spec's own parameters only states outside the invariant of R27, which no run from reset reaches, raise
it. -/
inductive Fault where
  /-- A byte access at an index outside its space (R33). Raised by `Memory.load` and `Memory.store`. Safe: a
  stop where no rule gives an effect. Log entry 11. -/
  | noSuchIndex (space : Space) (index : Nat)
  deriving DecidableEq, Repr

/-- Why a step is refused. -/
inductive Refusal where
  /-- An instruction that has no meaning yet. Raised by no arm of `exec`: every instruction is modelled. Safe. -/
  | notModelled (mnemonic : String)
  /-- The parameters break a constraint of R9: "A configuration that breaks a constraint is refused by the model: it
  has no meaning". Raised by `configured`. Safe. Log entry 21. -/
  | invalidConfiguration
  deriving DecidableEq, Repr

/-- One ring instance (R17). Its slot count `N` is a parameter. -/
structure Ring where
  /-- `rb.mem[0..N−1]`. -/
  mem : Memory
  /-- `rb.head`, the read index. -/
  head : Nat
  /-- `rb.tail`, the write index. -/
  tail : Nat
  /-- `rb.ovf`, the overflow counter, a number below `2^CNT_W`. -/
  ovf : Nat
  deriving DecidableEq, Repr

/-- `fstate` (R20). The encoding 3, which no rule reaches, is left out (93_implementation_defined.md U14). -/
inductive FState where
  | idle
  | reading
  | parsing
  deriving DecidableEq, Repr

/-- The framer's state (R20 to R26). -/
structure Framer where
  fstate : FState
  /-- `raw[0..RAW_CAP−1]` (R21). -/
  raw : Memory
  /-- Bytes accepted into the current frame, and the index in `raw` of the next one (R21). -/
  cursor : BitVec 8
  /-- Message class (R21). -/
  cls : Byte
  /-- Message id (R21). -/
  id : Byte
  /-- Declared payload length (R21). -/
  plen : BitVec 16
  /-- Running checksum sums (R23). -/
  ckA : Byte
  ckB : Byte
  /-- Parse cursor: payload-relative offset of the next field group (R24). -/
  pcur : BitVec 8
  /-- R25. -/
  frameReady : Bool
  lastCkValid : Bool
  /-- R26, numbers below `2^CNT_W`. -/
  feCnt : Nat
  ckErrCnt : Nat
  deriving DecidableEq, Repr

/-- The connection state (R28). -/
structure Conn where
  connected : Bool
  wdArmed : Bool
  deriving DecidableEq, Repr

/-- The telemetry registers (R29): raw bit patterns. -/
structure Telemetry where
  lon : Data
  lat : Data
  alt : Data
  hasPosition : Bool
  fixStatus : Byte
  velN : Data
  velE : Data
  heading : Data
  deriving DecidableEq, Repr

/-- The conditions of R110 with the info each records. -/
inductive Condition where
  | sync1Mismatch (b : Byte)
  | sync2Mismatch (b : Byte)
  | oversize (plen : BitVec 16)
  | ckMismatch (cls id : Byte)
  | rxOverflow (b : Byte)
  | txOverflow (b : Byte)
  | unknownMessage (cls id : Byte)
  | disconnected
  | illegalCommand (port : Port) (word : Word)
  deriving DecidableEq, Repr

/-- An entry of the event history (R34). -/
inductive Event where
  /-- `ARM(ms)`, the arm request to the external timer. -/
  | arm (ms : Nat)
  /-- A raised condition. -/
  | cond (c : Condition)
  deriving DecidableEq, Repr

/-- The response `{ok, data}` of a command (R54). -/
structure Response where
  ok : Bool
  data : Data
  deriving DecidableEq, Repr

/-- A word on a port (R53, R55). -/
structure Command where
  port : Port
  word : Word
  deriving DecidableEq, Repr

/-- What can be applied to the block between two commands (R45, R124). -/
inductive Input where
  /-- A command of one agent. -/
  | cmd (c : Command)
  /-- `RESET`, with the commands applied together with it or in progress when it is asserted (R125). -/
  | reset (lost : List Command)
  deriving DecidableEq, Repr

/-- The whole state: the parts of R2, the history of R34, the configuration of R8, and the model's own picture of the
ports (log entries 1, 6, 8, 9). -/
structure State where
  params : Params
  /-- `RB_RX`. -/
  rx : Ring
  /-- `RB_TX`. -/
  tx : Ring
  /-- `FRAMER`. -/
  fr : Framer
  /-- `CONN`. -/
  conn : Conn
  /-- The registers `FIELD_DECODER` writes. -/
  tel : Telemetry
  /-- The event history, oldest first (R34). -/
  history : List Event
  /-- The response of the last command (R54); none where no command has been answered since reset. -/
  resp : Option Response
  /-- The port on which the command being run arrived (R55). -/
  port : Port
  /-- Commands and resets still to be applied, in the total order of R45. -/
  input : List Input
  deriving DecidableEq, Repr

/-- A ring after reset (R35), which is also its state after `CLEAR` (R126). -/
def Ring.empty : Ring where
  mem := []
  head := 0
  tail := 0
  ovf := 0

/-- The framer after reset (R35). -/
def Framer.reset : Framer where
  fstate := .idle
  raw := []
  cursor := 0
  cls := 0
  id := 0
  plen := 0
  ckA := 0
  ckB := 0
  pcur := 0
  frameReady := false
  lastCkValid := false
  feCnt := 0
  ckErrCnt := 0

/-- The connection state after reset (R35). -/
def Conn.reset : Conn where
  connected := false
  wdArmed := false

/-- The telemetry after reset (R35). -/
def Telemetry.reset : Telemetry where
  lon := 0
  lat := 0
  alt := 0
  hasPosition := false
  fixStatus := 0
  velN := 0
  velE := 0
  heading := 0

/-- The state after reset (R35) of a block built with parameters `p`. DESIGN CHOICE: no response, port `HOST` and an
empty input, which are the model's own (log entries 6, 8, 9). -/
def State.resetWith (p : Params) : State where
  params := p
  rx := .empty
  tx := .empty
  fr := .reset
  conn := .reset
  tel := .reset
  history := []
  resp := none
  port := .host
  input := []

/-- The state after reset of the block with the parameters of `Params.default` (log entry 2). -/
def State.reset : State := .resetWith .default

end Sys2Proof.Machine
end

