-- ==== Sys2Proof/Machine/Operands.lean ====
section
/-! DEFINITION. Operand forms and value conversions: the constraints on parameters (R9), byte order (R36, R37),
zero-extension (R10), the register map's names (R31) and the field table (R62). -/

namespace Sys2Proof

/-- `MAX_PLEN = RAW_CAP − HDR_LEN − CK_LEN` (R8). -/
def Params.maxPlen (p : Params) : Nat := p.rawCap - p.hdrLen - p.ckLen

/-- The configurations that have a meaning: the four constraints of R9, and no other. -/
def Params.wf (p : Params) : Bool :=
  decide (2 ≤ p.rxN) && decide (2 ≤ p.txN)
    && decide (p.hdrLen + p.ckLen ≤ p.rawCap) && decide (p.rawCap ≤ 255)
    && decide (1 ≤ p.skipW) && decide (p.skipW ≤ 4)

/-- Every frame is longer than the six bytes that R81 reads before it knows its length. R22 gives the total as at least 8,
so the spec's `HDR_LEN + CK_LEN` has this; R9 does not ask it of other values (log entry 5). -/
abbrev Params.framesEnd (p : Params) : Prop := 7 ≤ p.hdrLen + p.ckLen

/-- The slot count `N` of a ring (R8, R17). -/
def Params.slots (p : Params) : RingSel → Nat
  | .rx => p.rxN
  | .tx => p.txN

/-- `IDX_W(N) = ⌈log2 N⌉`, the width of a ring index (R8). -/
def idxW (n : Nat) : Nat := Nat.clog 2 n

/-- The last value of a `CNT_W`-bit counter (R10). -/
def Params.cntMax (p : Params) : Nat := 2 ^ p.cntW - 1

/-- `sat_inc` (R10): one more, unless the counter is at its last value. -/
def Params.satInc (p : Params) (c : Nat) : Nat :=
  if c < p.cntMax then c + 1 else c

/-- The registers of `READ` (R31). -/
inductive Reg where
  | status | rxOvf | txOvf | frameErr | ckErr | frameHdr | cursors
  | lon | lat | alt | fixStatus | velN | velE | heading
  deriving DecidableEq, Repr

/-- The register that `sel` selects, none for the reserved 0xE and 0xF (R31). -/
def Reg.ofSel (r : BitVec 4) : Option Reg :=
  match r.toNat with
  | 0x0 => some .status
  | 0x1 => some .rxOvf
  | 0x2 => some .txOvf
  | 0x3 => some .frameErr
  | 0x4 => some .ckErr
  | 0x5 => some .frameHdr
  | 0x6 => some .cursors
  | 0x7 => some .lon
  | 0x8 => some .lat
  | 0x9 => some .alt
  | 0xA => some .fixStatus
  | 0xB => some .velN
  | 0xC => some .velE
  | 0xD => some .heading
  | _ => none

/-- The index of a register (R31). -/
def Reg.sel : Reg → BitVec 4
  | .status => 0x0
  | .rxOvf => 0x1
  | .txOvf => 0x2
  | .frameErr => 0x3
  | .ckErr => 0x4
  | .frameHdr => 0x5
  | .cursors => 0x6
  | .lon => 0x7
  | .lat => 0x8
  | .alt => 0x9
  | .fixStatus => 0xA
  | .velN => 0xB
  | .velE => 0xC
  | .heading => 0xD

/-- `zext_32` of a count (R31, R68, R75). A count that does not fit in 32 bits is a free value (log entry 13). -/
def zext32 (n : Nat) : Data := if n < 2 ^ 32 then BitVec.ofNat 32 n else Config.wideCount n

/-- One bit as a 32-bit value (`zext_32` of R10). -/
def bit32 (b : Bool) : Data := if b then 1 else 0

/-- The little-endian 32-bit pattern of a field's bytes, first byte least significant (R37, R99). A one-byte field is
its byte, zero-extended. -/
def leWord : List Byte → Data
  | [] => 0
  | b :: bs => (leWord bs <<< 8) ||| b.setWidth 32

/-- `{b, plen[7:0]}`: the declared length once its high byte has arrived (R36, R88). -/
def withHighByte (plen : BitVec 16) (b : Byte) : BitVec 16 := b ++ plen.setWidth 8

/-- An offset as the 8-bit parse cursor (R24, R98). One that does not fit is a free value (log entry 12). -/
def pcurOf (v : Nat) : BitVec 8 := if v < 2 ^ 8 then BitVec.ofNat 8 v else Config.widePcur v

/-- `{23'b0, v, b}`: the response data of a pop (R54, R74). -/
def popData (v : Bool) (b : Byte) : Data := (0 : BitVec 23) ++ (BitVec.ofBool v ++ b)

/-- A telemetry register that the field table names (R62). -/
inductive Dest where
  | lon | lat | alt | fixStatus | velN | velE | heading
  deriving DecidableEq, Repr

/-- The two field widths of the table (R62). -/
inductive FieldWidth where
  | one
  | four
  deriving DecidableEq, Repr

/-- A field's width in bytes. -/
def FieldWidth.bytes : FieldWidth → Nat
  | .one => 1
  | .four => 4

/-- One row of the payload field table (R62). -/
structure FieldRow where
  cls : Byte
  id : Byte
  offset : Nat
  width : FieldWidth
  dest : Dest
  /-- The extra effect `has_position <- 1`. -/
  setsPosition : Bool
  deriving DecidableEq, Repr

/-- The payload field table, row for row (R62). It is constant (R51). -/
def fieldTable : List FieldRow := [
  ⟨0x01, 0x02, 4, .four, .lon, false⟩,
  ⟨0x01, 0x02, 8, .four, .lat, false⟩,
  ⟨0x01, 0x02, 16, .four, .alt, true⟩,
  ⟨0x01, 0x03, 4, .one, .fixStatus, false⟩,
  ⟨0x01, 0x12, 4, .four, .velN, false⟩,
  ⟨0x01, 0x12, 8, .four, .velE, false⟩,
  ⟨0x01, 0x12, 24, .four, .heading, false⟩]

/-- `known(cls, id)` (R97): some row has that class and id. -/
def known (cls id : Byte) : Bool := fieldTable.any fun r => r.cls == cls && r.id == id

/-- `entry(cls, id, o)` (R97): the row with that class, id and offset, or none. -/
def entry (cls id : Byte) (o : Nat) : Option FieldRow :=
  fieldTable.find? fun r => r.cls == cls && r.id == id && r.offset == o

end Sys2Proof
end

