-- ==== Sys2Proof/Machine/Ops.lean ====
section
/-! DEFINITION. The shared operations: byte storage, the ring primitives (R65 to R69), the history and the response
(R11, R54), and what every command goes through (the configuration check of R9, the port check of R55, the illegal
command of R108). The block has no trap: a condition is taken in place by `raise` (R109, R114). -/

namespace Sys2Proof.Machine

/-- What an unlisted index reads as: the reset contents of every store (R35). -/
def emptyByte : Byte := 0x00

/-- The canonical form of a store: indices strictly rising, no entry equal to what an unlisted index reads as. -/
abbrev Memory.wf (m : Memory) : Prop :=
  m.Pairwise (fun c d => c.1 < d.1) ∧ ∀ c ∈ m, c.2 ≠ emptyByte

/-- Every listed index lies below `size`. -/
abbrev Memory.within (size : Nat) (m : Memory) : Prop := ∀ c ∈ m, c.1 < size

/-- The byte at an index. -/
def Memory.read : Memory → Nat → Byte
  | [], _ => emptyByte
  | c :: m, a => if a = c.1 then c.2 else Memory.read m a

/-- A store without the entry of index `a`. -/
def Memory.erase (m : Memory) (a : Nat) : Memory := m.filter fun c => c.1 != a

/-- A store with the entry `(a, b)` put in its place, where it has none of index `a`. -/
def Memory.insert : Memory → Nat → Byte → Memory
  | [], a, b => [(a, b)]
  | c :: m, a, b => if a < c.1 then (a, b) :: c :: m else c :: Memory.insert m a b

/-- A store with byte `b` at index `a`. -/
def Memory.write (m : Memory) (a : Nat) (b : Byte) : Memory :=
  if b = emptyByte then m.erase a else (m.erase a).insert a b

/-- `MemRead(space, i, 1)` (R11). No rule gives a meaning to an index outside the space (log entry 11). -/
def Memory.load (sp : Space) (size : Nat) (m : Memory) (i : Nat) : Except Fault Byte :=
  if i < size then .ok (m.read i) else .error (.noSuchIndex sp i)

/-- `MemWrite(space, i, 1, b)` (R11). -/
def Memory.store (sp : Space) (size : Nat) (m : Memory) (i : Nat) (b : Byte) : Except Fault Memory :=
  if i < size then .ok (m.write i b) else .error (.noSuchIndex sp i)

/-- `n` bytes of a space from index `i` on. -/
def Memory.loadRange (sp : Space) (size : Nat) (m : Memory) (i : Nat) : Nat → Except Fault (List Byte)
  | 0 => .ok []
  | n + 1 =>
    match m.load sp size i, Memory.loadRange sp size m (i + 1) n with
    | .ok b, .ok bs => .ok (b :: bs)
    | .error f, _ => .error f
    | _, .error f => .error f

/-- `for i in 0 .. n−1: MemWrite(rb, i, 1, 0x00)` (R69). -/
def Memory.zero (m : Memory) : Nat → Memory
  | 0 => m
  | n + 1 => (Memory.zero m n).write n 0x00

/-- `inc_N(i)` (R65). -/
def incN (n i : Nat) : Nat := if i = n - 1 then 0 else i + 1

/-- `occ(rb) = (rb.tail − rb.head) mod N`, the non-negative remainder (R10, R18). -/
def Ring.occ (n : Nat) (rb : Ring) : Nat := (((rb.tail : Int) - (rb.head : Int)) % (n : Int)).toNat

/-- The queued bytes `rb.mem[(rb.head + k) mod N]` for `k = 0..occ(rb)−1`, oldest first (R18). -/
def Ring.queue (n : Nat) (rb : Ring) : List Byte :=
  (List.range (rb.occ n)).map fun k => rb.mem.read ((rb.head + k) % n)

/-- `RB_PUSH(rb, b)` (R66): the ring after, and whether the byte was accepted. -/
def Ring.push (p : Params) (q : RingSel) (rb : Ring) (b : Byte) : Except Fault (Ring × Bool) :=
  let n := p.slots q
  if rb.occ n = n - 1 then
    .ok ({ rb with ovf := p.satInc rb.ovf }, false)
  else
    match rb.mem.store (.ring q) n rb.tail b with
    | .ok mem => .ok ({ rb with mem := mem, tail := incN n rb.tail }, true)
    | .error f => .error f

/-- `RB_POP(rb)` (R67): the ring after, whether there was a byte, and the byte (the sentinel where there was none). A pop
does not clear the slot it reads. -/
def Ring.pop (p : Params) (q : RingSel) (rb : Ring) : Except Fault (Ring × Bool × Byte) :=
  let n := p.slots q
  if rb.occ n = 0 then
    .ok (rb, false, p.popSentinel)
  else
    match rb.mem.load (.ring q) n rb.head with
    | .ok b => .ok ({ rb with head := incN n rb.head }, true, b)
    | .error f => .error f

/-- `RB_LEN(rb)` (R68). -/
def Ring.len (p : Params) (q : RingSel) (rb : Ring) : Nat := rb.occ (p.slots q)

/-- `RB_ISEMPTY(rb)` (R68). -/
def Ring.isEmpty (p : Params) (q : RingSel) (rb : Ring) : Bool := rb.occ (p.slots q) == 0

/-- `RB_CLEAR(rb)` (R69). -/
def Ring.clear (p : Params) (q : RingSel) (rb : Ring) : Ring where
  mem := rb.mem.zero (p.slots q)
  head := 0
  tail := 0
  ovf := 0

/-- One ring instance of the state (R17). -/
def State.ring (s : State) : RingSel → Ring
  | .rx => s.rx
  | .tx => s.tx

/-- The state with one ring instance replaced. -/
def State.setRing (s : State) (q : RingSel) (rb : Ring) : State :=
  match q with
  | .rx => { s with rx := rb }
  | .tx => { s with tx := rb }

/-- The state with another framer. -/
def State.setFr (s : State) (fr : Framer) : State := { s with fr := fr }

/-- The state with another connection state. -/
def State.setConn (s : State) (c : Conn) : State := { s with conn := c }

/-- The state with other telemetry. -/
def State.setTel (s : State) (t : Telemetry) : State := { s with tel := t }

/-- An event appended to the history (R34). -/
def State.record (s : State) (e : Event) : State := { s with history := s.history ++ [e] }

/-- `raise c` (R11, R109): the condition is appended to the history, and nothing else happens. -/
def State.raise (s : State) (c : Condition) : State := s.record (.cond c)

/-- `emit ARM(WD_TIMEOUT_MS)` (R11, R34). -/
def State.emitArm (s : State) : State := s.record (.arm s.params.wdTimeoutMs)

/-- `respond(ok, data)` (R11, R54). -/
def State.respond (s : State) (ok : Bool) (data : Data) : State := { s with resp := some ⟨ok, data⟩ }

/-- The codes of the conditions (R110). -/
def Condition.code : Condition → Nat
  | .sync1Mismatch _ => 1
  | .sync2Mismatch _ => 2
  | .oversize _ => 3
  | .ckMismatch _ _ => 4
  | .rxOverflow _ => 5
  | .txOverflow _ => 6
  | .unknownMessage _ _ => 7
  | .disconnected => 8
  | .illegalCommand _ _ => 9

/-- The overflow condition of a ring (R72, R73, R110). -/
def overflowOf (q : RingSel) (b : Byte) : Condition :=
  match q with
  | .rx => .rxOverflow b
  | .tx => .txOverflow b

/-- The outcome of an effect. -/
def outcome : Except Fault State → Host.Outcome State Fault Refusal
  | .ok s => .next s
  | .error f => .fault f

/-- R9: a configuration that breaks a constraint "is refused by the model: it has no meaning". -/
def configured (s : State) (o : Host.Outcome State Fault Refusal) : Host.Outcome State Fault Refusal :=
  if s.params.wf then o else .refused .invalidConfiguration

/-- An illegal command (R57, R108): `raise ILLEGAL_COMMAND(port, word); respond(0, 0)`, and no state changes. -/
def illegalCommand (w : Word) (s : State) : State :=
  (s.raise (.illegalCommand s.port w)).respond false 0

/-- A command's effect, where it arrived on the port that accepts it; an illegal command elsewhere (R55, R57 (f)). -/
def onPort (i : Instr) (s : State) (effect : State → Except Fault State) : Host.Outcome State Fault Refusal :=
  configured s <|
    if s.port = i.port then outcome (effect s) else .next (illegalCommand (encode i) s)

/-- The next input of the total order, taken: its port is the port of the command being run (R45, R55). -/
def State.accept (s : State) (c : Command) (rest : List Input) : State :=
  { s with port := c.port, input := rest }

/-- `RESET` (R124, R125): every state element takes its value of R35, the parameters stay as built (R127), commands
not yet applied stay to be applied. A command applied together with it leaves no trace, so it is no argument. -/
def applyReset (rest : List Input) (s : State) : State := { State.resetWith s.params with input := rest }

/-- The port on which a word, placed from outside, runs: the one R55 lists for its command; `HOST` for an illegal word
(log entry 20). -/
def placedPort (w : Word) : Port :=
  match decode w with
  | .ok i => i.port
  | .error _ => .host

end Sys2Proof.Machine
end

