-- ==== Sys2Proof/Machine/Flags.lean ====
section
/-! DEFINITION. Computed flags and check values: `total` (R22), `has_fix` (R30), STATUS (R32), the checksum unit (R63,
R82) and a frame's checksum verdict (R90). -/

namespace Sys2Proof.Machine

/-- `total = zext_17(plen) + HDR_LEN + CK_LEN`, in a width that never wraps (R22); R88's `+ 8` is this sum (log entry 5). -/
def total (p : Params) (plen : BitVec 16) : Nat := plen.toNat + p.hdrLen + p.ckLen

/-- `has_fix = (fix_status ≠ 0)` (R30). -/
def Telemetry.hasFix (t : Telemetry) : Bool := t.fixStatus != 0

/-- The encoding of `fstate` (R20). -/
def FState.code : FState → BitVec 2
  | .idle => 0
  | .reading => 1
  | .parsing => 2

/-- STATUS (R32), its fields from bit 31 down to bit 0. -/
def statusWord (s : State) : Data :=
  (0 : BitVec 23)
    ++ BitVec.ofBool (s.params.ckPolicy == .reject)
    ++ BitVec.ofBool s.tel.hasFix
    ++ BitVec.ofBool s.conn.wdArmed
    ++ BitVec.ofBool s.fr.lastCkValid
    ++ BitVec.ofBool s.tel.hasPosition
    ++ BitVec.ofBool s.conn.connected
    ++ BitVec.ofBool s.fr.frameReady
    ++ s.fr.fstate.code

/-- One step of the 8-bit Fletcher sum (R63). PRESUMED by the spec (log entry 14). -/
def fletcherStep (sums : Byte × Byte) (b : Byte) : Byte × Byte :=
  (sums.1 + b, sums.2 + (sums.1 + b))

/-- The 8-bit Fletcher sum of a byte sequence, from (0, 0) (R63). -/
def fletcher8 (bs : List Byte) : Byte × Byte := bs.foldl fletcherStep (0, 0)

/-- `CK_FN` of the bytes at frame indices 2 to `total − 3`: the two bytes expected at `total − 2` and `total − 1`. -/
def ckFn (p : Params) (bs : List Byte) : Byte × Byte :=
  match p.ckFn with
  | .fletcher8 => fletcher8 bs
  | .other => Config.otherCkFn bs

/-- `CK_ACC(b)` (R82). Under another `CK_FN`, `ck_a` and `ck_b` are unused and keep their values (log entry 3). -/
def ckAcc (p : Params) (fr : Framer) (b : Byte) : Framer :=
  match p.ckFn with
  | .fletcher8 =>
    { fr with ckA := (fletcherStep (fr.ckA, fr.ckB) b).1, ckB := (fletcherStep (fr.ckA, fr.ckB) b).2 }
  | .other => fr

/-- The two checksum bytes that the frame should end in: the running sums under the default `CK_FN` (R90); under
another one, computed "from `raw[2 .. total−3]` directly" (R82). -/
def expectedCk (p : Params) (fr : Framer) : Except Fault (Byte × Byte) :=
  match p.ckFn with
  | .fletcher8 => .ok (fr.ckA, fr.ckB)
  | .other =>
    match fr.raw.loadRange .raw p.rawCap 2 (total p fr.plen - 4) with
    | .ok bs => .ok (ckFn p bs)
    | .error f => .error f

/-- The checksum verdict of a complete frame (R90): `CK_A` against `raw[total − 2]`, `CK_B` against
`raw[total − 1]`. -/
def ckVerdict (p : Params) (fr : Framer) : Except Fault Bool :=
  match expectedCk p fr, fr.raw.load .raw p.rawCap (total p fr.plen - 2),
      fr.raw.load .raw p.rawCap (total p fr.plen - 1) with
  | .ok ck, .ok a, .ok b => .ok (a == ck.1 && b == ck.2)
  | .error f, _, _ => .error f
  | _, .error f, _ => .error f
  | _, _, .error f => .error f

end Sys2Proof.Machine
end

