-- ==== Sys2Proof/Machine/Control.lean ====
section
/-! DEFINITION. The control family: `READ`, `WDEXP` and the illegal words (43_control.md). -/

namespace Sys2Proof.Machine

/-- `REG(r)`: the 32-bit value of a register of the map (R31). -/
def State.reg (s : State) : Reg → Data
  | .status => statusWord s
  | .rxOvf => zext32 s.rx.ovf
  | .txOvf => zext32 s.tx.ovf
  | .frameErr => zext32 s.fr.feCnt
  | .ckErr => zext32 s.fr.ckErrCnt
  | .frameHdr => s.fr.plen ++ (s.fr.id ++ s.fr.cls)
  | .cursors => (0 : BitVec 16) ++ (s.fr.pcur ++ s.fr.cursor)
  | .lon => s.tel.lon
  | .lat => s.tel.lat
  | .alt => s.tel.alt
  | .fixStatus => s.tel.fixStatus.setWidth 32
  | .velN => s.tel.velN
  | .velE => s.tel.velE
  | .heading => s.tel.heading

/-- `respond(1, REG(r))`; the reserved indices 0xE and 0xF are an illegal command (R106, R57 (e)). -/
def readEffect (r : BitVec 4) (s : State) : Except Fault State :=
  match Reg.ofSel r with
  | some reg => .ok (s.respond true (s.reg reg))
  | none => .ok (illegalCommand (encode (.read r)) s)

/-- R107: an expiry takes effect only while the watchdog is armed; a stale one changes nothing. -/
def wdexpEffect (s : State) : Except Fault State :=
  .ok ((if s.conn.wdArmed then
      (s.setConn { connected := false, wdArmed := false }).raise .disconnected
    else s).respond true 0)

/-- `READ r` (R106). -/
def execRead (r : BitVec 4) (s : State) : Host.Outcome State Fault Refusal := onPort (.read r) s (readEffect r)

/-- `WDEXP` (R107). -/
def execWdexp (s : State) : Host.Outcome State Fault Refusal := onPort .wdexp s wdexpEffect

/-- A word that no row of R56 has (R57, R108): illegal on every port. -/
def execIllegalWord (w : Word) (s : State) : Host.Outcome State Fault Refusal :=
  configured s (.next (illegalCommand w s))

end Sys2Proof.Machine
end

