-- ==== Sys2Proof/Machine/FieldDecoder.lean ====
section
/-! DEFINITION. The field decoder, the Parsing stage of `POLL` (42_field_decoder.md). -/

namespace Sys2Proof.Machine

/-- A telemetry register written (R99). `fix_status` has one byte; the others take the 32-bit pattern. -/
def Telemetry.write (t : Telemetry) (d : Dest) (v : Data) : Telemetry :=
  match d with
  | .lon => { t with lon := v }
  | .lat => { t with lat := v }
  | .alt => { t with alt := v }
  | .fixStatus => { t with fixStatus := v.setWidth 8 }
  | .velN => { t with velN := v }
  | .velE => { t with velE := v }
  | .heading => { t with heading := v }

/-- A telemetry register's bits, zero-extended (R29, R31). -/
def Telemetry.value (t : Telemetry) : Dest → Data
  | .lon => t.lon
  | .lat => t.lat
  | .alt => t.alt
  | .fixStatus => t.fixStatus.setWidth 32
  | .velN => t.velN
  | .velE => t.velE
  | .heading => t.heading

/-- A table row's effect on the telemetry: its register, and `has_position` where the row says so (R98, R99). -/
def FieldRow.apply (row : FieldRow) (v : Data) (t : Telemetry) : Telemetry :=
  let t := t.write row.dest v
  { t with hasPosition := t.hasPosition || row.setsPosition }

/-- `DECODE(dest, w, o)` and the row's extra effect (R98, R99), with `P[k] = raw[HDR_LEN + k]`. -/
def decodeField (row : FieldRow) (o : Nat) (s : State) : Except Fault State :=
  match s.fr.raw.loadRange .raw s.params.rawCap (s.params.hdrLen + o) row.width.bytes with
  | .ok bs => .ok (s.setTel (FieldRow.apply row (leWord bs) s.tel))
  | .error f => .error f

/-- `pcur <- v` (R98). -/
def advancePcur (v : Nat) (s : State) : State := s.setFr { s.fr with pcur := pcurOf v }

/-- `FD_STEP` (R98): one field group. -/
def fdStep (s : State) : Except Fault State :=
  let o := s.fr.pcur.toNat
  if known s.fr.cls s.fr.id then
    match entry s.fr.cls s.fr.id o with
    | some row =>
      if o + row.width.bytes ≤ s.fr.plen.toNat then
        match decodeField row o s with
        | .ok s' => .ok (advancePcur (o + row.width.bytes) s')
        | .error f => .error f
      else .ok (advancePcur (o + row.width.bytes) s)
    | none => .ok (advancePcur (o + s.params.skipW) s)
  else .ok (advancePcur s.fr.plen.toNat (s.raise (.unknownMessage s.fr.cls s.fr.id)))

/-- `POLL_PARSING` (R91): finish the frame, or do one field group. -/
def pollParsing (s : State) : Except Fault State :=
  if s.fr.plen.toNat ≤ s.fr.pcur.toNat then
    .ok (s.setFr { s.fr with frameReady := false, fstate := .idle })
  else fdStep s

end Sys2Proof.Machine
end

