-- ==== Sys2Proof/Machine/Framer.lean ====
section
/-! DEFINITION. The framer and its one command, `POLL` (41_framer.md). -/

namespace Sys2Proof.Machine

/-- `POLL_IDLE` (R80): a frame starts when a byte is available; the byte is not consumed, and `raw` is not cleared. -/
def pollIdle (s : State) : State :=
  if 0 < s.rx.occ s.params.rxN then
    s.setFr { s.fr with
      fstate := .reading, cursor := 0, cls := 0, id := 0, plen := 0, ckA := 0, ckB := 0, pcur := 0 }
  else s

/-- `MemWrite(RAW, i, 1, b)` (R83 to R89). -/
def storeRaw (i : Nat) (b : Byte) (s : State) : Except Fault State :=
  match s.fr.raw.store .raw s.params.rawCap i b with
  | .ok raw => .ok (s.setFr { s.fr with raw := raw })
  | .error f => .error f

/-- A framing error (R83, R84, R88, R110): back to Idle, counted, recorded. -/
def framingError (c : Condition) (s : State) : State :=
  (s.setFr { s.fr with fstate := .idle, feCnt := s.params.satInc s.fr.feCnt }).raise c

/-- `READ_SYNC1(b)` (R83). -/
def readSync1 (b : Byte) (s : State) : Except Fault State :=
  if b ≠ s.params.sync1 then .ok (framingError (.sync1Mismatch b) s)
  else
    match storeRaw 0 b s with
    | .ok s => .ok (s.setFr { s.fr with cursor := 1 })
    | .error f => .error f

/-- `READ_SYNC2(b)` (R84). -/
def readSync2 (b : Byte) (s : State) : Except Fault State :=
  if b ≠ s.params.sync2 then .ok (framingError (.sync2Mismatch b) s)
  else
    match storeRaw 1 b s with
    | .ok s =>
      .ok (((s.setFr { s.fr with cursor := 2 }).setConn { connected := true, wdArmed := true }).emitArm)
    | .error f => .error f

/-- The framer with a class byte taken (R85). -/
def takeClass (p : Params) (b : Byte) (fr : Framer) : Framer := { ckAcc p fr b with cls := b, cursor := 3 }

/-- `READ_CLASS(b)` (R85). -/
def readClass (b : Byte) (s : State) : Except Fault State :=
  match storeRaw 2 b s with
  | .ok s => .ok (s.setFr (takeClass s.params b s.fr))
  | .error f => .error f

/-- The framer with an id byte taken (R86). -/
def takeId (p : Params) (b : Byte) (fr : Framer) : Framer := { ckAcc p fr b with id := b, cursor := 4 }

/-- `READ_ID(b)` (R86). -/
def readId (b : Byte) (s : State) : Except Fault State :=
  match storeRaw 3 b s with
  | .ok s => .ok (s.setFr (takeId s.params b s.fr))
  | .error f => .error f

/-- The framer with the low byte of the length taken (R87). -/
def takeLenLo (p : Params) (b : Byte) (fr : Framer) : Framer :=
  { ckAcc p fr b with plen := b.setWidth 16, cursor := 5 }

/-- `READ_LEN_LO(b)` (R87). -/
def readLenLo (b : Byte) (s : State) : Except Fault State :=
  match storeRaw 4 b s with
  | .ok s => .ok (s.setFr (takeLenLo s.params b s.fr))
  | .error f => .error f

/-- The framer with the high byte of the length taken (R88). -/
def takeLenHi (p : Params) (b : Byte) (fr : Framer) : Framer :=
  { ckAcc p fr b with plen := withHighByte fr.plen b, cursor := 6 }

/-- The bound on a frame whose length is complete: it is abandoned if it would not fit in `raw` (R88). -/
def checkLength (s : State) : State :=
  if s.params.rawCap < total s.params s.fr.plen then framingError (.oversize s.fr.plen) s else s

/-- `READ_LEN_HI(b)` (R88). -/
def readLenHi (b : Byte) (s : State) : Except Fault State :=
  match storeRaw 5 b s with
  | .ok s => .ok (checkLength (s.setFr (takeLenHi s.params b s.fr)))
  | .error f => .error f

/-- `last_ck_valid <- ok; if not ok: ck_err_cnt <- sat_inc(ck_err_cnt); raise CK_MISMATCH(cls, id)` (R90). -/
def takeVerdict (ok : Bool) (s : State) : State :=
  if ok then s.setFr { s.fr with lastCkValid := true }
  else
    (s.setFr { s.fr with lastCkValid := false, ckErrCnt := s.params.satInc s.fr.ckErrCnt }).raise
      (.ckMismatch s.fr.cls s.fr.id)

/-- An accepted frame goes to Parsing; a discarded one leaves the framer in Idle (R90). -/
def applyPolicy (ok : Bool) (s : State) : State :=
  if ok = true ∨ s.params.ckPolicy = .accept then
    s.setFr { s.fr with frameReady := true, fstate := .parsing, pcur := 0 }
  else s.setFr { s.fr with fstate := .idle }

/-- `FRAME_COMPLETE` (R90): the verdict is taken, and the policy decides between Parsing and Idle. -/
def frameComplete (s : State) : Except Fault State :=
  match ckVerdict s.params s.fr with
  | .ok ok => .ok (applyPolicy ok (takeVerdict ok s))
  | .error f => .error f

/-- The framer with the byte of frame index `c` taken, a payload byte if `c ≤ total − 3` (R89). -/
def takeBody (p : Params) (c : Nat) (b : Byte) (fr : Framer) : Framer :=
  { (if c ≤ total p fr.plen - 3 then ckAcc p fr b else fr) with cursor := BitVec.ofNat 8 (c + 1) }

/-- The frame is complete with the byte of frame index `total − 1` (R89). -/
def finishBody (c : Nat) (s : State) : Except Fault State :=
  if c = total s.params s.fr.plen - 1 then frameComplete s else .ok s

/-- `READ_BODY(c, b)` (R89): a payload or checksum byte. -/
def readBody (c : Nat) (b : Byte) (s : State) : Except Fault State :=
  match storeRaw c b s with
  | .ok s => finishBody c (s.setFr (takeBody s.params c b s.fr))
  | .error f => .error f

/-- The byte at frame index `c`, interpreted by its position (R81). -/
def readByte (c : Nat) (b : Byte) (s : State) : Except Fault State :=
  match c with
  | 0 => readSync1 b s
  | 1 => readSync2 b s
  | 2 => readClass b s
  | 3 => readId b s
  | 4 => readLenLo b s
  | 5 => readLenHi b s
  | c => readBody c b s

/-- `POLL_READING` (R81): one byte is consumed and interpreted, if one is available. The case `c = 255`, for which R81
has no line, ends in `readBody`'s store outside `raw` (log entry 11): with `HDR_LEN + CK_LEN` below 7 a frame may be shorter
than the six bytes R81 has read, and then runs on to there (log entry 5). -/
def pollReading (s : State) : Except Fault State :=
  if s.rx.occ s.params.rxN = 0 ∨ s.fr.frameReady then .ok s
  else
    match s.rx.pop s.params .rx with
    | .ok (rx, _, b) => readByte s.fr.cursor.toNat b (s.setRing .rx rx)
    | .error f => .error f

/-- One bounded step of the framer (R79). -/
def pollFramer (s : State) : Except Fault State :=
  match s.fr.fstate with
  | .idle => .ok (pollIdle s)
  | .reading => pollReading s
  | .parsing => pollParsing s

/-- The framer's step, then `respond(1, 0)` (R79). -/
def pollEffect (s : State) : Except Fault State :=
  match pollFramer s with
  | .ok s => .ok (s.respond true 0)
  | .error f => .error f

/-- `POLL` (R79). -/
def execPoll (s : State) : Host.Outcome State Fault Refusal := onPort .poll s pollEffect

/-- The block is quiescent (R139): Idle, and no byte waits in `RB_RX`. -/
def State.quiescent (s : State) : Bool := s.fr.fstate == .idle && s.rx.occ s.params.rxN == 0

end Sys2Proof.Machine
end

