-- ==== Sys2Proof/Machine/RingBuffer.lean ====
section
/-! DEFINITION. The ring buffer family (40_ring_buffer.md): `PUSH`, `POP`, `LEN`, `ISEMPTY`, `CLEAR`. -/

namespace Sys2Proof.Machine

/-- `a <- RB_PUSH(rb, b); if a = 0: raise …_OVERFLOW(b); respond(1, zext_32(a))` (R72, R73). -/
def pushEffect (q : RingSel) (b : Byte) (s : State) : Except Fault State :=
  match (s.ring q).push s.params q b with
  | .ok (rb, true) => .ok ((s.setRing q rb).respond true (bit32 true))
  | .ok (rb, false) => .ok (((s.setRing q rb).raise (overflowOf q b)).respond true (bit32 false))
  | .error f => .error f

/-- `(v, b) <- RB_POP(rb); respond(1, {23'b0, v, b})` (R74). -/
def popEffect (q : RingSel) (s : State) : Except Fault State :=
  match (s.ring q).pop s.params q with
  | .ok (rb, v, b) => .ok ((s.setRing q rb).respond true (popData v b))
  | .error f => .error f

/-- `respond(1, zext_32(RB_LEN(rb)))` (R75). -/
def lenEffect (q : RingSel) (s : State) : Except Fault State :=
  .ok (s.respond true (zext32 ((s.ring q).len s.params q)))

/-- `respond(1, zext_32(RB_ISEMPTY(rb)))` (R76). -/
def isEmptyEffect (q : RingSel) (s : State) : Except Fault State :=
  .ok (s.respond true (bit32 ((s.ring q).isEmpty s.params q)))

/-- `RB_CLEAR(rb); respond(1, 0)` (R77). -/
def clearEffect (q : RingSel) (s : State) : Except Fault State :=
  .ok ((s.setRing q ((s.ring q).clear s.params q)).respond true 0)

/-- `PUSH.RX b` (R72). -/
def execPushRx (b : Byte) (s : State) : Host.Outcome State Fault Refusal :=
  onPort (.pushRx b) s (pushEffect .rx b)

/-- `PUSH.TX b` (R73). -/
def execPushTx (b : Byte) (s : State) : Host.Outcome State Fault Refusal :=
  onPort (.pushTx b) s (pushEffect .tx b)

/-- `POP.TX` (R74). -/
def execPopTx (s : State) : Host.Outcome State Fault Refusal := onPort .popTx s (popEffect .tx)

/-- `LEN.RX` (R75). -/
def execLenRx (s : State) : Host.Outcome State Fault Refusal := onPort .lenRx s (lenEffect .rx)

/-- `LEN.TX` (R75). -/
def execLenTx (s : State) : Host.Outcome State Fault Refusal := onPort .lenTx s (lenEffect .tx)

/-- `ISEMPTY.RX` (R76). -/
def execIsEmptyRx (s : State) : Host.Outcome State Fault Refusal :=
  onPort .isEmptyRx s (isEmptyEffect .rx)

/-- `ISEMPTY.TX` (R76). -/
def execIsEmptyTx (s : State) : Host.Outcome State Fault Refusal :=
  onPort .isEmptyTx s (isEmptyEffect .tx)

/-- `CLEAR.RX` (R77). The framer is left where it was (R133). -/
def execClearRx (s : State) : Host.Outcome State Fault Refusal := onPort .clearRx s (clearEffect .rx)

/-- `CLEAR.TX` (R77). -/
def execClearTx (s : State) : Host.Outcome State Fault Refusal := onPort .clearTx s (clearEffect .tx)

end Sys2Proof.Machine
end

