-- ==== Sys2Proof/Machine/Dispatch.lean ====
section
/-! DEFINITION. From a command to its meaning, one arm a row of spec/opcode_table.json. -/

namespace Sys2Proof.Machine

def exec (i : Instr) (s : State) : Host.Outcome State Fault Refusal :=
  match i with
  | .pushRx b => Sys2Proof.Machine.execPushRx b s
  | .pushTx b => Sys2Proof.Machine.execPushTx b s
  | .popTx => Sys2Proof.Machine.execPopTx s
  | .lenRx => Sys2Proof.Machine.execLenRx s
  | .lenTx => Sys2Proof.Machine.execLenTx s
  | .isEmptyRx => Sys2Proof.Machine.execIsEmptyRx s
  | .isEmptyTx => Sys2Proof.Machine.execIsEmptyTx s
  | .clearRx => Sys2Proof.Machine.execClearRx s
  | .clearTx => Sys2Proof.Machine.execClearTx s
  | .poll => Sys2Proof.Machine.execPoll s
  | .read r => Sys2Proof.Machine.execRead r s
  | .wdexp => Sys2Proof.Machine.execWdexp s

end Sys2Proof.Machine
end

