-- ==== Sys2Proof/Machine/Issue.lean ====
section
/-! DEFINITION. A command word applied to the block: decoded, and run on its port (R53, R55, R56, R57). -/

namespace Sys2Proof.Machine

/-- The command `c`, taken from the front of the input `c :: rest`: its word decoded and run on its port, or an illegal
command. -/
def runCommand (c : Command) (rest : List Input) (s : State) : Host.Outcome State Fault Refusal :=
  match decode c.word with
  | .ok i => exec i (s.accept c rest)
  | .error _ => execIllegalWord c.word (s.accept c rest)

/-- `RESET`, taken from the front of the input (R124, R125). -/
def runReset (rest : List Input) (s : State) : Host.Outcome State Fault Refusal :=
  configured s (.next (applyReset rest s))

/-- No input is left: the block starts no step of its own (R3), and all of its state survives (R123). DESIGN CHOICE
(log entry 7). -/
def runIdle (s : State) : Host.Outcome State Fault Refusal := configured s (.next s)

/-- A command word placed as the next input, on the port on which R55 accepts it (log entry 20). -/
def placeWord (w : Word) (s : State) : State := { s with input := .cmd ⟨placedPort w, w⟩ :: s.input }

end Sys2Proof.Machine
end

