-- ==== Sys2Proof/Machine/Step.lean ====
section
/-! DEFINITION. One step of the block: the next input of the total order is applied, whole (R12, R41, R45). -/

namespace Sys2Proof.Machine

/-- One step (R45). -/
def step (s : State) : Host.Outcome State Fault Refusal :=
  match s.input with
  | [] => runIdle s
  | .reset _ :: rest => runReset rest s
  | .cmd c :: rest => runCommand c rest s

/-- `s` with the command word `w` (its `nbits` bits) placed as the next input. A program of this block is a sequence of
inputs from outside, and this stands for one of them (log entries 6 and 20). -/
def State.withFetchWord (s : State) (nbits w : Nat) : State := placeWord (BitVec.ofNat 16 (w % 2 ^ nbits)) s

end Sys2Proof.Machine
end

