-- ==== Sys2Proof/Machine/Assembler.lean ====
section
/-! DEFINITION. The written form of commands (R58) and the pseudo-instructions (R59). No step of the block uses this file:
it turns a line of text into the command words that agents issue. DEDUCED or DESIGN CHOICE where R58 is silent (the
blanks between words, the operands of `FEED`, a bare word): log entry 24. -/

namespace Sys2Proof.Machine

/-- A name and the thing it names. -/
abbrev NameTable (α : Type) := List (List Char × α)

/-- The thing that a name names. -/
def NameTable.find {α : Type} (t : NameTable α) (name : List Char) : Option α :=
  (t.find? fun e => e.1 == name).map Prod.snd

/-- `<port>:` (R58). -/
def portNames : NameTable Port := [
  (['H', 'O', 'S', 'T', ':'], .host),
  (['S', 'E', 'R', '_', 'R', 'X', ':'], .serRx),
  (['S', 'E', 'R', '_', 'T', 'X', ':'], .serTx),
  (['T', 'I', 'M', 'E', 'R', ':'], .timer)]

/-- The mnemonics that take no operand (R56). -/
def plainNames : NameTable Instr := [
  (['P', 'O', 'P', '.', 'T', 'X'], .popTx),
  (['L', 'E', 'N', '.', 'R', 'X'], .lenRx),
  (['L', 'E', 'N', '.', 'T', 'X'], .lenTx),
  (['I', 'S', 'E', 'M', 'P', 'T', 'Y', '.', 'R', 'X'], .isEmptyRx),
  (['I', 'S', 'E', 'M', 'P', 'T', 'Y', '.', 'T', 'X'], .isEmptyTx),
  (['C', 'L', 'E', 'A', 'R', '.', 'R', 'X'], .clearRx),
  (['C', 'L', 'E', 'A', 'R', '.', 'T', 'X'], .clearTx),
  (['P', 'O', 'L', 'L'], .poll),
  (['W', 'D', 'E', 'X', 'P'], .wdexp)]

/-- The mnemonics that take a byte: `PUSH.*`, and `SEND`, a synonym of `PUSH.TX` (R56, R59). -/
def byteNames : NameTable (Byte → Instr) := [
  (['P', 'U', 'S', 'H', '.', 'R', 'X'], .pushRx),
  (['P', 'U', 'S', 'H', '.', 'T', 'X'], .pushTx),
  (['S', 'E', 'N', 'D'], .pushTx)]

/-- The register names (R31, R58). -/
def regNames : NameTable Reg := [
  (['S', 'T', 'A', 'T', 'U', 'S'], .status),
  (['R', 'X', '_', 'O', 'V', 'F'], .rxOvf),
  (['T', 'X', '_', 'O', 'V', 'F'], .txOvf),
  (['F', 'R', 'A', 'M', 'E', '_', 'E', 'R', 'R'], .frameErr),
  (['C', 'K', '_', 'E', 'R', 'R'], .ckErr),
  (['F', 'R', 'A', 'M', 'E', '_', 'H', 'D', 'R'], .frameHdr),
  (['C', 'U', 'R', 'S', 'O', 'R', 'S'], .cursors),
  (['L', 'O', 'N'], .lon),
  (['L', 'A', 'T'], .lat),
  (['A', 'L', 'T'], .alt),
  (['F', 'I', 'X', '_', 'S', 'T', 'A', 'T', 'U', 'S'], .fixStatus),
  (['V', 'E', 'L', '_', 'N'], .velN),
  (['V', 'E', 'L', '_', 'E'], .velE),
  (['H', 'E', 'A', 'D', 'I', 'N', 'G'], .heading)]

/-- The value of one digit, in a base of at most 16. -/
def digit (base : Nat) (c : Char) : Option Nat :=
  let n := c.toNat
  let v := if 48 ≤ n ∧ n ≤ 57 then n - 48 else if 65 ≤ n ∧ n ≤ 70 then n - 55
    else if 97 ≤ n ∧ n ≤ 102 then n - 87 else 16
  if v < base then some v else none

/-- The value of a digit string, most significant first; none where a character is no digit. -/
def digits (base : Nat) : List Char → Nat → Option Nat
  | [], v => some v
  | c :: cs, v =>
    match digit base c with
    | some d => digits base cs (v * base + d)
    | none => none

/-- A number in hex (`0xB5`) or decimal (R58). -/
def number : List Char → Option Nat
  | '0' :: 'x' :: c :: cs => digits 16 (c :: cs) 0
  | c :: cs => digits 10 (c :: cs) 0
  | [] => none

/-- A byte operand. -/
def byteOperand (cs : List Char) : Option Byte :=
  match number cs with
  | some v => if v < 256 then some (BitVec.ofNat 8 v) else none
  | none => none

/-- An operand of `FEED`: a byte in hex, with or without `0x` (the programs of 95_test_vectors.md write none). -/
def feedOperand (cs : List Char) : Option Byte :=
  match cs with
  | '0' :: 'x' :: _ => byteOperand cs
  | c :: cs =>
    match digits 16 (c :: cs) 0 with
    | some v => if v < 256 then some (BitVec.ofNat 8 v) else none
    | none => none
  | [] => none

/-- The operand of `READ`: a register name or an index (R58). -/
def regOperand (cs : List Char) : Option (BitVec 4) :=
  match regNames.find cs with
  | some r => some r.sel
  | none =>
    match number cs with
    | some v => if v < 16 then some (BitVec.ofNat 4 v) else none
    | none => none

/-- The part of a line that is read: up to a comment `;`, and up to the encoded word `=>` (R58). -/
def lineBody : List Char → List Char
  | [] => []
  | ';' :: _ => []
  | '=' :: '>' :: _ => []
  | c :: cs => c :: lineBody cs

/-- The words of a line, parted by blanks and commas. -/
def lineWords : List Char → List Char → List (List Char)
  | [], w => if w = [] then [] else [w]
  | c :: cs, w =>
    if c = ' ' ∨ c = ',' then
      if w = [] then lineWords cs [] else w :: lineWords cs []
    else lineWords cs (w ++ [c])

/-- The command words that the words after `<port>:` stand for (R58, R59); none where they are no line of the syntax. DESIGN
CHOICE (log entry 24): R59 writes `FEED` after `SER_RX:` and `SEND` and `POLL ×k` after `HOST:`, and does not say what they
are on another port; they stand for the same words there, which are then illegal commands (R57 (f)). -/
def assembleWords : List (List Char) → Option (List Word)
  | [m] =>
    match plainNames.find m with
    | some i => some [encode i]
    | none =>
      match m with
      | '0' :: 'x' :: _ =>
        match number m with
        | some v => if v < 2 ^ 16 then some [BitVec.ofNat 16 v] else none
        | none => none
      | _ => none
  | [m, a] =>
    match byteNames.find m with
    | some f => (byteOperand a).map fun b => [encode (f b)]
    | none =>
      if m = ['R', 'E', 'A', 'D'] then (regOperand a).map fun r => [encode (.read r)]
      else if m = ['F', 'E', 'E', 'D'] then (feedOperand a).map fun b => [encode (.pushRx b)]
      else if m = ['P', 'O', 'L', 'L'] then
        match a with
        | '×' :: k => (number k).map fun k => List.replicate k (encode .poll)
        | _ => none
      else none
  | m :: as =>
    if m = ['F', 'E', 'E', 'D'] then
      (as.mapM feedOperand).map fun bs => bs.map fun b => encode (.pushRx b)
    else none
  | [] => none

/-- The commands of one line `<port>: <MNEMONIC> [<operand>]` (R58). A line with nothing on it issues none. -/
def assemble (line : List Char) : Option (List Command) :=
  match lineWords (lineBody line) [] with
  | [] => some []
  | p :: ws =>
    match portNames.find p, assembleWords ws with
    | some port, some words => some (words.map fun w => ⟨port, w⟩)
    | _, _ => none

/-- A hex digit as R58 writes it. -/
def hexDigit (d : BitVec 4) : Char := Char.ofNat (if d.toNat < 10 then 48 + d.toNat else 55 + d.toNat)

/-- The name that a table gives a thing. -/
def NameTable.nameOf {α : Type} [DecidableEq α] (t : NameTable α) (a : α) : List Char :=
  match t.find? fun e => e.2 == a with
  | some e => e.1
  | none => []

/-- The written form of a command (R58): mnemonic, then operand. -/
def writeInstr : Instr → List Char
  | .pushRx b => ['P', 'U', 'S', 'H', '.', 'R', 'X', ' ', '0', 'x',
      hexDigit (b.extractLsb' 4 4), hexDigit (b.extractLsb' 0 4)]
  | .pushTx b => ['P', 'U', 'S', 'H', '.', 'T', 'X', ' ', '0', 'x',
      hexDigit (b.extractLsb' 4 4), hexDigit (b.extractLsb' 0 4)]
  | .read r => ['R', 'E', 'A', 'D', ' '] ++
      match Reg.ofSel r with
      | some reg => regNames.nameOf reg
      | none => ['0', 'x', hexDigit r]
  | i => plainNames.nameOf i

/-- The written form of a command on a port (R58). -/
def writeLine (p : Port) (i : Instr) : List Char := portNames.nameOf p ++ ' ' :: writeInstr i

end Sys2Proof.Machine
end

