-- ==== Sys2Proof/Machine/Wire.lean ====
section
/-! DEFINITION. The wire frame format (R60, R61) from the sender's side: what a well-formed frame is. The block itself
reads frames byte by byte (Machine/Framer.lean) and uses none of this. -/

namespace Sys2Proof.Machine

/-- The contents of a frame: class, id and payload. -/
structure Frame where
  cls : Byte
  id : Byte
  payload : List Byte
  deriving DecidableEq, Repr

/-- The declared payload length `L` (R60). -/
def Frame.plen (f : Frame) : BitVec 16 := BitVec.ofNat 16 f.payload.length

/-- The bytes the checksum covers: class, id, the length low byte first, payload (R60, R63). -/
def Frame.covered (f : Frame) : List Byte :=
  f.cls :: f.id :: f.plen.extractLsb' 0 8 :: f.plen.extractLsb' 8 8 :: f.payload

/-- The whole frame: sync pair, covered bytes, the two checksum bytes (R60). -/
def Frame.bytes (p : Params) (f : Frame) : List Byte :=
  p.sync1 :: p.sync2 :: f.covered ++ [(ckFn p f.covered).1, (ckFn p f.covered).2]

/-- The frames of R60 that the block accepts: `total ≤ RAW_CAP` (R61). R60 gives the format with its six header bytes and its
two checksum bytes; a block built with another `HDR_LEN` or `CK_LEN` reads frames that R60 does not describe. -/
def Frame.fits (p : Params) (f : Frame) : Bool :=
  decide (p.hdrLen = 6) && decide (p.ckLen = 2) && decide (f.payload.length ≤ p.maxPlen)

/-- The parse cursor after one field group at offset `o` (R98): what `FD_STEP` does to `pcur`. -/
def nextOffset (p : Params) (cls id : Byte) (plen o : Nat) : Nat :=
  if known cls id then
    match entry cls id o with
    | some row => o + row.width.bytes
    | none => o + p.skipW
  else plen

/-- The number of field groups from offset `o` until `plen` is reached (R103), by at most `fuel` groups. Each group
advances by at least one byte, so `plen` is fuel enough. -/
def groupsFrom (p : Params) (cls id : Byte) (plen : Nat) : Nat → Nat → Nat
  | 0, _ => 0
  | fuel + 1, o =>
    if plen ≤ o then 0 else groupsFrom p cls id plen fuel (nextOffset p cls id plen o) + 1

/-- `G`, the number of field groups of an accepted frame (R103). -/
def Frame.groups (p : Params) (f : Frame) : Nat :=
  groupsFrom p f.cls f.id f.payload.length f.payload.length 0

/-- `T + G + 2`, the polls an accepted frame takes (R93). -/
def Frame.polls (p : Params) (f : Frame) : Nat := (f.bytes p).length + f.groups p + 2

end Sys2Proof.Machine
end

