-- ==== Sys2Proof/Safety.lean ====
section
/-! DEFINITION. What claims are stated in: the invariants of the block (R27 among them), runs of commands, and when two
states differ only in bytes that no command returns (R18). -/

namespace Sys2Proof.Machine

/-- A ring in range (R17, R27 (d)): its storage canonical and within its `N` slots, its indices below `N`, its counter
within `CNT_W` bits. -/
abbrev Ring.inv (p : Params) (q : RingSel) (rb : Ring) : Prop :=
  rb.mem.wf ∧ rb.mem.within (p.slots q) ∧ rb.head < p.slots q ∧ rb.tail < p.slots q ∧ rb.ovf ≤ p.cntMax

/-- R27 (a), (b), (c), with the bounds of `cursor` in terms of `RAW_CAP`. -/
abbrev Framer.phaseInv (p : Params) (fr : Framer) : Prop :=
  (fr.fstate = .idle → fr.frameReady = false) ∧
  (fr.fstate = .reading →
    fr.frameReady = false ∧ fr.cursor.toNat ≤ p.rawCap - 1 ∧
    (6 ≤ fr.cursor.toNat → fr.plen.toNat ≤ p.maxPlen ∧ fr.cursor.toNat ≤ total p fr.plen - 1)) ∧
  (fr.fstate = .parsing →
    fr.frameReady = true ∧ fr.cursor.toNat = total p fr.plen ∧ fr.plen.toNat ≤ p.maxPlen ∧
    fr.pcur.toNat ≤ fr.plen.toNat + 3)

/-- The framer in range: `raw` canonical and within `RAW_CAP`, the counters within `CNT_W` bits, and R27. -/
abbrev Framer.inv (p : Params) (fr : Framer) : Prop :=
  fr.raw.wf ∧ fr.raw.within p.rawCap ∧ fr.feCnt ≤ p.cntMax ∧ fr.ckErrCnt ≤ p.cntMax ∧
  fr.phaseInv p

/-- The block's invariant: a configuration with a meaning (R9) whose frames end, and R27 with the canonical form of the
stores. -/
abbrev State.inv (s : State) : Prop :=
  s.params.wf = true ∧ s.params.framesEnd ∧ s.rx.inv s.params .rx ∧ s.tx.inv s.params .tx ∧ s.fr.inv s.params

/-- `n` bytes of `raw` from index `i` on. -/
def Framer.rawBytes (fr : Framer) (i n : Nat) : List Byte := (List.range n).map fun k => fr.raw.read (i + k)

/-- How many bytes of the current frame the checksum has covered: those at frame indices 2 to `total − 3` among the
`cursor` bytes accepted (R82). -/
def Framer.coveredCount (p : Params) (fr : Framer) : Nat := min fr.cursor.toNat (total p fr.plen - 2) - 2

/-- The framer's registers say what the accepted bytes of the current frame say: the sync pair, class, id and length
(R83 to R88), and the running sums (R82). -/
def Framer.agrees (p : Params) (fr : Framer) : Prop :=
  (1 ≤ fr.cursor.toNat → fr.raw.read 0 = p.sync1) ∧
  (2 ≤ fr.cursor.toNat → fr.raw.read 1 = p.sync2) ∧
  (3 ≤ fr.cursor.toNat → fr.raw.read 2 = fr.cls) ∧
  (4 ≤ fr.cursor.toNat → fr.raw.read 3 = fr.id) ∧
  (fr.cursor.toNat = 5 → fr.plen = (fr.raw.read 4).setWidth 16) ∧
  (6 ≤ fr.cursor.toNat → fr.plen = fr.raw.read 5 ++ fr.raw.read 4) ∧
  (p.ckFn = .fletcher8 → (fr.ckA, fr.ckB) = fletcher8 (fr.rawBytes 2 (fr.coveredCount p)))

/-- The frame in `raw` ends in the checksum of its own bytes (R63, R90). -/
def Framer.checksumHolds (p : Params) (fr : Framer) : Prop :=
  (fr.raw.read (total p fr.plen - 2), fr.raw.read (total p fr.plen - 1)) =
    ckFn p (fr.rawBytes 2 (total p fr.plen - 4))

/-- The current frame, as the framer holds it: in Reading its registers agree with the bytes accepted, in Parsing with
the whole frame, which under `REJECT` has a valid checksum (R82 to R90). -/
def State.frameInv (s : State) : Prop :=
  (s.fr.fstate = .reading → s.fr.agrees s.params) ∧
  (s.fr.fstate = .parsing →
    s.fr.agrees s.params ∧ (s.fr.lastCkValid = true ↔ s.fr.checksumHolds s.params) ∧
    (s.params.ckPolicy = .reject → s.fr.lastCkValid = true))

/-- What an event says of the link: an arm says connected, an expiry says disconnected. -/
def Event.link : Event → Option Bool
  | .arm _ => some true
  | .cond .disconnected => some false
  | .cond _ => none

/-- The link as the history tells it: the last arm or expiry, disconnected where there is none (R28, R34). -/
def linkOf (h : List Event) : Bool := (h.filterMap Event.link).getLast?.getD false

/-- `connected` and `wd_armed` are what the history says. -/
abbrev State.linkInv (s : State) : Prop := s.conn = ⟨linkOf s.history, linkOf s.history⟩

/-- The conditions that `fe_cnt` counts (R26, R110). -/
def Event.isFramingError : Event → Bool
  | .cond (.sync1Mismatch _) => true
  | .cond (.sync2Mismatch _) => true
  | .cond (.oversize _) => true
  | _ => false

/-- The condition that `ck_err_cnt` counts (R26, R110). -/
def Event.isCkMismatch : Event → Bool
  | .cond (.ckMismatch _ _) => true
  | _ => false

/-- The events that a legal `POLL` may append (R79, R84, R110). -/
def Event.ofPoll (p : Params) : Event → Prop
  | .arm ms => ms = p.wdTimeoutMs
  | .cond (.sync1Mismatch _) => True
  | .cond (.sync2Mismatch _) => True
  | .cond (.oversize _) => True
  | .cond (.ckMismatch _ _) => True
  | .cond (.unknownMessage _ _) => True
  | .cond (.rxOverflow _) => False
  | .cond (.txOverflow _) => False
  | .cond .disconnected => False
  | .cond (.illegalCommand _ _) => False

/-- A condition of R110, as against an `ARM` event. -/
def Event.isCondition : Event → Bool
  | .cond _ => true
  | .arm _ => false

/-- `fe_cnt` and `ck_err_cnt` count the history's conditions, saturating (R26, R110). -/
abbrev State.countInv (s : State) : Prop :=
  s.fr.feCnt = min (s.history.countP Event.isFramingError) s.params.cntMax ∧
  s.fr.ckErrCnt = min (s.history.countP Event.isCkMismatch) s.params.cntMax

/-- One command applied: a step with that command as the next input (R45). -/
def issue (c : Command) (s : State) : Host.Outcome State Fault Refusal :=
  step { s with input := .cmd c :: s.input }

/-- Commands applied one after another: the responses in order and the state after; none where a step stops. -/
def answers : List Command → State → Option (List Response × State)
  | [], s => some ([], s)
  | c :: cs, s =>
    match issue c s with
    | .next t =>
      match t.resp, answers cs t with
      | some r, some (rs, u) => some (r :: rs, u)
      | _, _ => none
    | .fault _ => none
    | .refused _ => none

/-- The host's command `i`, and each other agent's: the word on the port that accepts it. -/
def Command.of (i : Instr) : Command := ⟨i.port, encode i⟩

/-- `k` polls one after another (R59, `POLL ×k`); none where one stops. -/
def polls : Nat → State → Option State
  | 0, s => some s
  | k + 1, s =>
    match issue (.of .poll) s with
    | .next t => polls k t
    | .fault _ => none
    | .refused _ => none

/-- Pushes (`some b`) and pops (`none`) of one ring, one after another: the bytes accepted, the bytes popped, and the ring
after; none where one stops (R66, R67, R70). -/
def ringRun (p : Params) (q : RingSel) : List (Option Byte) → Ring → Option (List Byte × List Byte × Ring)
  | [], rb => some ([], [], rb)
  | some b :: os, rb =>
    match rb.push p q b with
    | .ok (rb, a) =>
      match ringRun p q os rb with
      | some (acc, out, rb) => some (if a then b :: acc else acc, out, rb)
      | none => none
    | .error _ => none
  | none :: os, rb =>
    match rb.pop p q with
    | .ok (rb, v, b) =>
      match ringRun p q os rb with
      | some (acc, out, rb) => some (acc, if v then b :: out else out, rb)
      | none => none
    | .error _ => none

/-- The push command of a ring (R72, R73). -/
def pushOf : RingSel → Byte → Instr
  | .rx, b => .pushRx b
  | .tx, b => .pushTx b

/-- The port of a ring's producer (R55). -/
def pushPort : RingSel → Port
  | .rx => .serRx
  | .tx => .host

/-- `s` after an illegal command with word `w`: the condition recorded, `{0, 0}` answered, nothing else changed (R57,
R108). -/
def State.illegalAnswer (s : State) (w : Word) : State :=
  { s with history := s.history ++ [.cond (.illegalCommand s.port w)], resp := some ⟨false, 0⟩ }

/-- The length command of a ring (R75). -/
def lenOf : RingSel → Instr
  | .rx => .lenRx
  | .tx => .lenTx

/-- The emptiness command of a ring (R76). -/
def isEmptyOf : RingSel → Instr
  | .rx => .isEmptyRx
  | .tx => .isEmptyTx

/-- The clear command of a ring (R77). -/
def clearOf : RingSel → Instr
  | .rx => .clearRx
  | .tx => .clearTx

/-- The other ring. -/
def otherRing : RingSel → RingSel
  | .rx => .tx
  | .tx => .rx

/-- A state in which a host `POLL` consumes a byte (R81). -/
abbrev State.takesByte (s : State) : Prop :=
  s.params.wf = true ∧ s.port = .host ∧ s.fr.fstate = .reading ∧ s.fr.frameReady = false ∧
  s.rx.occ s.params.rxN ≠ 0 ∧ s.rx.head < s.params.rxN

/-- The byte that it consumes. -/
def State.nextByte (s : State) : Byte := s.rx.mem.read s.rx.head

/-- `s` after a poll that consumed a byte and left framer `fr`: the byte is popped, the response given, nothing else
changed. -/
def State.polled (s : State) (fr : Framer) : State :=
  { s with
    rx := { s.rx with head := (s.rx.head + 1) % s.params.rxN }
    fr := fr
    resp := some ⟨true, 0⟩ }

/-- The running sums after byte `b` is covered: the default sum's step, and no change under another `CK_FN` (R82). -/
def Framer.sumsWith (p : Params) (fr : Framer) (b : Byte) : Byte × Byte :=
  match p.ckFn with
  | .fletcher8 => (fr.ckA + b, fr.ckB + (fr.ckA + b))
  | .other => (fr.ckA, fr.ckB)

/-- The two checksum bytes that a frame complete but for its last byte should have: the running sums, or another `CK_FN`
of the bytes at frame indices 2 to `total − 3` (R82, R90). -/
def Framer.ckExpected (p : Params) (fr : Framer) : Byte × Byte :=
  match p.ckFn with
  | .fletcher8 => (fr.ckA, fr.ckB)
  | .other => Config.otherCkFn (fr.rawBytes 2 (total p fr.plen - 4))

/-- The bytes that `PUSH.TX` commands of a sequence had accepted, in order. -/
def acceptedTx : List Command → List Response → List Byte
  | c :: cs, r :: rs =>
    match decode c.word with
    | .ok (.pushTx b) => if r = ⟨true, 1⟩ then b :: acceptedTx cs rs else acceptedTx cs rs
    | _ => acceptedTx cs rs
  | _, _ => []

/-- The bytes that `POP.TX` commands of a sequence returned (`data[8] = 1`), in order. -/
def poppedTx : List Command → List Response → List Byte
  | c :: cs, r :: rs =>
    match decode c.word with
    | .ok .popTx =>
      if r.ok = true ∧ r.data.getLsbD 8 = true then r.data.setWidth 8 :: poppedTx cs rs else poppedTx cs rs
    | _ => poppedTx cs rs
  | _, _ => []

/-- Two rings that differ at most in stale slots (R18). -/
def Ring.sameQueue (n : Nat) (a b : Ring) : Prop :=
  a.head = b.head ∧ a.tail = b.tail ∧ a.ovf = b.ovf ∧ a.queue n = b.queue n

/-- How many bytes of `raw` the current frame has written: none in Idle, `cursor` in Reading, `total` in Parsing. -/
def Framer.liveBytes (p : Params) (fr : Framer) : Nat :=
  match fr.fstate with
  | .idle => 0
  | .reading => fr.cursor.toNat
  | .parsing => total p fr.plen

/-- Two framers that differ at most in `raw` bytes that the current frame has not written (R80). -/
def Framer.sameLive (p : Params) (a b : Framer) : Prop :=
  a = { b with raw := a.raw } ∧ ∀ i < a.liveBytes p, a.raw.read i = b.raw.read i

/-- Two states that differ at most in stale bytes: ring slots outside the queue, and `raw` bytes that the current frame
has not written (93_implementation_defined.md U12). -/
def State.sameLive (s t : State) : Prop :=
  s = { t with rx := s.rx, tx := s.tx, fr := s.fr } ∧
  s.rx.sameQueue s.params.rxN t.rx ∧ s.tx.sameQueue s.params.txN t.tx ∧ s.fr.sameLive s.params t.fr

/-- R57 (a) to (e): the words that are illegal on every port, field by field. -/
def illegalFields (w : Word) : Prop :=
  (w.op = 0x0 ∨ 0x9 ≤ w.op) ∨
  (w.op = 0x1 ∧ w.sel ≠ 0 ∧ w.sel ≠ 1) ∨
  (w.op = 0x2 ∧ w.sel ≠ 1) ∨
  ((0x2 ≤ w.op ∧ w.op ≤ 0x8 ∧ w.imm ≠ 0) ∨
    (0x3 ≤ w.op ∧ w.op ≤ 0x5 ∧ w.sel ≠ 0 ∧ w.sel ≠ 1) ∨
    ((w.op = 0x6 ∨ w.op = 0x8) ∧ w.sel ≠ 0)) ∨
  (w.op = 0x7 ∧ (w.sel = 0xE ∨ w.sel = 0xF))

end Sys2Proof.Machine
end

