-- ==== Sys2Proof/Certificates/Slice0/Obligations.lean ====
section
/-! DEFINITION. The statements about the model, in the order of OBLIGATIONS.json. Each holds for every configuration: the
parameters of R8 are part of the state. -/

open Sys2Proof Sys2Proof.Machine

/-! ### Encodings (30_encoding.md) -/

/-- O1. Decoding the word of a well-formed command gives the command back (R53, R56). -/
def Obligations.DecodeEncodeRoundTrip : Prop :=
  ∀ i : Instr, i.wf = true → decode (encode i) = .ok i

/-- O2. A word that decodes is the word of its command: no bit of a legal word is ignored (R53, R56). -/
def Obligations.EncodeDecodeRoundTrip : Prop :=
  ∀ (w : Word) (i : Instr), decode w = .ok i → i.wf = true ∧ encode i = w

/-- O3. R56: the legal words are exactly those of the table's rows, `READ` bounded by 0xD; a legal word's row has its
command's mnemonic and port; no word is of two rows. -/
def Obligations.DecoderAcceptsExactlyTheTable : Prop :=
  (∀ w : Word, (∃ i, decode w = .ok i) ↔
    ∃ row ∈ opcodeTable, row.matches w = true ∧ (row.mnemonic = "READ" → w.sel ≤ 0xD)) ∧
  (∀ (w : Word) (i : Instr), decode w = .ok i →
    ∃ row ∈ opcodeTable, row.matches w = true ∧ row.mnemonic = i.mnemonic ∧ row.port = i.port) ∧
  (∀ w : Word, ∀ row ∈ opcodeTable, ∀ row' ∈ opcodeTable,
    row.matches w = true → row'.matches w = true → row = row')

/-- O4. The words that do not decode are those of R57 (a) to (e). -/
def Obligations.RejectedWordsAreTheReservedOnes : Prop :=
  ∀ w : Word, (∃ e, decode w = .error e) ↔ illegalFields w

/-- O5. Words written out from the encodings of R56, one of each row. -/
def Obligations.SelectedWordsDecode : Prop :=
  decode 0x10B5 = .ok (.pushRx 0xB5) ∧ decode 0x1141 = .ok (.pushTx 0x41) ∧ decode 0x2100 = .ok .popTx ∧
  decode 0x3000 = .ok .lenRx ∧ decode 0x3100 = .ok .lenTx ∧ decode 0x4000 = .ok .isEmptyRx ∧
  decode 0x4100 = .ok .isEmptyTx ∧ decode 0x5000 = .ok .clearRx ∧ decode 0x5100 = .ok .clearTx ∧
  decode 0x6000 = .ok .poll ∧ decode 0x7D00 = .ok (.read 0xD) ∧ decode 0x8000 = .ok .wdexp

/-- O6. The written line of a command (R58) assembles to its word on its port. The line's blanks and digits are the model's
choice (log entry 24). -/
def Obligations.WrittenLineAssembles : Prop :=
  ∀ (p : Port) (i : Instr), i.wf = true → assemble (writeLine p i) = some [⟨p, encode i⟩]

/-! ### Steps, ports and configuration -/

/-- O7. A step applies the next command whole: it runs the decoded command on the command's port, with that input taken
(R41, R45, R55). The input list and the port field are the model's (log entries 6 and 8). -/
def Obligations.StepRunsDecodedCommand : Prop :=
  ∀ (s : State) (c : Command) (rest : List Input) (i : Instr),
    s.input = .cmd c :: rest → decode c.word = .ok i →
    step s = exec i { s with port := c.port, input := rest }

/-- O8. R57, R108: an illegal word, or a legal word on another port than its own, changes no state of the block; it is
recorded and answered `{0, 0}`. -/
def Obligations.IllegalCommandChangesNothing : Prop :=
  ∀ (s : State) (c : Command) (rest : List Input), s.params.wf = true → s.input = .cmd c :: rest →
    (illegalFields c.word ∨ ∃ i, decode c.word = .ok i ∧ c.port ≠ i.port) →
    step s = .next { s with
      port := c.port
      input := rest
      history := s.history ++ [.cond (.illegalCommand c.port c.word)]
      resp := some ⟨false, 0⟩ }

/-- O9. R54, R55: from every state with its rings in range, and for `POLL` from every state of the invariant, a well-formed
command on its own port completes with `ok = 1`, and is not recorded as illegal. -/
def Obligations.LegalCommandCompletes : Prop :=
  ∀ (i : Instr) (s : State), s.params.wf = true → s.rx.inv s.params .rx → s.tx.inv s.params .tx →
    (i = .poll → s.inv) → i.wf = true → s.port = i.port →
    ∃ t d, exec i s = .next t ∧ t.resp = some ⟨true, d⟩ ∧
      ∀ p w, Event.cond (.illegalCommand p w) ∈ t.history → Event.cond (.illegalCommand p w) ∈ s.history

/-- O10. R9: a configuration that breaks one of its constraints is refused, whatever is asked of it. That no other one is
refused is the model's reading (log entry 21), in which the block never refuses by itself (R50, R109). -/
def Obligations.BrokenConfigurationRefused : Prop :=
  ∀ s : State,
    ((s.params.rxN < 2 ∨ s.params.txN < 2 ∨ s.params.rawCap < s.params.hdrLen + s.params.ckLen ∨
      255 < s.params.rawCap ∨ s.params.skipW < 1 ∨ 4 < s.params.skipW) →
      (∀ i, exec i s = .refused .invalidConfiguration) ∧ step s = .refused .invalidConfiguration) ∧
    (2 ≤ s.params.rxN → 2 ≤ s.params.txN → s.params.hdrLen + s.params.ckLen ≤ s.params.rawCap →
      s.params.rawCap ≤ 255 → 1 ≤ s.params.skipW → s.params.skipW ≤ 4 →
      (∀ i r, exec i s ≠ .refused r) ∧ ∀ r, step s ≠ .refused r)

/-- O11. R127: no step changes a parameter. -/
def Obligations.ParametersNeverChange : Prop :=
  ∀ s t : State, step s = .next t → t.params = s.params

/-! ### Reset (R35, R124 to R126) -/

/-- O12. R35: the value of every element after reset. -/
def Obligations.ResetValues : Prop :=
  ∀ p : Params,
    (∀ a, (State.resetWith p).rx.mem.read a = 0x00 ∧ (State.resetWith p).tx.mem.read a = 0x00 ∧
      (State.resetWith p).fr.raw.read a = 0x00) ∧
    (State.resetWith p).rx.head = 0 ∧ (State.resetWith p).rx.tail = 0 ∧ (State.resetWith p).rx.ovf = 0 ∧
    (State.resetWith p).tx.head = 0 ∧ (State.resetWith p).tx.tail = 0 ∧ (State.resetWith p).tx.ovf = 0 ∧
    (State.resetWith p).fr.fstate = .idle ∧ (State.resetWith p).fr.cursor = 0 ∧
    (State.resetWith p).fr.cls = 0 ∧ (State.resetWith p).fr.id = 0 ∧ (State.resetWith p).fr.plen = 0 ∧
    (State.resetWith p).fr.ckA = 0 ∧ (State.resetWith p).fr.ckB = 0 ∧ (State.resetWith p).fr.pcur = 0 ∧
    (State.resetWith p).fr.frameReady = false ∧ (State.resetWith p).fr.lastCkValid = false ∧
    (State.resetWith p).fr.feCnt = 0 ∧ (State.resetWith p).fr.ckErrCnt = 0 ∧
    (State.resetWith p).conn = ⟨false, false⟩ ∧
    (State.resetWith p).tel = ⟨0x00000000, 0x00000000, 0x00000000, false, 0x00, 0x00000000, 0x00000000, 0x00000000⟩ ∧
    (State.resetWith p).history = []

/-- O13. R124, R125: `RESET` puts every element at its reset value, whatever commands were lost to it: they leave no
response and no trace. That the parameters stay and that inputs not yet applied stay to be applied is the model's reading
(log entry 10); the empty response (log entry 9) and the port `HOST` (log entry 8) of the next state are its choice. -/
def Obligations.ResetInputRestoresResetState : Prop :=
  ∀ (s : State) (lost : List Command) (rest : List Input), s.params.wf = true →
    s.input = .reset lost :: rest →
    step s = .next { State.resetWith s.params with input := rest }

/-- O14. The reset state of every configuration with a meaning whose frames end satisfies the invariant (R27, R35). -/
def Obligations.ResetMeetsInvariant : Prop :=
  ∀ p : Params, p.wf = true → p.framesEnd → (State.resetWith p).inv

/-- O15. R126: after reset each ring is in the state that `CLEAR` gives it, and `CLEAR`, a command of `HOST`, then changes
nothing. -/
def Obligations.ClearAfterResetChangesNothing : Prop :=
  ∀ (p : Params) (q : RingSel), p.wf = true →
    (∀ rb : Ring, rb.inv p q → rb.clear p q = (State.resetWith p).ring q) ∧
    exec (clearOf q) { State.resetWith p with port := .host } =
      .next { State.resetWith p with port := .host, resp := some ⟨true, 0⟩ }

/-! ### Rings (40_ring_buffer.md) -/

/-- O16. R72, R73 (and R66): a push into a full ring is refused, counted and recorded; any other stores the byte at `tail`
and moves `tail` on. Each clause gives the whole next state. On any other port it is an illegal command. -/
def Obligations.PushStoresOrCountsOverflow : Prop :=
  ∀ (q : RingSel) (b : Byte) (s : State), s.params.wf = true →
    encode (pushOf q b) = (match q with | .rx => 0x10 | .tx => 0x11 : Byte) ++ b ∧
    (s.port ≠ pushPort q → exec (pushOf q b) s = .next (s.illegalAnswer (encode (pushOf q b)))) ∧
    (s.port = pushPort q → (s.ring q).occ (s.params.slots q) = s.params.slots q - 1 →
      exec (pushOf q b) s = .next
        { s.setRing q { s.ring q with ovf := s.params.satInc (s.ring q).ovf } with
          history := s.history ++ [.cond (match q with | .rx => .rxOverflow b | .tx => .txOverflow b)]
          resp := some ⟨true, 0⟩ }) ∧
    (s.port = pushPort q → (s.ring q).occ (s.params.slots q) ≠ s.params.slots q - 1 →
      (s.ring q).tail < s.params.slots q →
      exec (pushOf q b) s = .next
        { s.setRing q { s.ring q with
            mem := (s.ring q).mem.write (s.ring q).tail b
            tail := if (s.ring q).tail = s.params.slots q - 1 then 0 else (s.ring q).tail + 1 } with
          resp := some ⟨true, 1⟩ })

/-- O17. R66, R71, with the frame of `PUSH`: a push into a full ring returns 0, adds 1 to `ovf` (saturating) and leaves the
queue and every slot as they were; any other puts its byte at the queue's end, writes the slot at `tail` alone, and
returns 1. Nothing else changes. -/
def Obligations.PushAppendsToQueue : Prop :=
  ∀ (q : RingSel) (b : Byte) (s : State), s.params.wf = true → (s.ring q).inv s.params q →
    s.port = (pushOf q b).port →
    ∃ t, exec (pushOf q b) s = .next t ∧
      ((s.ring q).occ (s.params.slots q) = s.params.slots q - 1 →
        (t.ring q).queue (s.params.slots q) = (s.ring q).queue (s.params.slots q) ∧
        (∀ a, (t.ring q).mem.read a = (s.ring q).mem.read a) ∧
        (t.ring q).tail = (s.ring q).tail ∧
        (t.ring q).ovf = min ((s.ring q).ovf + 1) (2 ^ s.params.cntW - 1) ∧
        t.history = s.history ++ [.cond (match q with | .rx => .rxOverflow b | .tx => .txOverflow b)] ∧
        t.resp = some ⟨true, 0⟩) ∧
      ((s.ring q).occ (s.params.slots q) ≠ s.params.slots q - 1 →
        (t.ring q).queue (s.params.slots q) = (s.ring q).queue (s.params.slots q) ++ [b] ∧
        (∀ a, a ≠ (s.ring q).tail → (t.ring q).mem.read a = (s.ring q).mem.read a) ∧
        (t.ring q).mem.read (s.ring q).tail = b ∧
        (t.ring q).tail = ((s.ring q).tail + 1) % s.params.slots q ∧
        (t.ring q).ovf = (s.ring q).ovf ∧ t.history = s.history ∧
        t.resp = some ⟨true, 1⟩) ∧
      (t.ring q).head = (s.ring q).head ∧ t.ring (otherRing q) = s.ring (otherRing q) ∧
      t.fr = s.fr ∧ t.conn = s.conn ∧ t.tel = s.tel ∧ t.params = s.params ∧ t.port = s.port ∧
      t.input = s.input

/-- O18. R74 (and R67): `POP.TX` of an empty ring changes nothing and answers the sentinel with `valid = 0`; of any other
it takes the oldest byte, and changes `head` alone (no slot). On any other port it is an illegal command. -/
def Obligations.PopTakesOldestByte : Prop :=
  encode .popTx = 0x2100 ∧
  ∀ s : State, s.params.wf = true → s.tx.inv s.params .tx →
    (s.port ≠ .serTx → exec .popTx s = .next (s.illegalAnswer 0x2100)) ∧
    (s.port = .serTx → s.tx.queue s.params.txN = [] →
      exec .popTx s = .next { s with resp := some ⟨true, popData false s.params.popSentinel⟩ }) ∧
    (∀ b bs, s.port = .serTx → s.tx.queue s.params.txN = b :: bs →
      ∃ t, exec .popTx s = .next t ∧ t.tx.queue s.params.txN = bs ∧
        t = { s with
          tx := { s.tx with head := (s.tx.head + 1) % s.params.txN }
          resp := some ⟨true, popData true b⟩ })

/-- O19. The fields of a pop's response: byte in bits 7:0, valid in bit 8, zeros above (R54, R74). -/
def Obligations.PopResponseFields : Prop :=
  ∀ (v : Bool) (b : Byte), (popData v b).extractLsb' 0 8 = b ∧ (popData v b).getLsbD 8 = v ∧
    (popData v b).extractLsb' 9 23 = 0

/-- O20. R70, the FIFO law: `k ≤ N − 1` bytes pushed into an empty ring are all accepted, `k` pops return them in order,
and one more returns none; and under any interleaving the bytes popped are a prefix of the bytes accepted, the rest being
the queue. -/
def Obligations.FifoLaw : Prop :=
  ∀ (p : Params) (q : RingSel) (rb : Ring), p.wf = true → rb.inv p q → rb.occ (p.slots q) = 0 →
    (∀ bs : List Byte, bs.length ≤ p.slots q - 1 →
      ∃ rb', ringRun p q (bs.map some ++ List.replicate bs.length none) rb = some (bs, bs, rb') ∧
        rb'.pop p q = .ok (rb', false, p.popSentinel)) ∧
    (∀ os acc out rb', ringRun p q os rb = some (acc, out, rb') →
      out <+: acc ∧ acc = out ++ rb'.queue (p.slots q))

/-- O21. R47: a push and a pop of a ring that is neither empty nor full leave the same ring and move the same byte in
either order. At an empty ring the pop that goes first returns nothing and the push that goes first has its byte popped;
at a full ring the push that goes first is refused and counted, and the pop that goes first lets it succeed. -/
def Obligations.PushAndPopCommute : Prop :=
  ∀ (p : Params) (q : RingSel) (rb : Ring) (b : Byte), p.wf = true → rb.inv p q →
    (rb.occ (p.slots q) ≠ 0 → rb.occ (p.slots q) ≠ p.slots q - 1 →
      ∃ rb', ringRun p q [some b, none] rb = some ([b], [rb.mem.read rb.head], rb') ∧
        ringRun p q [none, some b] rb = some ([b], [rb.mem.read rb.head], rb')) ∧
    (rb.occ (p.slots q) = 0 →
      (∃ r, ringRun p q [none, some b] rb = some ([b], [], r)) ∧
      (∃ r, ringRun p q [some b, none] rb = some ([b], [b], r))) ∧
    (rb.occ (p.slots q) = p.slots q - 1 →
      (∃ r, ringRun p q [some b, none] rb = some ([], [rb.mem.read rb.head], r) ∧ r.ovf = p.satInc rb.ovf) ∧
      (∃ r, ringRun p q [none, some b] rb = some ([b], [rb.mem.read rb.head], r) ∧ r.ovf = rb.ovf))

/-- O22. R45, R46, R70 over commands: whatever the agents issue and in whatever order, as long as the host does not clear
`RB_TX`, the bytes queued and accepted are the bytes popped followed by the bytes still queued. -/
def Obligations.TransmitBytesKeepOrder : Prop :=
  ∀ (cs : List Command) (rs : List Response) (s t : State),
    s.params.wf = true → s.tx.inv s.params .tx →
    (∀ c ∈ cs, c ≠ ⟨.host, 0x5100⟩) → answers cs s = some (rs, t) →
    s.tx.queue s.params.txN ++ acceptedTx cs rs = poppedTx cs rs ++ t.tx.queue t.params.txN

/-- O23. R75: `LEN` answers the occupancy zero-extended and changes nothing else; the occupancy is at most `N − 1`, and with
`tail < head` it is `tail − head + N`. (R75 gives no value to an occupancy of 2^32 or more; none is claimed.) On any other
port it is an illegal command. -/
def Obligations.LenAnswersOccupancy : Prop :=
  ∀ (q : RingSel) (s : State), s.params.wf = true →
    encode (lenOf q) = (match q with | .rx => 0x3000 | .tx => 0x3100) ∧
    (s.port ≠ .host → exec (lenOf q) s = .next (s.illegalAnswer (encode (lenOf q)))) ∧
    (s.port = .host → ∃ d : Data, exec (lenOf q) s = .next { s with resp := some ⟨true, d⟩ } ∧
      ((s.ring q).occ (s.params.slots q) < 2 ^ 32 → d.toNat = (s.ring q).occ (s.params.slots q))) ∧
    (s.ring q).occ (s.params.slots q) ≤ s.params.slots q - 1 ∧
    ((s.ring q).head < s.params.slots q → (s.ring q).tail < s.params.slots q →
      (s.ring q).occ (s.params.slots q) =
        if (s.ring q).tail < (s.ring q).head then (s.ring q).tail + s.params.slots q - (s.ring q).head
        else (s.ring q).tail - (s.ring q).head)

/-- O24. R76: `ISEMPTY` answers 1 where the occupancy is 0, which is where `head = tail`, and 0 elsewhere, and changes
nothing else. On any other port it is an illegal command. -/
def Obligations.IsEmptyAnswersIndexEquality : Prop :=
  ∀ (q : RingSel) (s : State), s.params.wf = true →
    encode (isEmptyOf q) = (match q with | .rx => 0x4000 | .tx => 0x4100) ∧
    (s.port ≠ .host → exec (isEmptyOf q) s = .next (s.illegalAnswer (encode (isEmptyOf q)))) ∧
    (s.port = .host → exec (isEmptyOf q) s =
      .next { s with resp := some ⟨true, if (s.ring q).occ (s.params.slots q) = 0 then 1 else 0⟩ }) ∧
    ((s.ring q).head < s.params.slots q → (s.ring q).tail < s.params.slots q →
      ((s.ring q).occ (s.params.slots q) = 0 ↔ (s.ring q).head = (s.ring q).tail))

/-- O25. R69, R77: `CLEAR` zeroes the ring's slots, indices and counter, leaves its queue empty, and touches nothing else:
not the other ring, not the framer. On any other port it is an illegal command. -/
def Obligations.ClearZeroesOneRing : Prop :=
  ∀ (q : RingSel) (s : State), s.params.wf = true →
    encode (clearOf q) = (match q with | .rx => 0x5000 | .tx => 0x5100) ∧
    (s.port ≠ .host → exec (clearOf q) s = .next (s.illegalAnswer (encode (clearOf q)))) ∧
    (s.port = .host → ∃ t, exec (clearOf q) s = .next t ∧
      (∀ a, (t.ring q).mem.read a = if a < s.params.slots q then 0x00 else (s.ring q).mem.read a) ∧
      (t.ring q).head = 0 ∧ (t.ring q).tail = 0 ∧ (t.ring q).ovf = 0 ∧
      (t.ring q).queue (s.params.slots q) = [] ∧
      t = { s.setRing q (t.ring q) with resp := some ⟨true, 0⟩ })

/-! ### The queries and the watchdog (43_control.md) -/

/-- O26. R42: `LEN`, `ISEMPTY` and `READ` change nothing but the response, and a second one right after answers the
same. -/
def Obligations.QueriesChangeNothing : Prop :=
  ∀ (i : Instr) (s t : State),
    (i = .lenRx ∨ i = .lenTx ∨ i = .isEmptyRx ∨ i = .isEmptyTx ∨ ∃ r, i = .read r ∧ r ≤ 0xD) →
    s.port = i.port → exec i s = .next t →
    t = { s with resp := t.resp } ∧ exec i t = .next t

/-- O27. R31, R106: what `READ` answers, register by register, a counter zero-extended (to one of 2^32 or more, which only
`CNT_W > 32` allows, R31 gives no 32-bit value and none is claimed); the reserved indices are an illegal command (log
entry 16). -/
def Obligations.ReadAnswersRegisterMap : Prop :=
  ∀ s : State, s.params.wf = true → s.port = .host →
    exec (.read 0x0) s = .next { s with resp := some ⟨true, statusWord s⟩ } ∧
    (∃ d : Data, exec (.read 0x1) s = .next { s with resp := some ⟨true, d⟩ } ∧
      (s.rx.ovf < 2 ^ 32 → d.toNat = s.rx.ovf)) ∧
    (∃ d : Data, exec (.read 0x2) s = .next { s with resp := some ⟨true, d⟩ } ∧
      (s.tx.ovf < 2 ^ 32 → d.toNat = s.tx.ovf)) ∧
    (∃ d : Data, exec (.read 0x3) s = .next { s with resp := some ⟨true, d⟩ } ∧
      (s.fr.feCnt < 2 ^ 32 → d.toNat = s.fr.feCnt)) ∧
    (∃ d : Data, exec (.read 0x4) s = .next { s with resp := some ⟨true, d⟩ } ∧
      (s.fr.ckErrCnt < 2 ^ 32 → d.toNat = s.fr.ckErrCnt)) ∧
    (∃ d : Data, exec (.read 0x5) s = .next { s with resp := some ⟨true, d⟩ } ∧
      d.extractLsb' 16 16 = s.fr.plen ∧ d.extractLsb' 8 8 = s.fr.id ∧ d.extractLsb' 0 8 = s.fr.cls) ∧
    (∃ d : Data, exec (.read 0x6) s = .next { s with resp := some ⟨true, d⟩ } ∧
      d.extractLsb' 16 16 = 0 ∧ d.extractLsb' 8 8 = s.fr.pcur ∧ d.extractLsb' 0 8 = s.fr.cursor) ∧
    exec (.read 0x7) s = .next { s with resp := some ⟨true, s.tel.lon⟩ } ∧
    exec (.read 0x8) s = .next { s with resp := some ⟨true, s.tel.lat⟩ } ∧
    exec (.read 0x9) s = .next { s with resp := some ⟨true, s.tel.alt⟩ } ∧
    exec (.read 0xA) s = .next { s with resp := some ⟨true, s.tel.fixStatus.setWidth 32⟩ } ∧
    exec (.read 0xB) s = .next { s with resp := some ⟨true, s.tel.velN⟩ } ∧
    exec (.read 0xC) s = .next { s with resp := some ⟨true, s.tel.velE⟩ } ∧
    exec (.read 0xD) s = .next { s with resp := some ⟨true, s.tel.heading⟩ } ∧
    exec (.read 0xE) s = .next { s with
      history := s.history ++ [.cond (.illegalCommand .host 0x7E00)], resp := some ⟨false, 0⟩ } ∧
    exec (.read 0xF) s = .next { s with
      history := s.history ++ [.cond (.illegalCommand .host 0x7F00)], resp := some ⟨false, 0⟩ }

/-- O28. R30, R32: the fields of STATUS, bit by bit. -/
def Obligations.StatusFields : Prop :=
  ∀ s : State,
    (statusWord s).extractLsb' 0 2 = (match s.fr.fstate with | .idle => 0 | .reading => 1 | .parsing => 2) ∧
    (statusWord s).getLsbD 2 = s.fr.frameReady ∧
    (statusWord s).getLsbD 3 = s.conn.connected ∧
    (statusWord s).getLsbD 4 = s.tel.hasPosition ∧
    (statusWord s).getLsbD 5 = s.fr.lastCkValid ∧
    (statusWord s).getLsbD 6 = s.conn.wdArmed ∧
    (statusWord s).getLsbD 7 = decide (s.tel.fixStatus ≠ 0) ∧
    (statusWord s).getLsbD 8 = decide (s.params.ckPolicy = .reject) ∧
    (statusWord s).extractLsb' 9 23 = 0

/-- O29. R107: an expiry disconnects while the watchdog is armed; a stale one changes nothing. Neither touches the
framer, the rings or the telemetry. On any other port it is an illegal command. -/
def Obligations.WdexpDisconnectsWhileArmed : Prop :=
  encode .wdexp = 0x8000 ∧
  ∀ s : State, s.params.wf = true →
    (s.port ≠ .timer → exec .wdexp s = .next (s.illegalAnswer 0x8000)) ∧
    (s.port = .timer → s.conn.wdArmed = true → exec .wdexp s = .next { s with
      conn := ⟨false, false⟩, history := s.history ++ [.cond .disconnected], resp := some ⟨true, 0⟩ }) ∧
    (s.port = .timer → s.conn.wdArmed = false → exec .wdexp s = .next { s with resp := some ⟨true, 0⟩ })

/-! ### The framer (41_framer.md) -/

/-- O30. R80: a poll in Idle starts a frame when a byte is available, and consumes none; with none it changes nothing. -/
def Obligations.PollInIdle : Prop :=
  ∀ s : State, s.params.wf = true → s.port = .host → s.fr.fstate = .idle →
    (0 < s.rx.occ s.params.rxN → exec .poll s = .next { s with
      fr := { s.fr with
        fstate := .reading, cursor := 0, cls := 0, id := 0, plen := 0, ckA := 0, ckB := 0, pcur := 0 }
      resp := some ⟨true, 0⟩ }) ∧
    (s.rx.occ s.params.rxN = 0 → exec .poll s = .next { s with resp := some ⟨true, 0⟩ })

/-- O31. R81, R96: a poll in Reading with no byte waiting, or with a frame already complete, changes nothing: a partial
frame waits. -/
def Obligations.PollWaitsForByte : Prop :=
  ∀ s : State, s.params.wf = true → s.port = .host → s.fr.fstate = .reading →
    (s.rx.occ s.params.rxN = 0 ∨ s.fr.frameReady = true) →
    exec .poll s = .next { s with resp := some ⟨true, 0⟩ }

/-- O32. R83: the byte at cursor 0. -/
def Obligations.PollReadsSync1 : Prop :=
  ∀ s : State, s.takesByte → s.fr.cursor = 0 →
    (s.nextByte ≠ s.params.sync1 → exec .poll s = .next
      { s.polled { s.fr with fstate := .idle, feCnt := s.params.satInc s.fr.feCnt } with
        history := s.history ++ [.cond (.sync1Mismatch s.nextByte)] }) ∧
    (s.nextByte = s.params.sync1 → 0 < s.params.rawCap → exec .poll s = .next
      (s.polled { s.fr with raw := s.fr.raw.write 0 s.nextByte, cursor := 1 }))

/-- O33. R84: the byte at cursor 1. A valid sync pair connects, arms the watchdog and emits `ARM(WD_TIMEOUT_MS)`. -/
def Obligations.PollReadsSync2 : Prop :=
  ∀ s : State, s.takesByte → s.fr.cursor = 1 →
    (s.nextByte ≠ s.params.sync2 → exec .poll s = .next
      { s.polled { s.fr with fstate := .idle, feCnt := s.params.satInc s.fr.feCnt } with
        history := s.history ++ [.cond (.sync2Mismatch s.nextByte)] }) ∧
    (s.nextByte = s.params.sync2 → 1 < s.params.rawCap → exec .poll s = .next
      { s.polled { s.fr with raw := s.fr.raw.write 1 s.nextByte, cursor := 2 } with
        conn := ⟨true, true⟩
        history := s.history ++ [.arm s.params.wdTimeoutMs] })

/-- O34. R82, R85, R86, R87: the class, id and low length bytes, each stored, summed and kept. Under another
`CK_FN` the sums stay as they are (log entry 3). -/
def Obligations.PollReadsHeader : Prop :=
  ∀ s : State, s.takesByte →
    (s.fr.cursor = 2 → 2 < s.params.rawCap → exec .poll s = .next (s.polled { s.fr with
      raw := s.fr.raw.write 2 s.nextByte, cls := s.nextByte, cursor := 3
      ckA := (s.fr.sumsWith s.params s.nextByte).1, ckB := (s.fr.sumsWith s.params s.nextByte).2 })) ∧
    (s.fr.cursor = 3 → 3 < s.params.rawCap → exec .poll s = .next (s.polled { s.fr with
      raw := s.fr.raw.write 3 s.nextByte, id := s.nextByte, cursor := 4
      ckA := (s.fr.sumsWith s.params s.nextByte).1, ckB := (s.fr.sumsWith s.params s.nextByte).2 })) ∧
    (s.fr.cursor = 4 → 4 < s.params.rawCap → exec .poll s = .next (s.polled { s.fr with
      raw := s.fr.raw.write 4 s.nextByte, plen := s.nextByte.setWidth 16, cursor := 5
      ckA := (s.fr.sumsWith s.params s.nextByte).1, ckB := (s.fr.sumsWith s.params s.nextByte).2 }))

/-- O35. R88 (R22, R36): the high length byte completes `plen = {b, plen[7:0]}`; a frame with
`plen + HDR_LEN + CK_LEN > RAW_CAP`, summed without wrap, is abandoned and counted. That R88's 8 is this sum in every
configuration is log entry 5. Under another `CK_FN` the sums stay as they are (log entry 3). -/
def Obligations.PollBoundsLength : Prop :=
  ∀ (s : State) (fr : Framer), s.takesByte → s.fr.cursor = 5 → 5 < s.params.rawCap →
    fr = { s.fr with
      raw := s.fr.raw.write 5 s.nextByte, plen := s.nextByte ++ s.fr.plen.extractLsb' 0 8, cursor := 6
      ckA := (s.fr.sumsWith s.params s.nextByte).1, ckB := (s.fr.sumsWith s.params s.nextByte).2 } →
    (s.params.rawCap < fr.plen.toNat + s.params.hdrLen + s.params.ckLen → exec .poll s = .next
      { s.polled { fr with fstate := .idle, feCnt := s.params.satInc s.fr.feCnt } with
        history := s.history ++ [.cond (.oversize fr.plen)] }) ∧
    (fr.plen.toNat + s.params.hdrLen + s.params.ckLen ≤ s.params.rawCap → exec .poll s = .next (s.polled fr))

/-- O36. R89: a byte at cursor 6 or more that is not the frame's last is stored at its index, and summed if that index is at
most `total − 3`. Under another `CK_FN` the sums stay as they are (log entry 3). -/
def Obligations.PollReadsBody : Prop :=
  ∀ (s : State) (c : Nat), s.takesByte → s.fr.cursor.toNat = c → 6 ≤ c → c < s.params.rawCap →
    c + 1 ≠ total s.params s.fr.plen →
    (c + 3 ≤ total s.params s.fr.plen → exec .poll s = .next (s.polled { s.fr with
      raw := s.fr.raw.write c s.nextByte, cursor := BitVec.ofNat 8 (c + 1)
      ckA := (s.fr.sumsWith s.params s.nextByte).1, ckB := (s.fr.sumsWith s.params s.nextByte).2 })) ∧
    (total s.params s.fr.plen < c + 3 → exec .poll s = .next (s.polled { s.fr with
      raw := s.fr.raw.write c s.nextByte, cursor := BitVec.ofNat 8 (c + 1) }))

/-- O37. R90: the frame's last byte. The verdict compares the two checksum bytes with the expected ones; a bad frame is
counted under both policies, and is discarded under `REJECT`, parsed under `ACCEPT`. -/
def Obligations.PollCompletesFrame : Prop :=
  ∀ (s : State) (c : Nat) (fr : Framer), s.takesByte → s.fr.cursor.toNat = c → 6 ≤ c →
    c < s.params.rawCap → c + 1 = total s.params s.fr.plen →
    fr = { s.fr with raw := s.fr.raw.write c s.nextByte, cursor := BitVec.ofNat 8 (c + 1) } →
    ((s.fr.raw.read (c - 1), s.nextByte) = s.fr.ckExpected s.params → exec .poll s = .next
      (s.polled { fr with lastCkValid := true, frameReady := true, fstate := .parsing, pcur := 0 })) ∧
    ((s.fr.raw.read (c - 1), s.nextByte) ≠ s.fr.ckExpected s.params → s.params.ckPolicy = .reject →
      exec .poll s = .next
        { s.polled { fr with
            lastCkValid := false, ckErrCnt := s.params.satInc s.fr.ckErrCnt, fstate := .idle } with
          history := s.history ++ [.cond (.ckMismatch s.fr.cls s.fr.id)] }) ∧
    ((s.fr.raw.read (c - 1), s.nextByte) ≠ s.fr.ckExpected s.params → s.params.ckPolicy = .accept →
      exec .poll s = .next
        { s.polled { fr with
            lastCkValid := false, ckErrCnt := s.params.satInc s.fr.ckErrCnt
            frameReady := true, fstate := .parsing, pcur := 0 } with
          history := s.history ++ [.cond (.ckMismatch s.fr.cls s.fr.id)] })

/-- O38. R91, R98, R100, R101, R102: a poll in Parsing finishes the frame, skips an unknown message's payload, skips
`SKIP_W` bytes, or passes over a field that does not fit. None of these writes telemetry or reads `RB_RX`. -/
def Obligations.PollParsesWithoutDecoding : Prop :=
  ∀ s : State, s.inv → s.port = .host → s.fr.fstate = .parsing →
    (s.fr.plen.toNat ≤ s.fr.pcur.toNat → exec .poll s = .next { s with
      fr := { s.fr with frameReady := false, fstate := .idle }, resp := some ⟨true, 0⟩ }) ∧
    (s.fr.pcur.toNat < s.fr.plen.toNat → known s.fr.cls s.fr.id = false → exec .poll s = .next { s with
      fr := { s.fr with pcur := s.fr.plen.setWidth 8 }
      history := s.history ++ [.cond (.unknownMessage s.fr.cls s.fr.id)]
      resp := some ⟨true, 0⟩ }) ∧
    (s.fr.pcur.toNat < s.fr.plen.toNat → known s.fr.cls s.fr.id = true →
      entry s.fr.cls s.fr.id s.fr.pcur.toNat = none → exec .poll s = .next { s with
        fr := { s.fr with pcur := s.fr.pcur + BitVec.ofNat 8 s.params.skipW }, resp := some ⟨true, 0⟩ }) ∧
    (∀ row, s.fr.pcur.toNat < s.fr.plen.toNat → entry s.fr.cls s.fr.id s.fr.pcur.toNat = some row →
      s.fr.plen.toNat < s.fr.pcur.toNat + row.width.bytes → exec .poll s = .next { s with
        fr := { s.fr with pcur := s.fr.pcur + BitVec.ofNat 8 row.width.bytes }, resp := some ⟨true, 0⟩ })

/-- O39. R37, R98, R99: a poll in Parsing at a listed offset whose field fits writes that one telemetry register from the
payload, little-endian, sets `has_position` where the row says so, and moves the parse cursor past the field. -/
def Obligations.PollDecodesField : Prop :=
  ∀ (s : State) (row : FieldRow) (o : Nat), s.inv → s.port = .host → s.fr.fstate = .parsing →
    s.fr.pcur.toNat = o → entry s.fr.cls s.fr.id o = some row → o + row.width.bytes ≤ s.fr.plen.toNat →
    ∃ t, exec .poll s = .next t ∧
      (row.width = .four → t.tel.value row.dest =
        s.fr.raw.read (s.params.hdrLen + o + 3) ++ s.fr.raw.read (s.params.hdrLen + o + 2) ++
          s.fr.raw.read (s.params.hdrLen + o + 1) ++ s.fr.raw.read (s.params.hdrLen + o)) ∧
      (row.width = .one → t.tel.value row.dest = (s.fr.raw.read (s.params.hdrLen + o)).setWidth 32) ∧
      (∀ d, d ≠ row.dest → t.tel.value d = s.tel.value d) ∧
      (t.tel.hasPosition = true ↔ s.tel.hasPosition = true ∨ row.setsPosition = true) ∧
      t = { s with
        fr := { s.fr with pcur := BitVec.ofNat 8 (o + row.width.bytes) }
        tel := t.tel
        resp := some ⟨true, 0⟩ }

/-- O40. R62, R97: the field table, row for row, and the known messages. -/
def Obligations.FieldTableRows : Prop :=
  (∀ (cls id : Byte) (o : Nat) (row : FieldRow), entry cls id o = some row ↔
    row.cls = cls ∧ row.id = id ∧ row.offset = o ∧
    (row = ⟨0x01, 0x02, 4, .four, .lon, false⟩ ∨ row = ⟨0x01, 0x02, 8, .four, .lat, false⟩ ∨
      row = ⟨0x01, 0x02, 16, .four, .alt, true⟩ ∨ row = ⟨0x01, 0x03, 4, .one, .fixStatus, false⟩ ∨
      row = ⟨0x01, 0x12, 4, .four, .velN, false⟩ ∨ row = ⟨0x01, 0x12, 8, .four, .velE, false⟩ ∨
      row = ⟨0x01, 0x12, 24, .four, .heading, false⟩)) ∧
  (∀ cls id : Byte, known cls id = true ↔ cls = 0x01 ∧ (id = 0x02 ∨ id = 0x03 ∨ id = 0x12))

/-- O41. R92: a poll completes in one step; it pops at most one byte, writes at most one `raw` byte (the one at the cursor),
decodes at most one field, and raises at most one condition; and it touches neither the ring's storage, `RB_TX` nor the
parameters. -/
def Obligations.PollWorkIsBounded : Prop :=
  (∀ s : State, s.inv → ∃ t, exec .poll s = .next t) ∧
  ∀ s t : State, s.port = .host → exec .poll s = .next t →
    (t.rx = s.rx ∨ (s.rx.occ s.params.rxN ≠ 0 ∧ t.rx = { s.rx with head := (s.rx.head + 1) % s.params.rxN })) ∧
    (∀ a, a ≠ s.fr.cursor.toNat → t.fr.raw.read a = s.fr.raw.read a) ∧
    (∃ d, ∀ d', d' ≠ d → t.tel.value d' = s.tel.value d') ∧
    (∃ es, t.history = s.history ++ es ∧ es.countP Event.isCondition ≤ 1) ∧
    t.tx = s.tx ∧ t.params = s.params ∧ t.port = s.port ∧ t.input = s.input

/-- O42. R139: a poll in a quiescent state changes nothing but the response. -/
def Obligations.QuiescentPollChangesNothing : Prop :=
  ∀ s : State, s.params.wf = true → s.port = .host → s.quiescent = true →
    exec .poll s = .next { s with resp := some ⟨true, 0⟩ }

/-! ### Whole-machine rules -/

/-- O43. R27, in a configuration of R9 whose frames end (log entry 5): every step keeps the invariant. -/
def Obligations.StepKeepsInvariant : Prop :=
  ∀ s t : State, s.inv → step s = .next t → t.inv

/-- O44. R109: from a state of the invariant, whatever the input, the block never faults and is never refused. -/
def Obligations.BlockNeverStops : Prop :=
  ∀ s : State, s.inv → ∃ t, step s = .next t

/-- O45. R82 to R90: every step keeps the agreement of the framer's registers, sums and verdict with the bytes of the frame
in `raw`. R82 says that the sums cover the frame indices 2 to `total − 3`; with `HDR_LEN + CK_LEN` below 8, which R9 allows and
R22's range 8 to 65543 does not, an empty frame ends before the last byte that R88 sums, and no agreement is claimed (log
entry 5). -/
def Obligations.StepKeepsFrameAgreement : Prop :=
  ∀ s t : State, s.inv → 8 ≤ s.params.hdrLen + s.params.ckLen → s.frameInv → step s = .next t → t.frameInv

/-- O46. R29, R104: a telemetry register changes only by RESET, or by a host `POLL` in Parsing at a listed offset of the
current message whose field fits the payload and whose destination it is; `has_position` is set only by such a poll at a
row that sets it, and is cleared only by RESET. -/
def Obligations.TelemetryWrittenOnlyByDecoder : Prop :=
  ∀ (s t : State), step s = .next t → (∀ lost rest, s.input ≠ .reset lost :: rest) →
    (∀ d, t.tel.value d ≠ s.tel.value d →
      (∃ rest, s.input = .cmd ⟨.host, 0x6000⟩ :: rest) ∧ s.fr.fstate = .parsing ∧
      ∃ row, entry s.fr.cls s.fr.id s.fr.pcur.toNat = some row ∧ row.dest = d ∧
        s.fr.pcur.toNat + row.width.bytes ≤ s.fr.plen.toNat) ∧
    (s.tel.hasPosition = false → t.tel.hasPosition = true →
      (∃ rest, s.input = .cmd ⟨.host, 0x6000⟩ :: rest) ∧ s.fr.fstate = .parsing ∧
      ∃ row, entry s.fr.cls s.fr.id s.fr.pcur.toNat = some row ∧ row.setsPosition = true ∧
        s.fr.pcur.toNat + row.width.bytes ≤ s.fr.plen.toNat) ∧
    (s.tel.hasPosition = true → t.tel.hasPosition = true)

/-- O47. R90, R94: under `REJECT`, telemetry is written only from a frame whose two last bytes are the checksum of its own
bytes. -/
def Obligations.RejectedFramesWriteNoTelemetry : Prop :=
  ∀ s t : State, s.inv → s.frameInv → s.params.ckPolicy = .reject → step s = .next t →
    (∀ lost rest, s.input ≠ .reset lost :: rest) → t.tel ≠ s.tel →
    s.fr.checksumHolds s.params ∧ s.fr.agrees s.params

/-- O48. R28, R84, R107: every step keeps `connected` and `wd_armed` at what the history's last arm or expiry says. -/
def Obligations.StepKeepsLinkHistory : Prop :=
  ∀ s t : State, s.linkInv → step s = .next t → t.linkInv

/-- O49. R26, R110: every step keeps `fe_cnt` and `ck_err_cnt` at the number of framing errors and checksum mismatches in
the history, saturating. -/
def Obligations.StepKeepsErrorCounts : Prop :=
  ∀ s t : State, s.countInv → step s = .next t → t.countInv

/-- O50. R84, R107, R119: `connected` is set only by a host `POLL` that reads the second sync byte, which then also arms the
watchdog and emits `ARM`; it is cleared only by RESET or by a `WDEXP` of the timer while armed. -/
def Obligations.ConnectionChangesOnlyBySyncOrExpiry : Prop :=
  ∀ s t : State, step s = .next t →
    (s.conn.connected = false → t.conn.connected = true →
      (∃ rest, s.input = .cmd ⟨.host, 0x6000⟩ :: rest) ∧ s.fr.fstate = .reading ∧ s.fr.cursor = 1 ∧
      s.nextByte = s.params.sync2 ∧ t.conn.wdArmed = true ∧
      t.history = s.history ++ [.arm s.params.wdTimeoutMs]) ∧
    (s.conn.connected = true → t.conn.connected = false →
      (∃ lost rest, s.input = .reset lost :: rest) ∨
      ((∃ rest, s.input = .cmd ⟨.timer, 0x8000⟩ :: rest) ∧ s.conn.wdArmed = true ∧ t.conn.wdArmed = false ∧
        t.history = s.history ++ [.cond .disconnected]))

/-- O51. R113: a command appends to the history at most one event: `PUSH` only its overflow, `WDEXP` only `DISCONNECTED`, an
illegal command only (and always) `ILLEGAL_COMMAND`, `POLL` only `ARM` or one of its own conditions (R79, R110), every other
command none. -/
def Obligations.OneConditionPerCommand : Prop :=
  ∀ (s t : State) (c : Command) (rest : List Input), s.input = .cmd c :: rest → step s = .next t →
    ∃ es : List Event, t.history = s.history ++ es ∧ es.length ≤ 1 ∧
      ((illegalFields c.word ∨ ∃ i, decode c.word = .ok i ∧ c.port ≠ i.port) →
        es = [.cond (.illegalCommand c.port c.word)]) ∧
      (∀ i, decode c.word = .ok i → c.port = i.port →
        (∀ b, i = .pushRx b → es = [] ∨ es = [.cond (.rxOverflow b)]) ∧
        (∀ b, i = .pushTx b → es = [] ∨ es = [.cond (.txOverflow b)]) ∧
        (i = .wdexp → es = [] ∨ es = [.cond .disconnected]) ∧
        (i = .poll → ∀ e ∈ es, e.ofPoll s.params) ∧
        ((∀ b, i ≠ .pushRx b ∧ i ≠ .pushTx b) → i ≠ .wdexp → i ≠ .poll → es = []))

/-- O52. R34: the history is observation state. With another history a step does the same, and appends the same events to
it; RESET forgets it. -/
def Obligations.HistoryIsObservationOnly : Prop :=
  ∀ (s t : State) (h : List Event), step s = .next t →
    ((∃ lost rest, s.input = .reset lost :: rest) ∧ step { s with history := h } = .next t) ∨
    ∃ es, t.history = s.history ++ es ∧
      step { s with history := h } = .next { t with history := h ++ es }

/-- O53. R18, R80: stale bytes are never seen. Of two states that differ only in ring slots outside the queues and in `raw`
bytes that the current frame has not written, each step gives the same response and again two such states. -/
def Obligations.StaleBytesAreUnobservable : Prop :=
  ∀ s t s' : State, s.sameLive t → step s = .next s' →
    ∃ t', step t = .next t' ∧ s'.sameLive t' ∧ s'.resp = t'.resp

/-- O54. R93, R103: an accepted frame takes `T + G + 2` polls. From Idle with a whole frame at the front of `RB_RX`, that
many polls read it, parse it and end in Idle with exactly its bytes consumed, and no earlier poll does. -/
def Obligations.AcceptedFramePollCount : Prop :=
  ∀ (s : State) (f : Frame) (rest : List Byte), s.inv → s.fr.fstate = .idle → f.fits s.params = true →
    s.rx.queue s.params.rxN = f.bytes s.params ++ rest →
    (∃ t, polls (f.polls s.params) s = some t ∧ t.fr.fstate = .idle ∧ t.rx.queue s.params.rxN = rest ∧
      t.fr.lastCkValid = true ∧ t.fr.cls = f.cls ∧ t.fr.id = f.id ∧ t.fr.plen = f.plen ∧
      t.conn = ⟨true, true⟩ ∧ t.fr.feCnt = s.fr.feCnt ∧ t.fr.ckErrCnt = s.fr.ckErrCnt) ∧
    (∀ k, 0 < k → k < f.polls s.params → ∃ t, polls k s = some t ∧ t.fr.fstate ≠ .idle)

/-- O55. R105, and R100 for the other skip widths that reach every listed offset: a position frame of at least 20 payload
bytes, polled to its end, leaves its longitude, latitude and altitude in the registers, sets `has_position`, and leaves
every other telemetry register as it was (R104). -/
def Obligations.PositionFrameRoundTrip : Prop :=
  ∀ (s : State) (f : Frame) (rest before gap after : List Byte) (x0 x1 x2 x3 y0 y1 y2 y3 z0 z1 z2 z3 : Byte),
    s.inv → s.fr.fstate = .idle → s.params.skipW ≠ 3 → f.fits s.params = true →
    f.cls = 0x01 → f.id = 0x02 → before.length = 4 → gap.length = 4 →
    f.payload = before ++ [x0, x1, x2, x3] ++ [y0, y1, y2, y3] ++ gap ++ [z0, z1, z2, z3] ++ after →
    s.rx.queue s.params.rxN = f.bytes s.params ++ rest →
    ∃ t, polls (f.polls s.params) s = some t ∧ t.tel = { s.tel with
      lon := x3 ++ x2 ++ x1 ++ x0, lat := y3 ++ y2 ++ y1 ++ y0, alt := z3 ++ z2 ++ z1 ++ z0
      hasPosition := true }

/-- O56. The model's own fault (log entry 11): an index outside its store stops the command by name. Rings reach it only
outside R27; `raw` is reached outside R27, or where `HDR_LEN + CK_LEN` is below 7 (log entry 5). -/
def Obligations.IndexOutsideStoreFaults : Prop :=
  ∀ s : State, s.params.wf = true →
    (∀ q b, s.port = (pushOf q b).port → (s.ring q).occ (s.params.slots q) ≠ s.params.slots q - 1 →
      s.params.slots q ≤ (s.ring q).tail →
      exec (pushOf q b) s = .fault (.noSuchIndex (.ring q) (s.ring q).tail)) ∧
    (s.port = .serTx → s.tx.occ s.params.txN ≠ 0 → s.params.txN ≤ s.tx.head →
      exec .popTx s = .fault (.noSuchIndex (.ring .tx) s.tx.head)) ∧
    (s.port = .host → s.fr.fstate = .reading → s.fr.frameReady = false → s.rx.occ s.params.rxN ≠ 0 →
      s.params.rxN ≤ s.rx.head → exec .poll s = .fault (.noSuchIndex (.ring .rx) s.rx.head)) ∧
    (s.takesByte → (s.fr.cursor = 0 → s.nextByte = s.params.sync1) →
      (s.fr.cursor = 1 → s.nextByte = s.params.sync2) → s.params.rawCap ≤ s.fr.cursor.toNat →
      exec .poll s = .fault (.noSuchIndex .raw s.fr.cursor.toNat)) ∧
    (∀ row, s.port = .host → s.fr.fstate = .parsing →
      entry s.fr.cls s.fr.id s.fr.pcur.toNat = some row →
      s.fr.pcur.toNat + row.width.bytes ≤ s.fr.plen.toNat →
      s.params.rawCap < s.params.hdrLen + s.fr.pcur.toNat + row.width.bytes →
      exec .poll s = .fault (.noSuchIndex .raw (max s.params.rawCap (s.params.hdrLen + s.fr.pcur.toNat))))

/-- O57. R98, in every state, of R27 or not: a group that decodes nothing moves the parse cursor on and the poll completes.
Where the new offset does not fit in 8 bits, which no rule truncates, the cursor's value is left free (log entry 12). -/
def Obligations.ParsingMovesOnInEveryState : Prop :=
  ∀ s : State, s.params.wf = true → s.port = .host → s.fr.fstate = .parsing →
    s.fr.pcur.toNat < s.fr.plen.toNat →
    (known s.fr.cls s.fr.id = false → ∃ v : BitVec 8,
      exec .poll s = .next { s with
        fr := { s.fr with pcur := v }
        history := s.history ++ [.cond (.unknownMessage s.fr.cls s.fr.id)]
        resp := some ⟨true, 0⟩ } ∧
      (s.fr.plen.toNat < 256 → v.toNat = s.fr.plen.toNat)) ∧
    (known s.fr.cls s.fr.id = true → entry s.fr.cls s.fr.id s.fr.pcur.toNat = none → ∃ v : BitVec 8,
      exec .poll s = .next { s with fr := { s.fr with pcur := v }, resp := some ⟨true, 0⟩ } ∧
      (s.fr.pcur.toNat + s.params.skipW < 256 → v.toNat = s.fr.pcur.toNat + s.params.skipW)) ∧
    (∀ row, entry s.fr.cls s.fr.id s.fr.pcur.toNat = some row →
      s.fr.plen.toNat < s.fr.pcur.toNat + row.width.bytes → ∃ v : BitVec 8,
      exec .poll s = .next { s with fr := { s.fr with pcur := v }, resp := some ⟨true, 0⟩ } ∧
      (s.fr.pcur.toNat + row.width.bytes < 256 → v.toNat = s.fr.pcur.toNat + row.width.bytes))

/-- O58. With its rings in range no command stops but `POLL`, and that only for an index outside `raw` (log entry 11). -/
def Obligations.OnlyRawIndexFaults : Prop :=
  ∀ (i : Instr) (s : State) (f : Fault), s.params.wf = true → s.rx.inv s.params .rx → s.tx.inv s.params .tx →
    exec i s = .fault f → i = .poll ∧ ∃ k, f = .noSuchIndex .raw k ∧ s.params.rawCap ≤ k
end

