-- ==== Sys2Proof/Laws/Decode.lean ====
section
/-! SUPPORT. A command word and its three fields (R53): each determines the other. -/

namespace Sys2Proof

/-- A bit of a command word is a bit of one of its fields. -/
theorem commandWord_getLsbD (op sel : BitVec 4) (imm : Byte) (i : Nat) :
    (commandWord op sel imm).getLsbD i =
      if i < 8 then imm.getLsbD i else if i - 8 < 4 then sel.getLsbD (i - 8) else op.getLsbD (i - 8 - 4) := by
  refine (BitVec.getLsbD_append (x := op ++ sel) (y := imm) (i := i)).trans ?_
  rw [BitVec.getLsbD_append (x := op) (y := sel) (i := i - 8)]

@[simp] theorem commandWord_op (op sel : BitVec 4) (imm : Byte) : (commandWord op sel imm).op = op := by
  refine BitVec.eq_of_getLsbD_eq fun i hi => ?_
  simp only [Word.op, BitVec.getLsbD_extractLsb', commandWord_getLsbD, hi, decide_true, Bool.true_and]
  rw [if_neg (by omega), if_neg (by omega)]
  congr 1
  omega

@[simp] theorem commandWord_sel (op sel : BitVec 4) (imm : Byte) : (commandWord op sel imm).sel = sel := by
  refine BitVec.eq_of_getLsbD_eq fun i hi => ?_
  simp only [Word.sel, BitVec.getLsbD_extractLsb', commandWord_getLsbD, hi, decide_true, Bool.true_and]
  rw [if_neg (by omega), if_pos (by omega)]
  congr 1
  omega

@[simp] theorem commandWord_imm (op sel : BitVec 4) (imm : Byte) : (commandWord op sel imm).imm = imm := by
  refine BitVec.eq_of_getLsbD_eq fun i hi => ?_
  simp only [Word.imm, BitVec.getLsbD_extractLsb', commandWord_getLsbD, hi, decide_true, Bool.true_and]
  rw [if_pos (by omega)]
  congr 1
  omega

/-- A word is its fields put together. -/
theorem commandWord_fields (w : Word) : commandWord w.op w.sel w.imm = w := by
  refine BitVec.eq_of_getLsbD_eq fun i hi => ?_
  simp only [commandWord_getLsbD, Word.op, Word.sel, Word.imm, BitVec.getLsbD_extractLsb']
  split
  · simp [*]
  · split
    · rw [show 8 + (i - 8) = i by omega]
      simp [*]
    · rw [show 12 + (i - 8 - 4) = i by omega, show (decide (i - 8 - 4 < 4)) = true from decide_eq_true (by omega)]
      simp

end Sys2Proof
end

