-- ==== Sys2Proof/Laws/Memory.lean ====
section
/-! SUPPORT. The laws of byte storage: read after write, the canonical form, and that equal contents are equal data. -/

namespace Sys2Proof.Machine

@[simp] theorem Memory.read_nil (a : Nat) : Memory.read [] a = emptyByte := rfl

theorem Memory.read_cons (c : Host.Cell) (m : Memory) (a : Nat) :
    Memory.read (c :: m) a = if a = c.1 then c.2 else Memory.read m a := rfl

theorem Memory.read_eq_empty {m : Memory} {a : Nat} (h : ∀ c ∈ m, c.1 ≠ a) : m.read a = emptyByte := by
  induction m with
  | nil => rfl
  | cons c m ih =>
    rw [read_cons, if_neg fun e => h c (by simp) e.symm, ih fun d hd => h d (by simp [hd])]

/-- Erasing an index leaves every other byte, and the erased one reads as never written. -/
theorem Memory.read_erase (m : Memory) (a x : Nat) :
    (m.erase a).read x = if x = a then emptyByte else m.read x := by
  induction m with
  | nil => simp [erase]
  | cons c m ih =>
    simp only [erase] at ih ⊢
    by_cases hc : c.1 = a
    · rw [List.filter_cons_of_neg (by simp [hc]), ih, read_cons]
      split <;> rename_i h
      · rfl
      · rw [if_neg (by omega)]
    · rw [List.filter_cons_of_pos (by simp [hc]), read_cons, read_cons, ih]
      split
      · rw [if_neg (by omega)]
      · rfl

theorem Memory.read_insert (m : Memory) (a : Nat) (b : Byte) (h : ∀ c ∈ m, c.1 ≠ a) (x : Nat) :
    (Memory.insert m a b).read x = if x = a then b else m.read x := by
  induction m with
  | nil => simp [insert, read]
  | cons c m ih =>
    simp only [insert]
    split
    · simp [read_cons]
    · rw [read_cons, read_cons, ih fun d hd => h d (by simp [hd])]
      have := h c (by simp)
      split
      · rw [if_neg (by omega)]
      · rfl

theorem Memory.mem_erase {m : Memory} {a : Nat} {c : Host.Cell} : c ∈ m.erase a ↔ c ∈ m ∧ c.1 ≠ a := by
  simp [erase]

theorem Memory.mem_insert {m : Memory} {a : Nat} {b : Byte} {c : Host.Cell} :
    c ∈ Memory.insert m a b ↔ c = (a, b) ∨ c ∈ m := by
  induction m with
  | nil => simp [insert]
  | cons d m ih =>
    simp only [insert]
    split
    · simp
    · simp [ih]; tauto

/-- Read after write, for any store. -/
@[simp] theorem Memory.read_write (m : Memory) (a : Nat) (b : Byte) (x : Nat) :
    (m.write a b).read x = if x = a then b else m.read x := by
  unfold write
  split
  · next h => rw [read_erase, h]
  · rw [read_insert _ _ _ (fun c hc => (mem_erase.1 hc).2), read_erase]
    split <;> rfl

theorem Memory.mem_write {m : Memory} {a : Nat} {b : Byte} {c : Host.Cell} (h : c ∈ m.write a b) :
    c = (a, b) ∧ b ≠ emptyByte ∨ c ∈ m := by
  unfold write at h
  split at h
  · exact .inr (mem_erase.1 h).1
  · next hb =>
    rcases mem_insert.1 h with h | h
    · exact .inl ⟨h, hb⟩
    · exact .inr (mem_erase.1 h).1

theorem Memory.pairwise_insert {m : Memory} {a : Nat} {b : Byte} (hs : m.Pairwise fun c d => c.1 < d.1)
    (hn : ∀ c ∈ m, c.1 ≠ a) : (Memory.insert m a b).Pairwise fun c d => c.1 < d.1 := by
  induction m with
  | nil => simp [insert]
  | cons c m ih =>
    rw [List.pairwise_cons] at hs
    simp only [insert]
    split
    · next h =>
      refine List.pairwise_cons.2 ⟨?_, List.pairwise_cons.2 hs⟩
      intro d hd
      rcases List.mem_cons.1 hd with rfl | hd
      · exact h
      · exact lt_trans h (hs.1 d hd)
    · next h =>
      have hc := hn c (by simp)
      refine List.pairwise_cons.2 ⟨?_, ih hs.2 fun d hd => hn d (by simp [hd])⟩
      intro d hd
      rcases mem_insert.1 hd with rfl | hd
      · show c.1 < a
        omega
      · exact hs.1 d hd

/-- A write keeps the canonical form. -/
theorem Memory.wf_write {m : Memory} (h : m.wf) (a : Nat) (b : Byte) : (m.write a b).wf := by
  refine ⟨?_, ?_⟩
  · unfold write
    split
    · exact h.1.filter _
    · exact pairwise_insert (h.1.filter _) fun c hc => (mem_erase.1 hc).2
  · intro c hc
    rcases mem_write hc with ⟨rfl, hb⟩ | hc
    · exact hb
    · exact h.2 c hc

theorem Memory.within_write {m : Memory} {n : Nat} (h : m.within n) {a : Nat} (ha : a < n) (b : Byte) :
    (m.write a b).within n := by
  intro c hc
  rcases mem_write hc with ⟨rfl, -⟩ | hc
  · exact ha
  · exact h c hc

@[simp] theorem Memory.read_zero (m : Memory) (n x : Nat) :
    (m.zero n).read x = if x < n then 0x00 else m.read x := by
  induction n with
  | zero => simp [zero]
  | succ n ih =>
    rw [zero, read_write, ih]
    by_cases h : x = n
    · simp [h]
    · by_cases h' : x < n
      · simp [h, h', Nat.lt_succ_of_lt h']
      · rw [if_neg h, if_neg h', if_neg (by omega)]

/-- Zeroing keeps the canonical form. -/
theorem Memory.wf_zero {m : Memory} (h : m.wf) (n : Nat) : (m.zero n).wf := by
  induction n with
  | zero => exact h
  | succ n ih => exact wf_write ih n _

theorem Memory.mem_zero {m : Memory} {n : Nat} {c : Host.Cell} (h : c ∈ m.zero n) : c ∈ m ∧ n ≤ c.1 := by
  induction n with
  | zero => exact ⟨h, Nat.zero_le _⟩
  | succ n ih =>
    rw [zero, write, if_pos (show (0x00 : Byte) = emptyByte from rfl)] at h
    obtain ⟨h1, h2⟩ := mem_erase.1 h
    have := ih h1
    exact ⟨this.1, by omega⟩

/-- A whole space zeroed lists nothing. -/
theorem Memory.zero_eq_nil {m : Memory} {n : Nat} (h : m.within n) : m.zero n = [] := by
  refine List.eq_nil_iff_forall_not_mem.2 fun c hc => ?_
  have := mem_zero hc
  have := h c this.1
  omega

/-- A listed byte is the byte read. -/
theorem Memory.read_of_mem {m : Memory} (h : m.wf) {c : Host.Cell} (hc : c ∈ m) : m.read c.1 = c.2 := by
  induction m with
  | nil => cases hc
  | cons d m ih =>
    obtain ⟨hs, hz⟩ := h
    rw [List.pairwise_cons] at hs
    rw [read_cons]
    rcases List.mem_cons.1 hc with rfl | hc
    · rw [if_pos rfl]
    · rw [if_neg (by have := hs.1 c hc; omega)]
      exact ih ⟨hs.2, fun e he => hz e (by simp [he])⟩ hc

/-- Canonical stores with the same bytes are the same data. -/
theorem Memory.ext_of_read {m m' : Memory} (h : m.wf) (h' : m'.wf) (hr : ∀ a, m.read a = m'.read a) :
    m = m' := by
  have key : ∀ {m m' : Memory}, m.wf → m'.wf → (∀ a, m.read a = m'.read a) → ∀ c ∈ m, c ∈ m' := by
    intro m m' h h' hr c hc
    by_contra hn
    have hv : m'.read c.1 = c.2 := by rw [← hr, read_of_mem h hc]
    by_cases hk : ∃ d ∈ m', d.1 = c.1
    · obtain ⟨d, hd, hdc⟩ := hk
      have := read_of_mem h' hd
      rw [hdc, hv] at this
      exact hn (by rwa [show c = d from Prod.ext hdc.symm this])
    · rw [read_eq_empty fun d hd e => hk ⟨d, hd, e⟩] at hv
      exact h.2 c hc hv.symm
  refine List.Perm.eq_of_pairwise (le := fun c d : Host.Cell => c.1 < d.1) ?_ h.1 h'.1 ?_
  · intro a b _ _ hab hba
    exact absurd hab (by omega)
  · refine (List.perm_ext_iff_of_nodup ?_ ?_).2 fun c => ⟨key h h' hr c, key h' h (fun a => (hr a).symm) c⟩
    · exact h.1.imp fun hlt heq => by rw [heq] at hlt; omega
    · exact h'.1.imp fun hlt heq => by rw [heq] at hlt; omega

/-- What a load can do. -/
theorem Memory.load_ok {sp : Space} {n : Nat} {m : Memory} {i : Nat} {b : Byte} :
    m.load sp n i = .ok b ↔ i < n ∧ b = m.read i := by
  unfold load
  split
  · simp [*, eq_comm]
  · simp [*]

theorem Memory.load_of_lt {sp : Space} {n : Nat} {m : Memory} {i : Nat} (h : i < n) :
    m.load sp n i = .ok (m.read i) := by simp [load, h]

/-- What a store can do. -/
theorem Memory.store_ok {sp : Space} {n : Nat} {m m' : Memory} {i : Nat} {b : Byte} :
    m.store sp n i b = .ok m' ↔ i < n ∧ m' = m.write i b := by
  unfold store
  split
  · simp [*, eq_comm]
  · simp [*]

theorem Memory.store_of_lt {sp : Space} {n : Nat} {m : Memory} {i : Nat} {b : Byte} (h : i < n) :
    m.store sp n i b = .ok (m.write i b) := by simp [store, h]

/-- What a range load can do: the bytes in order, each within the space. -/
theorem Memory.loadRange_ok {sp : Space} {n : Nat} {m : Memory} {i k : Nat} {bs : List Byte}
    (h : m.loadRange sp n i k = .ok bs) :
    (k ≠ 0 → i + k ≤ n) ∧ bs = (List.range k).map fun j => m.read (i + j) := by
  induction k generalizing i bs with
  | zero => simp_all [loadRange]
  | succ k ih =>
    rw [loadRange] at h
    split at h
    · next b bs' hb hbs =>
      obtain ⟨h1, h2⟩ := ih hbs
      obtain ⟨h3, rfl⟩ := load_ok.1 hb
      cases h
      refine ⟨fun _ => ?_, ?_⟩
      · by_cases hk : k = 0
        · omega
        · have := h1 hk; omega
      · rw [List.range_succ_eq_map, List.map_cons, List.map_map, h2]
        simp [Function.comp_def, Nat.add_assoc, Nat.add_comm 1]
    · cases h
    · cases h

theorem Memory.loadRange_of_le {sp : Space} {n : Nat} {m : Memory} {i k : Nat} (h : i + k ≤ n) :
    m.loadRange sp n i k = .ok ((List.range k).map fun j => m.read (i + j)) := by
  induction k generalizing i with
  | zero => rfl
  | succ k ih =>
    rw [loadRange, load_of_lt (by omega), ih (by omega), List.range_succ_eq_map, List.map_cons, List.map_map]
    simp [Function.comp_def, Nat.add_assoc, Nat.add_comm 1]

end Sys2Proof.Machine
end

