-- ==== Sys2Proof/Laws/State.lean ====
section
/-! SUPPORT. One lemma per field per update of the state, each true by unfolding the update once. -/

namespace Sys2Proof.Machine

@[simp] theorem State.setFr_params (s : State) (fr : Framer) :
    (s.setFr fr).params = s.params := rfl
@[simp] theorem State.setFr_rx (s : State) (fr : Framer) :
    (s.setFr fr).rx = s.rx := rfl
@[simp] theorem State.setFr_tx (s : State) (fr : Framer) :
    (s.setFr fr).tx = s.tx := rfl
@[simp] theorem State.setFr_fr (s : State) (fr : Framer) :
    (s.setFr fr).fr = fr := rfl
@[simp] theorem State.setFr_conn (s : State) (fr : Framer) :
    (s.setFr fr).conn = s.conn := rfl
@[simp] theorem State.setFr_tel (s : State) (fr : Framer) :
    (s.setFr fr).tel = s.tel := rfl
@[simp] theorem State.setFr_history (s : State) (fr : Framer) :
    (s.setFr fr).history = s.history := rfl
@[simp] theorem State.setFr_resp (s : State) (fr : Framer) :
    (s.setFr fr).resp = s.resp := rfl
@[simp] theorem State.setFr_port (s : State) (fr : Framer) :
    (s.setFr fr).port = s.port := rfl
@[simp] theorem State.setFr_input (s : State) (fr : Framer) :
    (s.setFr fr).input = s.input := rfl

@[simp] theorem State.setConn_params (s : State) (c : Conn) :
    (s.setConn c).params = s.params := rfl
@[simp] theorem State.setConn_rx (s : State) (c : Conn) :
    (s.setConn c).rx = s.rx := rfl
@[simp] theorem State.setConn_tx (s : State) (c : Conn) :
    (s.setConn c).tx = s.tx := rfl
@[simp] theorem State.setConn_fr (s : State) (c : Conn) :
    (s.setConn c).fr = s.fr := rfl
@[simp] theorem State.setConn_conn (s : State) (c : Conn) :
    (s.setConn c).conn = c := rfl
@[simp] theorem State.setConn_tel (s : State) (c : Conn) :
    (s.setConn c).tel = s.tel := rfl
@[simp] theorem State.setConn_history (s : State) (c : Conn) :
    (s.setConn c).history = s.history := rfl
@[simp] theorem State.setConn_resp (s : State) (c : Conn) :
    (s.setConn c).resp = s.resp := rfl
@[simp] theorem State.setConn_port (s : State) (c : Conn) :
    (s.setConn c).port = s.port := rfl
@[simp] theorem State.setConn_input (s : State) (c : Conn) :
    (s.setConn c).input = s.input := rfl

@[simp] theorem State.setTel_params (s : State) (t : Telemetry) :
    (s.setTel t).params = s.params := rfl
@[simp] theorem State.setTel_rx (s : State) (t : Telemetry) :
    (s.setTel t).rx = s.rx := rfl
@[simp] theorem State.setTel_tx (s : State) (t : Telemetry) :
    (s.setTel t).tx = s.tx := rfl
@[simp] theorem State.setTel_fr (s : State) (t : Telemetry) :
    (s.setTel t).fr = s.fr := rfl
@[simp] theorem State.setTel_conn (s : State) (t : Telemetry) :
    (s.setTel t).conn = s.conn := rfl
@[simp] theorem State.setTel_tel (s : State) (t : Telemetry) :
    (s.setTel t).tel = t := rfl
@[simp] theorem State.setTel_history (s : State) (t : Telemetry) :
    (s.setTel t).history = s.history := rfl
@[simp] theorem State.setTel_resp (s : State) (t : Telemetry) :
    (s.setTel t).resp = s.resp := rfl
@[simp] theorem State.setTel_port (s : State) (t : Telemetry) :
    (s.setTel t).port = s.port := rfl
@[simp] theorem State.setTel_input (s : State) (t : Telemetry) :
    (s.setTel t).input = s.input := rfl

@[simp] theorem State.record_params (s : State) (e : Event) :
    (s.record e).params = s.params := rfl
@[simp] theorem State.record_rx (s : State) (e : Event) :
    (s.record e).rx = s.rx := rfl
@[simp] theorem State.record_tx (s : State) (e : Event) :
    (s.record e).tx = s.tx := rfl
@[simp] theorem State.record_fr (s : State) (e : Event) :
    (s.record e).fr = s.fr := rfl
@[simp] theorem State.record_conn (s : State) (e : Event) :
    (s.record e).conn = s.conn := rfl
@[simp] theorem State.record_tel (s : State) (e : Event) :
    (s.record e).tel = s.tel := rfl
@[simp] theorem State.record_history (s : State) (e : Event) :
    (s.record e).history = s.history ++ [e] := rfl
@[simp] theorem State.record_resp (s : State) (e : Event) :
    (s.record e).resp = s.resp := rfl
@[simp] theorem State.record_port (s : State) (e : Event) :
    (s.record e).port = s.port := rfl
@[simp] theorem State.record_input (s : State) (e : Event) :
    (s.record e).input = s.input := rfl

@[simp] theorem State.raise_params (s : State) (c : Condition) :
    (s.raise c).params = s.params := rfl
@[simp] theorem State.raise_rx (s : State) (c : Condition) :
    (s.raise c).rx = s.rx := rfl
@[simp] theorem State.raise_tx (s : State) (c : Condition) :
    (s.raise c).tx = s.tx := rfl
@[simp] theorem State.raise_fr (s : State) (c : Condition) :
    (s.raise c).fr = s.fr := rfl
@[simp] theorem State.raise_conn (s : State) (c : Condition) :
    (s.raise c).conn = s.conn := rfl
@[simp] theorem State.raise_tel (s : State) (c : Condition) :
    (s.raise c).tel = s.tel := rfl
@[simp] theorem State.raise_history (s : State) (c : Condition) :
    (s.raise c).history = s.history ++ [.cond c] := rfl
@[simp] theorem State.raise_resp (s : State) (c : Condition) :
    (s.raise c).resp = s.resp := rfl
@[simp] theorem State.raise_port (s : State) (c : Condition) :
    (s.raise c).port = s.port := rfl
@[simp] theorem State.raise_input (s : State) (c : Condition) :
    (s.raise c).input = s.input := rfl

@[simp] theorem State.emitArm_params (s : State) :
    (s.emitArm).params = s.params := rfl
@[simp] theorem State.emitArm_rx (s : State) :
    (s.emitArm).rx = s.rx := rfl
@[simp] theorem State.emitArm_tx (s : State) :
    (s.emitArm).tx = s.tx := rfl
@[simp] theorem State.emitArm_fr (s : State) :
    (s.emitArm).fr = s.fr := rfl
@[simp] theorem State.emitArm_conn (s : State) :
    (s.emitArm).conn = s.conn := rfl
@[simp] theorem State.emitArm_tel (s : State) :
    (s.emitArm).tel = s.tel := rfl
@[simp] theorem State.emitArm_history (s : State) :
    (s.emitArm).history = s.history ++ [.arm s.params.wdTimeoutMs] := rfl
@[simp] theorem State.emitArm_resp (s : State) :
    (s.emitArm).resp = s.resp := rfl
@[simp] theorem State.emitArm_port (s : State) :
    (s.emitArm).port = s.port := rfl
@[simp] theorem State.emitArm_input (s : State) :
    (s.emitArm).input = s.input := rfl

@[simp] theorem State.respond_params (s : State) (ok : Bool) (d : Data) :
    (s.respond ok d).params = s.params := rfl
@[simp] theorem State.respond_rx (s : State) (ok : Bool) (d : Data) :
    (s.respond ok d).rx = s.rx := rfl
@[simp] theorem State.respond_tx (s : State) (ok : Bool) (d : Data) :
    (s.respond ok d).tx = s.tx := rfl
@[simp] theorem State.respond_fr (s : State) (ok : Bool) (d : Data) :
    (s.respond ok d).fr = s.fr := rfl
@[simp] theorem State.respond_conn (s : State) (ok : Bool) (d : Data) :
    (s.respond ok d).conn = s.conn := rfl
@[simp] theorem State.respond_tel (s : State) (ok : Bool) (d : Data) :
    (s.respond ok d).tel = s.tel := rfl
@[simp] theorem State.respond_history (s : State) (ok : Bool) (d : Data) :
    (s.respond ok d).history = s.history := rfl
@[simp] theorem State.respond_resp (s : State) (ok : Bool) (d : Data) :
    (s.respond ok d).resp = some ⟨ok, d⟩ := rfl
@[simp] theorem State.respond_port (s : State) (ok : Bool) (d : Data) :
    (s.respond ok d).port = s.port := rfl
@[simp] theorem State.respond_input (s : State) (ok : Bool) (d : Data) :
    (s.respond ok d).input = s.input := rfl

@[simp] theorem State.accept_params (s : State) (c : Command) (rest : List Input) :
    (s.accept c rest).params = s.params := rfl
@[simp] theorem State.accept_rx (s : State) (c : Command) (rest : List Input) :
    (s.accept c rest).rx = s.rx := rfl
@[simp] theorem State.accept_tx (s : State) (c : Command) (rest : List Input) :
    (s.accept c rest).tx = s.tx := rfl
@[simp] theorem State.accept_fr (s : State) (c : Command) (rest : List Input) :
    (s.accept c rest).fr = s.fr := rfl
@[simp] theorem State.accept_conn (s : State) (c : Command) (rest : List Input) :
    (s.accept c rest).conn = s.conn := rfl
@[simp] theorem State.accept_tel (s : State) (c : Command) (rest : List Input) :
    (s.accept c rest).tel = s.tel := rfl
@[simp] theorem State.accept_history (s : State) (c : Command) (rest : List Input) :
    (s.accept c rest).history = s.history := rfl
@[simp] theorem State.accept_resp (s : State) (c : Command) (rest : List Input) :
    (s.accept c rest).resp = s.resp := rfl
@[simp] theorem State.accept_port (s : State) (c : Command) (rest : List Input) :
    (s.accept c rest).port = c.port := rfl
@[simp] theorem State.accept_input (s : State) (c : Command) (rest : List Input) :
    (s.accept c rest).input = rest := rfl

@[simp] theorem State.setRing_rx_params (s : State) (rb : Ring) :
    (s.setRing .rx rb).params = s.params := rfl
@[simp] theorem State.setRing_rx_rx (s : State) (rb : Ring) :
    (s.setRing .rx rb).rx = rb := rfl
@[simp] theorem State.setRing_rx_tx (s : State) (rb : Ring) :
    (s.setRing .rx rb).tx = s.tx := rfl
@[simp] theorem State.setRing_rx_fr (s : State) (rb : Ring) :
    (s.setRing .rx rb).fr = s.fr := rfl
@[simp] theorem State.setRing_rx_conn (s : State) (rb : Ring) :
    (s.setRing .rx rb).conn = s.conn := rfl
@[simp] theorem State.setRing_rx_tel (s : State) (rb : Ring) :
    (s.setRing .rx rb).tel = s.tel := rfl
@[simp] theorem State.setRing_rx_history (s : State) (rb : Ring) :
    (s.setRing .rx rb).history = s.history := rfl
@[simp] theorem State.setRing_rx_resp (s : State) (rb : Ring) :
    (s.setRing .rx rb).resp = s.resp := rfl
@[simp] theorem State.setRing_rx_port (s : State) (rb : Ring) :
    (s.setRing .rx rb).port = s.port := rfl
@[simp] theorem State.setRing_rx_input (s : State) (rb : Ring) :
    (s.setRing .rx rb).input = s.input := rfl

@[simp] theorem State.setRing_tx_params (s : State) (rb : Ring) :
    (s.setRing .tx rb).params = s.params := rfl
@[simp] theorem State.setRing_tx_rx (s : State) (rb : Ring) :
    (s.setRing .tx rb).rx = s.rx := rfl
@[simp] theorem State.setRing_tx_tx (s : State) (rb : Ring) :
    (s.setRing .tx rb).tx = rb := rfl
@[simp] theorem State.setRing_tx_fr (s : State) (rb : Ring) :
    (s.setRing .tx rb).fr = s.fr := rfl
@[simp] theorem State.setRing_tx_conn (s : State) (rb : Ring) :
    (s.setRing .tx rb).conn = s.conn := rfl
@[simp] theorem State.setRing_tx_tel (s : State) (rb : Ring) :
    (s.setRing .tx rb).tel = s.tel := rfl
@[simp] theorem State.setRing_tx_history (s : State) (rb : Ring) :
    (s.setRing .tx rb).history = s.history := rfl
@[simp] theorem State.setRing_tx_resp (s : State) (rb : Ring) :
    (s.setRing .tx rb).resp = s.resp := rfl
@[simp] theorem State.setRing_tx_port (s : State) (rb : Ring) :
    (s.setRing .tx rb).port = s.port := rfl
@[simp] theorem State.setRing_tx_input (s : State) (rb : Ring) :
    (s.setRing .tx rb).input = s.input := rfl

@[simp] theorem State.setRing_params (s : State) (q : RingSel) (rb : Ring) :
    (s.setRing q rb).params = s.params := by cases q <;> rfl
@[simp] theorem State.setRing_fr (s : State) (q : RingSel) (rb : Ring) :
    (s.setRing q rb).fr = s.fr := by cases q <;> rfl
@[simp] theorem State.setRing_conn (s : State) (q : RingSel) (rb : Ring) :
    (s.setRing q rb).conn = s.conn := by cases q <;> rfl
@[simp] theorem State.setRing_tel (s : State) (q : RingSel) (rb : Ring) :
    (s.setRing q rb).tel = s.tel := by cases q <;> rfl
@[simp] theorem State.setRing_history (s : State) (q : RingSel) (rb : Ring) :
    (s.setRing q rb).history = s.history := by cases q <;> rfl
@[simp] theorem State.setRing_resp (s : State) (q : RingSel) (rb : Ring) :
    (s.setRing q rb).resp = s.resp := by cases q <;> rfl
@[simp] theorem State.setRing_port (s : State) (q : RingSel) (rb : Ring) :
    (s.setRing q rb).port = s.port := by cases q <;> rfl
@[simp] theorem State.setRing_input (s : State) (q : RingSel) (rb : Ring) :
    (s.setRing q rb).input = s.input := by cases q <;> rfl

@[simp] theorem State.ring_rx (s : State) : s.ring .rx = s.rx := rfl
@[simp] theorem State.ring_tx (s : State) : s.ring .tx = s.tx := rfl
@[simp] theorem State.setRing_ring (s : State) (q : RingSel) (rb : Ring) : (s.setRing q rb).ring q = rb := by
  cases q <;> rfl
@[simp] theorem slots_rx (p : Params) : p.slots .rx = p.rxN := rfl
@[simp] theorem slots_tx (p : Params) : p.slots .tx = p.txN := rfl

@[simp] theorem illegalCommand_params (w : Word) (s : State) :
    (illegalCommand w s).params = s.params := rfl
@[simp] theorem illegalCommand_rx (w : Word) (s : State) :
    (illegalCommand w s).rx = s.rx := rfl
@[simp] theorem illegalCommand_tx (w : Word) (s : State) :
    (illegalCommand w s).tx = s.tx := rfl
@[simp] theorem illegalCommand_fr (w : Word) (s : State) :
    (illegalCommand w s).fr = s.fr := rfl
@[simp] theorem illegalCommand_conn (w : Word) (s : State) :
    (illegalCommand w s).conn = s.conn := rfl
@[simp] theorem illegalCommand_tel (w : Word) (s : State) :
    (illegalCommand w s).tel = s.tel := rfl
@[simp] theorem illegalCommand_history (w : Word) (s : State) :
    (illegalCommand w s).history = s.history ++ [.cond (.illegalCommand s.port w)] := rfl
@[simp] theorem illegalCommand_resp (w : Word) (s : State) :
    (illegalCommand w s).resp = some ⟨false, 0⟩ := rfl
@[simp] theorem illegalCommand_port (w : Word) (s : State) :
    (illegalCommand w s).port = s.port := rfl
@[simp] theorem illegalCommand_input (w : Word) (s : State) :
    (illegalCommand w s).input = s.input := rfl

@[simp] theorem State.resetWith_params (p : Params) : (State.resetWith p).params = p := rfl
@[simp] theorem State.resetWith_rx (p : Params) : (State.resetWith p).rx = .empty := rfl
@[simp] theorem State.resetWith_tx (p : Params) : (State.resetWith p).tx = .empty := rfl
@[simp] theorem State.resetWith_fr (p : Params) : (State.resetWith p).fr = .reset := rfl
@[simp] theorem State.resetWith_conn (p : Params) : (State.resetWith p).conn = .reset := rfl
@[simp] theorem State.resetWith_tel (p : Params) : (State.resetWith p).tel = .reset := rfl
@[simp] theorem State.resetWith_history (p : Params) : (State.resetWith p).history = [] := rfl
@[simp] theorem State.resetWith_resp (p : Params) : (State.resetWith p).resp = none := rfl
@[simp] theorem State.resetWith_port (p : Params) : (State.resetWith p).port = .host := rfl
@[simp] theorem State.resetWith_input (p : Params) : (State.resetWith p).input = [] := rfl

@[simp] theorem applyReset_params (rest : List Input) (s : State) :
    (applyReset rest s).params = s.params := rfl
@[simp] theorem applyReset_rx (rest : List Input) (s : State) :
    (applyReset rest s).rx = .empty := rfl
@[simp] theorem applyReset_tx (rest : List Input) (s : State) :
    (applyReset rest s).tx = .empty := rfl
@[simp] theorem applyReset_fr (rest : List Input) (s : State) :
    (applyReset rest s).fr = .reset := rfl
@[simp] theorem applyReset_conn (rest : List Input) (s : State) :
    (applyReset rest s).conn = .reset := rfl
@[simp] theorem applyReset_tel (rest : List Input) (s : State) :
    (applyReset rest s).tel = .reset := rfl
@[simp] theorem applyReset_history (rest : List Input) (s : State) :
    (applyReset rest s).history = [] := rfl
@[simp] theorem applyReset_resp (rest : List Input) (s : State) :
    (applyReset rest s).resp = none := rfl
@[simp] theorem applyReset_port (rest : List Input) (s : State) :
    (applyReset rest s).port = .host := rfl
@[simp] theorem applyReset_input (rest : List Input) (s : State) :
    (applyReset rest s).input = rest := rfl

end Sys2Proof.Machine
end

