-- ==== Sys2Proof/Laws/Ring.lean ====
section
/-! SUPPORT. The laws of one ring: index arithmetic (R65), occupancy (R18), and what each primitive does to the indices
and to the queue (R66 to R69). -/

namespace Sys2Proof.Machine

/-- R65: `inc_N` is a mod-N counter. -/
theorem incN_eq_mod {n i : Nat} (h : i < n) : incN n i = (i + 1) % n := by
  unfold incN
  split
  · rw [show i + 1 = n by omega, Nat.mod_self]
  · rw [Nat.mod_eq_of_lt (by omega)]

theorem incN_lt {n i : Nat} (h : i < n) : incN n i < n := by
  unfold incN
  split <;> omega

/-- An index below `N` fits in `IDX_W(N)` bits (R17). -/
theorem lt_two_pow_idxW {n i : Nat} (h : i < n) : i < 2 ^ idxW n :=
  lt_of_lt_of_le h (Nat.le_pow_clog (by norm_num) n)

/-- R75: with `head ≤ tail` the occupancy is their difference. -/
theorem Ring.occ_of_le {n : Nat} {rb : Ring} (h : rb.head ≤ rb.tail) (ht : rb.tail < n) :
    rb.occ n = rb.tail - rb.head := by
  unfold occ
  rw [Int.emod_eq_of_lt (by omega) (by omega)]
  omega

/-- R75: with `tail < head` the occupancy is `tail − head + N`. -/
theorem Ring.occ_of_lt {n : Nat} {rb : Ring} (h : rb.tail < rb.head) (hh : rb.head < n) :
    rb.occ n = rb.tail + n - rb.head := by
  unfold occ
  rw [← Int.add_emod_right, Int.emod_eq_of_lt (by omega) (by omega)]
  omega

/-- R18: the occupancy lies in `0..N−1`. -/
theorem Ring.occ_lt {n : Nat} (rb : Ring) (h : 0 < n) : rb.occ n < n := by
  unfold occ
  have := Int.emod_lt_of_pos ((rb.tail : Int) - rb.head) (show (0 : Int) < n by omega)
  have := Int.emod_nonneg ((rb.tail : Int) - rb.head) (show (n : Int) ≠ 0 by omega)
  omega

/-- R76: a ring in range is empty exactly when its indices are equal. -/
theorem Ring.occ_eq_zero {n : Nat} {rb : Ring} (hh : rb.head < n) (ht : rb.tail < n) :
    rb.occ n = 0 ↔ rb.head = rb.tail := by
  rcases Nat.lt_or_ge rb.tail rb.head with h | h
  · rw [occ_of_lt h hh]; omega
  · rw [occ_of_le h ht]; omega

@[simp] theorem Ring.length_queue (n : Nat) (rb : Ring) : (rb.queue n).length = rb.occ n := by
  simp [queue]

/-- The occupancy after `tail` moves on, in a ring that is not full. -/
theorem Ring.occ_tail_inc {n : Nat} {rb : Ring} (hh : rb.head < n) (ht : rb.tail < n)
    (hf : rb.occ n ≠ n - 1) (mem : Memory) :
    Ring.occ n { rb with mem := mem, tail := incN n rb.tail } = rb.occ n + 1 := by
  rcases Nat.lt_or_ge rb.tail rb.head with h | h
  · rw [occ_of_lt h hh] at hf ⊢
    rw [occ_of_lt] <;> simp only [incN] <;> (try split) <;> omega
  · rw [occ_of_le h ht] at hf ⊢
    by_cases he : rb.tail = n - 1
    · rw [occ_of_lt] <;> simp only [incN, he, if_true] <;> omega
    · rw [occ_of_le] <;> simp only [incN, he, if_false] <;> omega

/-- The occupancy after `head` moves on, in a ring that is not empty. -/
theorem Ring.occ_head_inc {n : Nat} {rb : Ring} (hh : rb.head < n) (ht : rb.tail < n)
    (he : rb.occ n ≠ 0) : Ring.occ n { rb with head := incN n rb.head } = rb.occ n - 1 := by
  rcases Nat.lt_or_ge rb.tail rb.head with h | h
  · rw [occ_of_lt h hh] at he ⊢
    by_cases hn : rb.head = n - 1
    · rw [occ_of_le] <;> simp only [incN, hn, if_true] <;> omega
    · rw [occ_of_lt] <;> simp only [incN, hn, if_false] <;> omega
  · rw [occ_of_le h ht] at he ⊢
    rw [occ_of_le] <;> simp only [incN] <;> (try split) <;> omega

/-- The slot one past the newest byte is the slot that `tail` points at. -/
theorem Ring.head_add_occ_mod {n : Nat} {rb : Ring} (hh : rb.head < n) (ht : rb.tail < n) :
    (rb.head + rb.occ n) % n = rb.tail := by
  rcases Nat.lt_or_ge rb.tail rb.head with h | h
  · rw [occ_of_lt h hh, show rb.head + (rb.tail + n - rb.head) = rb.tail + n by omega, Nat.add_mod_right,
      Nat.mod_eq_of_lt ht]
  · rw [occ_of_le h ht, show rb.head + (rb.tail - rb.head) = rb.tail by omega, Nat.mod_eq_of_lt ht]

/-- No queued slot is the slot that `tail` points at. -/
theorem Ring.slot_ne_tail {n k : Nat} {rb : Ring} (hh : rb.head < n) (ht : rb.tail < n) (hk : k < rb.occ n) :
    (rb.head + k) % n ≠ rb.tail := by
  have ho := occ_lt rb (show 0 < n by omega)
  rcases Nat.lt_or_ge (rb.head + k) n with hlt | hge
  · rw [Nat.mod_eq_of_lt hlt]
    rcases Nat.lt_or_ge rb.tail rb.head with h | h
    · omega
    · rw [occ_of_le h ht] at hk; omega
  · rw [Nat.mod_eq_sub_mod hge, Nat.mod_eq_of_lt (by omega)]
    rcases Nat.lt_or_ge rb.tail rb.head with h | h
    · rw [occ_of_lt h hh] at hk; omega
    · rw [occ_of_le h ht] at hk; omega

/-- A byte stored at `tail`, and `tail` moved on, is a byte at the end of the queue (R66, R18). -/
theorem Ring.queue_write_tail {n : Nat} {rb : Ring} (hh : rb.head < n) (ht : rb.tail < n)
    (hf : rb.occ n ≠ n - 1) (b : Byte) :
    Ring.queue n { rb with mem := rb.mem.write rb.tail b, tail := incN n rb.tail } = rb.queue n ++ [b] := by
  unfold queue
  rw [occ_tail_inc hh ht hf, List.range_succ, List.map_append, List.map_singleton]
  congr 1
  · refine List.map_congr_left fun k hk => ?_
    rw [List.mem_range] at hk
    simp [slot_ne_tail hh ht hk]
  · simp [head_add_occ_mod hh ht]

/-- The queue of a ring that is not empty is the byte at `head`, and then the queue with `head` moved on (R67, R18). -/
theorem Ring.queue_eq_cons {n : Nat} {rb : Ring} (hh : rb.head < n) (ht : rb.tail < n) (he : rb.occ n ≠ 0) :
    rb.queue n = rb.mem.read rb.head :: Ring.queue n { rb with head := incN n rb.head } := by
  unfold queue
  rw [occ_head_inc hh ht he]
  obtain ⟨m, hm⟩ : ∃ m, rb.occ n = m + 1 := ⟨rb.occ n - 1, by omega⟩
  rw [hm, List.range_succ_eq_map, List.map_cons, List.map_map]
  congr 1
  · simp [Nat.mod_eq_of_lt hh]
  · refine List.map_congr_left fun k _ => ?_
    simp only [Function.comp_apply, incN_eq_mod hh, Nat.mod_add_mod]
    rw [show rb.head + 1 + k = rb.head + (k + 1) by omega]

/-- The queue does not depend on the overflow counter. -/
@[simp] theorem Ring.queue_ovf (n : Nat) (rb : Ring) (c : Nat) :
    Ring.queue n { rb with ovf := c } = rb.queue n := rfl

@[simp] theorem Ring.occ_ovf (n : Nat) (rb : Ring) (c : Nat) :
    Ring.occ n { rb with ovf := c } = rb.occ n := rfl

/-- What `RB_PUSH` does (R66): refused at a full ring, else stored at `tail`. -/
theorem Ring.push_cases {p : Params} {q : RingSel} {rb rb' : Ring} {b : Byte} {a : Bool}
    (h : rb.push p q b = .ok (rb', a)) :
    (rb.occ (p.slots q) = p.slots q - 1 ∧ a = false ∧ rb' = { rb with ovf := p.satInc rb.ovf }) ∨
    (rb.occ (p.slots q) ≠ p.slots q - 1 ∧ a = true ∧ rb.tail < p.slots q ∧
      rb' = { rb with mem := rb.mem.write rb.tail b, tail := incN (p.slots q) rb.tail }) := by
  simp only [push] at h
  split at h
  · next hf => cases h; exact .inl ⟨hf, rfl, rfl⟩
  · next hf =>
    split at h
    · next hs =>
      obtain ⟨hlt, rfl⟩ := Memory.store_ok.1 hs
      cases h
      exact .inr ⟨hf, rfl, hlt, rfl⟩
    · cases h

theorem Ring.push_full {p : Params} {q : RingSel} {rb : Ring} (b : Byte)
    (h : rb.occ (p.slots q) = p.slots q - 1) :
    rb.push p q b = .ok ({ rb with ovf := p.satInc rb.ovf }, false) := by simp [push, h]

theorem Ring.push_not_full {p : Params} {q : RingSel} {rb : Ring} (b : Byte)
    (h : rb.occ (p.slots q) ≠ p.slots q - 1) (ht : rb.tail < p.slots q) :
    rb.push p q b =
      .ok ({ rb with mem := rb.mem.write rb.tail b, tail := incN (p.slots q) rb.tail }, true) := by
  simp [push, h, Memory.store_of_lt ht]

/-- What `RB_POP` does (R67): nothing at an empty ring, else the byte at `head`. -/
theorem Ring.pop_cases {p : Params} {q : RingSel} {rb rb' : Ring} {b : Byte} {v : Bool}
    (h : rb.pop p q = .ok (rb', v, b)) :
    (rb.occ (p.slots q) = 0 ∧ v = false ∧ b = p.popSentinel ∧ rb' = rb) ∨
    (rb.occ (p.slots q) ≠ 0 ∧ v = true ∧ rb.head < p.slots q ∧ b = rb.mem.read rb.head ∧
      rb' = { rb with head := incN (p.slots q) rb.head }) := by
  simp only [pop] at h
  split at h
  · next he => cases h; exact .inl ⟨he, rfl, rfl, rfl⟩
  · next he =>
    split at h
    · next hs =>
      obtain ⟨hlt, rfl⟩ := Memory.load_ok.1 hs
      cases h
      exact .inr ⟨he, rfl, hlt, rfl, rfl⟩
    · cases h

theorem Ring.pop_empty {p : Params} {q : RingSel} {rb : Ring} (h : rb.occ (p.slots q) = 0) :
    rb.pop p q = .ok (rb, false, p.popSentinel) := by simp [pop, h]

theorem Ring.pop_not_empty {p : Params} {q : RingSel} {rb : Ring} (h : rb.occ (p.slots q) ≠ 0)
    (hh : rb.head < p.slots q) :
    rb.pop p q = .ok ({ rb with head := incN (p.slots q) rb.head }, true, rb.mem.read rb.head) := by
  simp [pop, h, Memory.load_of_lt hh]

/-- A saturating increment stays within `CNT_W` bits (R10). -/
theorem satInc_le {p : Params} {c : Nat} (h : c ≤ p.cntMax) : p.satInc c ≤ p.cntMax := by
  unfold Params.satInc
  split <;> omega

/-- A counter that counts, saturating, still does after one more (R10). -/
theorem satInc_min {p : Params} {c n : Nat} (h : c = min n p.cntMax) : p.satInc c = min (n + 1) p.cntMax := by
  unfold Params.satInc
  split <;> omega

/-- `RB_PUSH` keeps a ring in range. -/
theorem Ring.push_inv {p : Params} {q : RingSel} {rb rb' : Ring} {b : Byte} {a : Bool}
    (hi : rb.inv p q) (h : rb.push p q b = .ok (rb', a)) : rb'.inv p q := by
  obtain ⟨h1, h2, h3, h4, h5⟩ := hi
  rcases push_cases h with ⟨-, -, rfl⟩ | ⟨-, -, -, rfl⟩
  · exact ⟨h1, h2, h3, h4, satInc_le h5⟩
  · exact ⟨Memory.wf_write h1 _ _, Memory.within_write h2 h4 _, h3, incN_lt h4, h5⟩

/-- `RB_POP` keeps a ring in range. -/
theorem Ring.pop_inv {p : Params} {q : RingSel} {rb rb' : Ring} {b : Byte} {v : Bool}
    (hi : rb.inv p q) (h : rb.pop p q = .ok (rb', v, b)) : rb'.inv p q := by
  obtain ⟨h1, h2, h3, h4, h5⟩ := hi
  rcases pop_cases h with ⟨-, -, -, rfl⟩ | ⟨-, -, -, -, rfl⟩
  · exact ⟨h1, h2, h3, h4, h5⟩
  · exact ⟨h1, h2, incN_lt h3, h4, h5⟩

/-- `RB_CLEAR` puts a ring in range into its reset state (R126). -/
theorem Ring.clear_eq_empty {p : Params} {q : RingSel} {rb : Ring} (hi : rb.inv p q) :
    rb.clear p q = .empty := by
  simp [clear, empty, Memory.zero_eq_nil hi.2.1]

theorem Ring.empty_inv {p : Params} {q : RingSel} (h : 0 < p.slots q) : Ring.empty.inv p q := by
  refine ⟨⟨List.Pairwise.nil, ?_⟩, ?_, h, h, ?_⟩ <;> simp [empty]

end Sys2Proof.Machine
end

