-- ==== Sys2Proof/Laws/Framer.lean ====
section
/-! SUPPORT. What each operation of the framer and the field decoder does when it answers a state: one lemma an operation,
from which later proofs argue without unfolding it. -/

namespace Sys2Proof

/-- What R9 gives of a configuration with a meaning. -/
theorem Params.wf_iff {p : Params} : p.wf = true ↔
    2 ≤ p.rxN ∧ 2 ≤ p.txN ∧ p.hdrLen + p.ckLen ≤ p.rawCap ∧ p.rawCap ≤ 255 ∧ 1 ≤ p.skipW ∧ p.skipW ≤ 4 := by
  simp [Params.wf, and_assoc]

/-- A row that `entry` answers is a row of the table, of that class, id and offset (R97). -/
theorem entry_some {cls id : Byte} {o : Nat} {row : FieldRow} (h : entry cls id o = some row) :
    row ∈ fieldTable ∧ row.cls = cls ∧ row.id = id ∧ row.offset = o := by
  have h1 := List.find?_some h
  have h2 := List.mem_of_find?_eq_some h
  simp at h1
  exact ⟨h2, h1.1.1, h1.1.2, h1.2⟩

/-- The widths of the table: at most four bytes, at least one (R62). -/
theorem FieldWidth.bytes_bounds (w : FieldWidth) : 1 ≤ w.bytes ∧ w.bytes ≤ 4 := by
  cases w <;> decide

/-- An offset that fits the parse cursor (R98). -/
theorem pcurOf_of_lt {v : Nat} (h : v < 2 ^ 8) : pcurOf v = BitVec.ofNat 8 v := by rw [pcurOf, if_pos h]

/-- A count that fits in 32 bits (R31, R75). -/
theorem zext32_of_lt {n : Nat} (h : n < 2 ^ 32) : (zext32 n).toNat = n := by
  rw [zext32, if_pos h, BitVec.toNat_ofNat, Nat.mod_eq_of_lt h]

/-- A one-byte field is its byte (R62, R99). -/
theorem leWord_one (b : Byte) : leWord [b] = b.setWidth 32 := by simp [leWord]

/-- A bit of one step of the little-endian sum. -/
theorem getLsbD_leStep (x : BitVec 32) (b : Byte) {i : Nat} (hi : i < 32) :
    (x <<< 8 ||| b.setWidth 32).getLsbD i = if i < 8 then b.getLsbD i else x.getLsbD (i - 8) := by
  simp only [BitVec.getLsbD_or, BitVec.getLsbD_shiftLeft, BitVec.getLsbD_setWidth]
  by_cases h : i < 8
  · simp [h, hi]
  · simp [h, hi, BitVec.getLsbD_of_ge b i (by omega)]

/-- A four-byte field is its bytes, the last one highest (R37). -/
theorem leWord_four (b0 b1 b2 b3 : Byte) : leWord [b0, b1, b2, b3] = b3 ++ b2 ++ b1 ++ b0 := by
  refine BitVec.eq_of_getLsbD_eq fun i hi => ?_
  have hr : (b3 ++ b2 ++ b1 ++ b0).getLsbD i = if i < 8 then b0.getLsbD i else if i - 8 < 8 then b1.getLsbD (i - 8)
      else if i - 8 - 8 < 8 then b2.getLsbD (i - 8 - 8) else b3.getLsbD (i - 8 - 8 - 8) := by
    rw [BitVec.getLsbD_append, BitVec.getLsbD_append, BitVec.getLsbD_append]
  refine Eq.trans ?_ hr.symm
  simp only [leWord]
  rw [getLsbD_leStep _ _ hi]
  split
  · rfl
  rw [getLsbD_leStep _ _ (by omega)]
  split
  · rfl
  rw [getLsbD_leStep _ _ (by omega)]
  split
  · rfl
  rw [getLsbD_leStep _ _ (by omega)]
  rw [if_pos (by omega)]

end Sys2Proof

namespace Sys2Proof.Machine

/-- `MemWrite(RAW, i, 1, b)`. -/
theorem storeRaw_ok {i : Nat} {b : Byte} {s t : State} :
    storeRaw i b s = .ok t ↔
      i < s.params.rawCap ∧ t = s.setFr { s.fr with raw := s.fr.raw.write i b } := by
  unfold storeRaw
  cases h : s.fr.raw.store .raw s.params.rawCap i b with
  | error f => simp only [Memory.store] at h; split at h <;> simp_all
  | ok raw => obtain ⟨h1, rfl⟩ := Memory.store_ok.1 h; simp [h1, eq_comm]

theorem storeRaw_of_lt {i : Nat} {b : Byte} {s : State} (h : i < s.params.rawCap) :
    storeRaw i b s = .ok (s.setFr { s.fr with raw := s.fr.raw.write i b }) := storeRaw_ok.2 ⟨h, rfl⟩

/-- `CK_ACC` touches the two sums alone, and under another `CK_FN` nothing (R82). -/
theorem ckAcc_eq (p : Params) (fr : Framer) (b : Byte) :
    ckAcc p fr b = { fr with ckA := (ckAcc p fr b).ckA, ckB := (ckAcc p fr b).ckB } := by
  unfold ckAcc
  split <;> rfl

@[simp] theorem ckAcc_raw (p : Params) (fr : Framer) (b : Byte) : (ckAcc p fr b).raw = fr.raw := by
  rw [ckAcc_eq]
@[simp] theorem ckAcc_fstate (p : Params) (fr : Framer) (b : Byte) : (ckAcc p fr b).fstate = fr.fstate := by
  rw [ckAcc_eq]
@[simp] theorem ckAcc_cursor (p : Params) (fr : Framer) (b : Byte) : (ckAcc p fr b).cursor = fr.cursor := by
  rw [ckAcc_eq]
@[simp] theorem ckAcc_cls (p : Params) (fr : Framer) (b : Byte) : (ckAcc p fr b).cls = fr.cls := by
  rw [ckAcc_eq]
@[simp] theorem ckAcc_id (p : Params) (fr : Framer) (b : Byte) : (ckAcc p fr b).id = fr.id := by
  rw [ckAcc_eq]
@[simp] theorem ckAcc_plen (p : Params) (fr : Framer) (b : Byte) : (ckAcc p fr b).plen = fr.plen := by
  rw [ckAcc_eq]
@[simp] theorem ckAcc_pcur (p : Params) (fr : Framer) (b : Byte) : (ckAcc p fr b).pcur = fr.pcur := by
  rw [ckAcc_eq]
@[simp] theorem ckAcc_frameReady (p : Params) (fr : Framer) (b : Byte) :
    (ckAcc p fr b).frameReady = fr.frameReady := by
  rw [ckAcc_eq]
@[simp] theorem ckAcc_lastCkValid (p : Params) (fr : Framer) (b : Byte) :
    (ckAcc p fr b).lastCkValid = fr.lastCkValid := by
  rw [ckAcc_eq]
@[simp] theorem ckAcc_feCnt (p : Params) (fr : Framer) (b : Byte) : (ckAcc p fr b).feCnt = fr.feCnt := by
  rw [ckAcc_eq]
@[simp] theorem ckAcc_ckErrCnt (p : Params) (fr : Framer) (b : Byte) :
    (ckAcc p fr b).ckErrCnt = fr.ckErrCnt := by
  rw [ckAcc_eq]

/-- The sums after one more byte (R82). -/
theorem ckAcc_sums {p : Params} (h : p.ckFn = .fletcher8) (fr : Framer) (b : Byte) :
    ((ckAcc p fr b).ckA, (ckAcc p fr b).ckB) = fletcherStep (fr.ckA, fr.ckB) b := by
  simp [ckAcc, h]

/-- The Fletcher sum of one more byte (R63). -/
theorem fletcher8_concat (bs : List Byte) (b : Byte) :
    fletcher8 (bs ++ [b]) = fletcherStep (fletcher8 bs) b := by
  simp [fletcher8]

/-- `READ_SYNC1` (R83). -/
theorem readSync1_ok {b : Byte} {s t : State} : readSync1 b s = .ok t ↔
    (b ≠ s.params.sync1 ∧ t = framingError (.sync1Mismatch b) s) ∨
    (b = s.params.sync1 ∧ 0 < s.params.rawCap ∧
      t = s.setFr { s.fr with raw := s.fr.raw.write 0 b, cursor := 1 }) := by
  unfold readSync1
  by_cases hb : b = s.params.sync1
  · by_cases hc : 0 < s.params.rawCap
    · simp [hb, hc, storeRaw_of_lt hc, State.setFr, eq_comm]
    · simp [hb, hc, storeRaw, Memory.store]
  · simp [hb, eq_comm]

/-- `READ_SYNC2` (R84). -/
theorem readSync2_ok {b : Byte} {s t : State} : readSync2 b s = .ok t ↔
    (b ≠ s.params.sync2 ∧ t = framingError (.sync2Mismatch b) s) ∨
    (b = s.params.sync2 ∧ 1 < s.params.rawCap ∧
      t = ((s.setFr { s.fr with raw := s.fr.raw.write 1 b, cursor := 2 }).setConn ⟨true, true⟩).emitArm) := by
  unfold readSync2
  by_cases hb : b = s.params.sync2
  · by_cases hc : 1 < s.params.rawCap
    · simp [hb, hc, storeRaw_of_lt hc, State.setFr, eq_comm]
    · simp [hb, hc, storeRaw, Memory.store]
  · simp [hb, eq_comm]

/-- `READ_CLASS` (R85). -/
theorem readClass_ok {b : Byte} {s t : State} : readClass b s = .ok t ↔
    2 < s.params.rawCap ∧
      t = s.setFr (takeClass s.params b { s.fr with raw := s.fr.raw.write 2 b }) := by
  unfold readClass
  by_cases hc : 2 < s.params.rawCap
  · simp only [hc, storeRaw_of_lt hc, true_and, Except.ok.injEq]; exact eq_comm
  · simp [hc, storeRaw, Memory.store]

/-- `READ_ID` (R86). -/
theorem readId_ok {b : Byte} {s t : State} : readId b s = .ok t ↔
    3 < s.params.rawCap ∧
      t = s.setFr (takeId s.params b { s.fr with raw := s.fr.raw.write 3 b }) := by
  unfold readId
  by_cases hc : 3 < s.params.rawCap
  · simp only [hc, storeRaw_of_lt hc, true_and, Except.ok.injEq]; exact eq_comm
  · simp [hc, storeRaw, Memory.store]

/-- `READ_LEN_LO` (R87). -/
theorem readLenLo_ok {b : Byte} {s t : State} : readLenLo b s = .ok t ↔
    4 < s.params.rawCap ∧
      t = s.setFr (takeLenLo s.params b { s.fr with raw := s.fr.raw.write 4 b }) := by
  unfold readLenLo
  by_cases hc : 4 < s.params.rawCap
  · simp only [hc, storeRaw_of_lt hc, true_and, Except.ok.injEq]; exact eq_comm
  · simp [hc, storeRaw, Memory.store]

/-- `READ_LEN_HI` (R88). -/
theorem readLenHi_ok {b : Byte} {s t : State} : readLenHi b s = .ok t ↔
    5 < s.params.rawCap ∧
      t = checkLength (s.setFr (takeLenHi s.params b { s.fr with raw := s.fr.raw.write 5 b })) := by
  unfold readLenHi
  by_cases hc : 5 < s.params.rawCap
  · simp only [hc, storeRaw_of_lt hc, true_and, Except.ok.injEq]; exact eq_comm
  · simp [hc, storeRaw, Memory.store]

/-- The two ways the length check goes (R88). -/
theorem checkLength_cases (s : State) :
    (s.params.rawCap < total s.params s.fr.plen ∧ checkLength s = framingError (.oversize s.fr.plen) s) ∨
    (total s.params s.fr.plen ≤ s.params.rawCap ∧ checkLength s = s) := by
  unfold checkLength
  split
  · next h => exact .inl ⟨h, rfl⟩
  · next h => exact .inr ⟨Nat.not_lt.1 h, rfl⟩

/-- `READ_BODY` (R89). -/
theorem readBody_ok {c : Nat} {b : Byte} {s t : State} : readBody c b s = .ok t ↔
    c < s.params.rawCap ∧
      finishBody c (s.setFr (takeBody s.params c b { s.fr with raw := s.fr.raw.write c b })) = .ok t := by
  unfold readBody
  by_cases hc : c < s.params.rawCap
  · simp only [hc, storeRaw_of_lt hc, true_and]; rfl
  · simp [hc, storeRaw, Memory.store]

/-- The two ways a body byte ends: the frame is complete, or it is not (R89). -/
theorem finishBody_ok {c : Nat} {s t : State} : finishBody c s = .ok t ↔
    (c = total s.params s.fr.plen - 1 ∧ frameComplete s = .ok t) ∨
    (c ≠ total s.params s.fr.plen - 1 ∧ t = s) := by
  unfold finishBody
  split
  · simp [*]
  · simp [*, eq_comm]

/-- The verdict of a complete frame (R90). -/
theorem ckVerdict_ok {p : Params} {fr : Framer} {ok : Bool} (h : ckVerdict p fr = .ok ok) :
    ∃ ck, expectedCk p fr = .ok ck ∧ total p fr.plen - 1 < p.rawCap ∧
      ok = (fr.raw.read (total p fr.plen - 2) == ck.1 && fr.raw.read (total p fr.plen - 1) == ck.2) := by
  unfold ckVerdict at h
  split at h
  · next ck a b h1 h2 h3 =>
    obtain ⟨-, rfl⟩ := Memory.load_ok.1 h2
    obtain ⟨h4, rfl⟩ := Memory.load_ok.1 h3
    cases h
    exact ⟨ck, h1, h4, rfl⟩
  all_goals cases h

/-- The bytes a frame should end in (R82, R90). -/
theorem expectedCk_ok {p : Params} {fr : Framer} {ck : Byte × Byte} (h : expectedCk p fr = .ok ck) :
    (p.ckFn = .fletcher8 ∧ ck = (fr.ckA, fr.ckB)) ∨
    (p.ckFn = .other ∧ ck = ckFn p (fr.rawBytes 2 (total p fr.plen - 4))) := by
  unfold expectedCk at h
  split at h
  · next hf => cases h; exact .inl ⟨hf, rfl⟩
  · next hf =>
    split at h
    · next bs hb =>
      cases h
      exact .inr ⟨hf, by rw [(Memory.loadRange_ok hb).2]; rfl⟩
    · cases h

/-- A complete frame whose bytes lie in `raw` gets a verdict. -/
theorem ckVerdict_isOk {p : Params} {fr : Framer} (h1 : total p fr.plen ≤ p.rawCap) (h2 : 4 ≤ total p fr.plen) :
    ∃ ok, ckVerdict p fr = .ok ok := by
  have hl : fr.raw.loadRange .raw p.rawCap 2 (total p fr.plen - 4) =
      .ok (fr.rawBytes 2 (total p fr.plen - 4)) := Memory.loadRange_of_le (by omega)
  unfold ckVerdict expectedCk
  rw [Memory.load_of_lt (show total p fr.plen - 2 < p.rawCap by omega),
    Memory.load_of_lt (show total p fr.plen - 1 < p.rawCap by omega), hl]
  cases p.ckFn <;> exact ⟨_, rfl⟩

/-- `FRAME_COMPLETE` (R90). -/
theorem frameComplete_ok {s t : State} : frameComplete s = .ok t ↔
    ∃ ok, ckVerdict s.params s.fr = .ok ok ∧ t = applyPolicy ok (takeVerdict ok s) := by
  unfold frameComplete
  cases h : ckVerdict s.params s.fr with
  | error f => simp
  | ok ok => simp [eq_comm]

/-- The two ways a verdict goes (R90). -/
theorem takeVerdict_cases (ok : Bool) (s : State) :
    (ok = true ∧ takeVerdict ok s = s.setFr { s.fr with lastCkValid := true }) ∨
    (ok = false ∧ takeVerdict ok s =
      (s.setFr { s.fr with lastCkValid := false, ckErrCnt := s.params.satInc s.fr.ckErrCnt }).raise
        (.ckMismatch s.fr.cls s.fr.id)) := by
  cases ok
  · exact .inr ⟨rfl, rfl⟩
  · exact .inl ⟨rfl, rfl⟩

/-- The two ways the policy goes (R90). -/
theorem applyPolicy_cases (ok : Bool) (s : State) :
    ((ok = true ∨ s.params.ckPolicy = .accept) ∧ applyPolicy ok s =
      s.setFr { s.fr with frameReady := true, fstate := .parsing, pcur := 0 }) ∨
    (ok = false ∧ s.params.ckPolicy = .reject ∧ applyPolicy ok s = s.setFr { s.fr with fstate := .idle }) := by
  unfold applyPolicy
  split
  · next h => exact .inl ⟨h, rfl⟩
  · next h =>
    refine .inr ⟨by simp_all, ?_, rfl⟩
    cases hp : s.params.ckPolicy <;> simp_all

/-- From cursor 6 on, every byte is a body byte (R81). -/
theorem readByte_of_ge {c : Nat} (h : 6 ≤ c) (b : Byte) (s : State) : readByte c b s = readBody c b s := by
  obtain ⟨k, rfl⟩ := Nat.exists_eq_add_of_le' h
  rfl

/-- Taking a byte from a ring that the framer found not empty (R78): the pop always has one. -/
theorem pollReading_ok {s t : State} : pollReading s = .ok t ↔
    ((s.rx.occ s.params.rxN = 0 ∨ s.fr.frameReady = true) ∧ t = s) ∨
    (s.rx.occ s.params.rxN ≠ 0 ∧ s.fr.frameReady = false ∧ s.rx.head < s.params.rxN ∧
      readByte s.fr.cursor.toNat (s.rx.mem.read s.rx.head)
        (s.setRing .rx { s.rx with head := incN s.params.rxN s.rx.head }) = .ok t) := by
  unfold pollReading
  by_cases h0 : s.rx.occ s.params.rxN = 0
  · simp only [h0, true_or, if_true, Except.ok.injEq, true_and, ne_eq, not_true_eq_false, false_and, or_false]
    exact eq_comm
  · cases hr : s.fr.frameReady with
    | true =>
      simp only [or_true, if_true, Except.ok.injEq, true_and, reduceCtorEq, false_and, and_false, or_false]
      exact eq_comm
    | false =>
      by_cases hh : s.rx.head < s.params.rxN
      · have := Ring.pop_not_empty (p := s.params) (q := .rx) (rb := s.rx) h0 hh
        simp only [slots_rx] at this
        simp [h0, hh, this]
      · simp [h0, hh, Ring.pop, Memory.load]

/-- `DECODE` (R99). -/
theorem decodeField_ok {row : FieldRow} {o : Nat} {s t : State} (h : decodeField row o s = .ok t) :
    s.params.hdrLen + o + row.width.bytes ≤ s.params.rawCap ∧
      t = s.setTel (FieldRow.apply row (leWord (s.fr.rawBytes (s.params.hdrLen + o) row.width.bytes)) s.tel) := by
  unfold decodeField at h
  split at h
  · next bs hb =>
    obtain ⟨h1, rfl⟩ := Memory.loadRange_ok hb
    cases h
    exact ⟨h1 (by cases row.width <;> simp [FieldWidth.bytes]), rfl⟩
  · cases h

theorem decodeField_of_le {row : FieldRow} {o : Nat} {s : State}
    (h : s.params.hdrLen + o + row.width.bytes ≤ s.params.rawCap) : ∃ t, decodeField row o s = .ok t := by
  unfold decodeField
  rw [Memory.loadRange_of_le h]
  exact ⟨_, rfl⟩

/-- `pcur <- v` (R98), where it fits. -/
theorem advancePcur_of_lt {v : Nat} {s : State} (h : v < 2 ^ 8) :
    advancePcur v s = s.setFr { s.fr with pcur := BitVec.ofNat 8 v } := by
  rw [advancePcur, pcurOf_of_lt h]

/-- `FD_STEP` (R98): the four things one field group can be. -/
theorem fdStep_cases {s t : State} (h : fdStep s = .ok t) :
    (known s.fr.cls s.fr.id = false ∧
      t = advancePcur s.fr.plen.toNat (s.raise (.unknownMessage s.fr.cls s.fr.id))) ∨
    (known s.fr.cls s.fr.id = true ∧ entry s.fr.cls s.fr.id s.fr.pcur.toNat = none ∧
      t = advancePcur (s.fr.pcur.toNat + s.params.skipW) s) ∨
    (known s.fr.cls s.fr.id = true ∧ ∃ row, entry s.fr.cls s.fr.id s.fr.pcur.toNat = some row ∧
      s.fr.plen.toNat < s.fr.pcur.toNat + row.width.bytes ∧
      t = advancePcur (s.fr.pcur.toNat + row.width.bytes) s) ∨
    (known s.fr.cls s.fr.id = true ∧ ∃ row u, entry s.fr.cls s.fr.id s.fr.pcur.toNat = some row ∧
      s.fr.pcur.toNat + row.width.bytes ≤ s.fr.plen.toNat ∧
      decodeField row s.fr.pcur.toNat s = .ok u ∧ t = advancePcur (s.fr.pcur.toNat + row.width.bytes) u) := by
  unfold fdStep at h
  dsimp only at h
  split at h
  · next hk =>
    split at h
    · next row he =>
      split at h
      · next hle =>
        split at h
        · next u hu => cases h; exact .inr (.inr (.inr ⟨hk, row, u, he, hle, hu, rfl⟩))
        · cases h
      · next hle => cases h; exact .inr (.inr (.inl ⟨hk, row, he, Nat.not_le.1 hle, rfl⟩))
    · next he => cases h; exact .inr (.inl ⟨hk, he, rfl⟩)
  · next hk => cases h; exact .inl ⟨by simpa using hk, rfl⟩

end Sys2Proof.Machine
end

