-- ==== Sys2Proof/Laws/Exec.lean ====
section
/-! SUPPORT. What a command, and a step, can do: the port and configuration checks once, and each effect once. -/

namespace Sys2Proof.Machine

@[simp] theorem outcome_next {r : Except Fault State} {t : State} : outcome r = .next t ↔ r = .ok t := by
  cases r <;> simp [outcome]

theorem configured_of_wf {s : State} (h : s.params.wf = true) (o : Host.Outcome State Fault Refusal) :
    configured s o = o := by simp [configured, h]

theorem configured_of_not_wf {s : State} (h : s.params.wf = false) (o : Host.Outcome State Fault Refusal) :
    configured s o = .refused .invalidConfiguration := by simp [configured, h]

theorem configured_next {s t : State} {o : Host.Outcome State Fault Refusal} :
    configured s o = .next t ↔ s.params.wf = true ∧ o = .next t := by
  unfold configured
  split <;> simp [*]

/-- The effect of a command on its own port. -/
def effectOf : Instr → State → Except Fault State
  | .pushRx b => pushEffect .rx b
  | .pushTx b => pushEffect .tx b
  | .popTx => popEffect .tx
  | .lenRx => lenEffect .rx
  | .lenTx => lenEffect .tx
  | .isEmptyRx => isEmptyEffect .rx
  | .isEmptyTx => isEmptyEffect .tx
  | .clearRx => clearEffect .rx
  | .clearTx => clearEffect .tx
  | .poll => pollEffect
  | .read r => readEffect r
  | .wdexp => wdexpEffect

/-- Every meaning is its effect behind the same two checks (R9, R55). -/
theorem exec_eq_onPort (i : Instr) (s : State) : exec i s = onPort i s (effectOf i) := by
  cases i <;> rfl

/-- A command that answers a state was run on its port, or was illegal there (R55, R57 (f)). -/
theorem onPort_next {i : Instr} {s t : State} {k : State → Except Fault State} :
    onPort i s k = .next t ↔ s.params.wf = true ∧
      ((s.port = i.port ∧ k s = .ok t) ∨ (s.port ≠ i.port ∧ t = illegalCommand (encode i) s)) := by
  unfold onPort
  rw [configured_next]
  by_cases hp : s.port = i.port
  · simp [hp]
  · rw [if_neg hp, Host.Outcome.next.injEq]
    simp only [hp, false_and, ne_eq, not_false_eq_true, true_and, false_or]
    exact and_congr_right fun _ => eq_comm

theorem exec_next {i : Instr} {s t : State} :
    exec i s = .next t ↔ s.params.wf = true ∧
      ((s.port = i.port ∧ effectOf i s = .ok t) ∨ (s.port ≠ i.port ∧ t = illegalCommand (encode i) s)) := by
  rw [exec_eq_onPort, onPort_next]

theorem exec_of_port {i : Instr} {s : State} (hw : s.params.wf = true) (hp : s.port = i.port) :
    exec i s = outcome (effectOf i s) := by
  rw [exec_eq_onPort, onPort, configured_of_wf hw, if_pos hp]

theorem exec_of_other_port {i : Instr} {s : State} (hw : s.params.wf = true) (hp : s.port ≠ i.port) :
    exec i s = .next (illegalCommand (encode i) s) := by
  rw [exec_eq_onPort, onPort, configured_of_wf hw, if_neg hp]

/-- `PUSH` (R72, R73). -/
theorem pushEffect_ok {q : RingSel} {b : Byte} {s t : State} : pushEffect q b s = .ok t ↔
    ∃ rb a, (s.ring q).push s.params q b = .ok (rb, a) ∧
      ((a = true ∧ t = (s.setRing q rb).respond true 1) ∨
        (a = false ∧ t = ((s.setRing q rb).raise (overflowOf q b)).respond true 0)) := by
  unfold pushEffect
  split
  · next rb h => simp [h, bit32, eq_comm]
  · next rb h => simp [h, bit32, eq_comm]
  · next f h => simp [h]

/-- `POP` (R74). -/
theorem popEffect_ok {q : RingSel} {s t : State} : popEffect q s = .ok t ↔
    ∃ rb v b, (s.ring q).pop s.params q = .ok (rb, v, b) ∧
      t = (s.setRing q rb).respond true (popData v b) := by
  unfold popEffect
  split
  · next rb v b h =>
    constructor
    · intro e
      cases e
      exact ⟨rb, v, b, h, rfl⟩
    · rintro ⟨rb', v', b', h', rfl⟩
      rw [h] at h'
      cases h'
      rfl
  · next f h => simp [h]

/-- `POLL` (R79). -/
theorem pollEffect_ok {s t : State} : pollEffect s = .ok t ↔
    ∃ u, pollFramer s = .ok u ∧ t = u.respond true 0 := by
  unfold pollEffect
  split
  · next u h => simp [h, eq_comm]
  · next f h => simp [h]

/-- A decoded word runs its command (R56). -/
theorem runCommand_ok {c : Command} {rest : List Input} {s : State} {i : Instr} (h : decode c.word = .ok i) :
    runCommand c rest s = exec i (s.accept c rest) := by simp [runCommand, h]

theorem runCommand_error {c : Command} {rest : List Input} {s : State} {e : Illegal}
    (h : decode c.word = .error e) :
    runCommand c rest s = execIllegalWord c.word (s.accept c rest) := by simp [runCommand, h]

/-- What a step can do: stand still, reset, run a command on its port, or take an illegal one. -/
theorem step_cases {s t : State} (h : step s = .next t) : s.params.wf = true ∧
    ((s.input = [] ∧ t = s) ∨
      (∃ lost rest, s.input = .reset lost :: rest ∧ t = applyReset rest s) ∨
      (∃ c rest i, s.input = .cmd c :: rest ∧ decode c.word = .ok i ∧ c.port = i.port ∧
        effectOf i (s.accept c rest) = .ok t) ∨
      (∃ c rest i, s.input = .cmd c :: rest ∧ decode c.word = .ok i ∧ c.port ≠ i.port ∧
        t = illegalCommand (encode i) (s.accept c rest)) ∨
      (∃ c rest e, s.input = .cmd c :: rest ∧ decode c.word = .error e ∧
        t = illegalCommand c.word (s.accept c rest))) := by
  unfold step at h
  split at h
  · next hi =>
    obtain ⟨hw, h⟩ := configured_next.1 h
    cases h
    exact ⟨hw, .inl ⟨hi, rfl⟩⟩
  · next lost rest hi =>
    obtain ⟨hw, h⟩ := configured_next.1 h
    cases h
    exact ⟨hw, .inr (.inl ⟨lost, rest, hi, rfl⟩)⟩
  · next c rest hi =>
    cases hd : decode c.word with
    | ok i =>
      rw [runCommand_ok hd, exec_next] at h
      obtain ⟨hw, ⟨hp, h⟩ | ⟨hp, h⟩⟩ := h
      · exact ⟨hw, .inr (.inr (.inl ⟨c, rest, i, hi, hd, hp, h⟩))⟩
      · exact ⟨hw, .inr (.inr (.inr (.inl ⟨c, rest, i, hi, hd, hp, h⟩)))⟩
    | error e =>
      rw [runCommand_error hd] at h
      obtain ⟨hw, h⟩ := configured_next.1 h
      cases h
      exact ⟨hw, .inr (.inr (.inr (.inr ⟨c, rest, e, hi, hd, rfl⟩)))⟩

/-- A command issued is a command run with nothing of its own left in the input (R45). -/
theorem issue_eq (c : Command) (s : State) : issue c s = runCommand c s.input { s with input := .cmd c :: s.input } :=
  rfl

end Sys2Proof.Machine
end

