-- ==== Sys2Proof/Laws/PerInstr.lean ====
section
/-! SUPPORT. Statements made for every command one by one. `Row`: the command's word has the bits, the mnemonic and the port
of one row of R56, and its fields carry its operand. -/

namespace Sys2Proof.Laws.Row

/-- The command's word is of a row of R56 with the command's mnemonic and port, and the low bits carry its operand
(R53): the byte of a push in `IMM`, the index of a `READ` in `SEL`, and 0 in `IMM` for every other command. -/
def Statement (i : Instr) : Prop :=
  (∃ row ∈ opcodeTable, row.matches (encode i) = true ∧ row.mnemonic = i.mnemonic ∧ row.port = i.port) ∧
  match i with
  | .pushRx b => (encode i).imm = b ∧ (encode i).sel = 0
  | .pushTx b => (encode i).imm = b ∧ (encode i).sel = 1
  | .read r => (encode i).imm = 0 ∧ (encode i).sel = r
  | .popTx => (encode i).imm = 0 ∧ (encode i).sel = 1
  | .lenRx => (encode i).imm = 0 ∧ (encode i).sel = 0
  | .lenTx => (encode i).imm = 0 ∧ (encode i).sel = 1
  | .isEmptyRx => (encode i).imm = 0 ∧ (encode i).sel = 0
  | .isEmptyTx => (encode i).imm = 0 ∧ (encode i).sel = 1
  | .clearRx => (encode i).imm = 0 ∧ (encode i).sel = 0
  | .clearTx => (encode i).imm = 0 ∧ (encode i).sel = 1
  | .poll => (encode i).imm = 0 ∧ (encode i).sel = 0
  | .wdexp => (encode i).imm = 0 ∧ (encode i).sel = 0

theorem pushRx (b : Byte) : Statement (.pushRx b) :=
  ⟨⟨⟨"PUSH.RX", 0x1000, 0xFF00, .serRx⟩, by simp [opcodeTable], by revert b; decide, rfl, rfl⟩, by simp [encode]⟩

theorem pushTx (b : Byte) : Statement (.pushTx b) :=
  ⟨⟨⟨"PUSH.TX", 0x1100, 0xFF00, .host⟩, by simp [opcodeTable], by revert b; decide, rfl, rfl⟩, by simp [encode]⟩

theorem popTx : Statement .popTx :=
  ⟨⟨⟨"POP.TX", 0x2100, 0xFFFF, .serTx⟩, by simp [opcodeTable], rfl, rfl, rfl⟩, rfl, rfl⟩

theorem lenRx : Statement .lenRx :=
  ⟨⟨⟨"LEN.RX", 0x3000, 0xFFFF, .host⟩, by simp [opcodeTable], rfl, rfl, rfl⟩, rfl, rfl⟩

theorem lenTx : Statement .lenTx :=
  ⟨⟨⟨"LEN.TX", 0x3100, 0xFFFF, .host⟩, by simp [opcodeTable], rfl, rfl, rfl⟩, rfl, rfl⟩

theorem isEmptyRx : Statement .isEmptyRx :=
  ⟨⟨⟨"ISEMPTY.RX", 0x4000, 0xFFFF, .host⟩, by simp [opcodeTable], rfl, rfl, rfl⟩, rfl, rfl⟩

theorem isEmptyTx : Statement .isEmptyTx :=
  ⟨⟨⟨"ISEMPTY.TX", 0x4100, 0xFFFF, .host⟩, by simp [opcodeTable], rfl, rfl, rfl⟩, rfl, rfl⟩

theorem clearRx : Statement .clearRx :=
  ⟨⟨⟨"CLEAR.RX", 0x5000, 0xFFFF, .host⟩, by simp [opcodeTable], rfl, rfl, rfl⟩, rfl, rfl⟩

theorem clearTx : Statement .clearTx :=
  ⟨⟨⟨"CLEAR.TX", 0x5100, 0xFFFF, .host⟩, by simp [opcodeTable], rfl, rfl, rfl⟩, rfl, rfl⟩

theorem poll : Statement .poll :=
  ⟨⟨⟨"POLL", 0x6000, 0xFFFF, .host⟩, by simp [opcodeTable], rfl, rfl, rfl⟩, rfl, rfl⟩

theorem read (r : BitVec 4) : Statement (.read r) :=
  ⟨⟨⟨"READ", 0x7000, 0xF0FF, .host⟩, by simp [opcodeTable], by revert r; decide, rfl, rfl⟩, by simp [encode]⟩

theorem wdexp : Statement .wdexp :=
  ⟨⟨⟨"WDEXP", 0x8000, 0xFFFF, .timer⟩, by simp [opcodeTable], rfl, rfl, rfl⟩, rfl, rfl⟩

end Sys2Proof.Laws.Row
end

