-- ==== Sys2Proof/Laws/Poll.lean ====
section
/-! SUPPORT. Everything a poll can do, case by case, as two inductive relations: `ByteStep` for the byte that a poll in
Reading consumes, `PollStep` for the whole poll. Later proofs split these and never unfold the framer. -/

namespace Sys2Proof.Machine

/-- `CK_ACC` through the sums alone (R82). -/
theorem ckAcc_sumsWith (p : Params) (fr : Framer) (b : Byte) :
    ckAcc p fr b = { fr with ckA := (fr.sumsWith p b).1, ckB := (fr.sumsWith p b).2 } := by
  unfold ckAcc Framer.sumsWith fletcherStep
  cases p.ckFn <;> rfl

/-- The framer of a state with byte `b` at raw index `i` (R83 to R89). -/
abbrev State.rawSet (s : State) (i : Nat) (b : Byte) : Framer := { s.fr with raw := s.fr.raw.write i b }

/-- What the byte `b` at cursor `c` can do to the state from which it was popped (R83 to R90). -/
inductive ByteStep (c : Nat) (b : Byte) (s : State) : State → Prop
  | noise1 (hc : c = 0) (hb : b ≠ s.params.sync1) : ByteStep c b s (framingError (.sync1Mismatch b) s)
  | sync1 (hc : c = 0) (hb : b = s.params.sync1) (hr : c < s.params.rawCap) :
    ByteStep c b s (s.setFr { s.rawSet c b with cursor := 1 })
  | noise2 (hc : c = 1) (hb : b ≠ s.params.sync2) : ByteStep c b s (framingError (.sync2Mismatch b) s)
  | sync2 (hc : c = 1) (hb : b = s.params.sync2) (hr : c < s.params.rawCap) :
    ByteStep c b s (((s.setFr { s.rawSet c b with cursor := 2 }).setConn ⟨true, true⟩).emitArm)
  | takeCls (hc : c = 2) (hr : c < s.params.rawCap) :
    ByteStep c b s (s.setFr (takeClass s.params b (s.rawSet c b)))
  | takeId (hc : c = 3) (hr : c < s.params.rawCap) :
    ByteStep c b s (s.setFr (Machine.takeId s.params b (s.rawSet c b)))
  | lenLo (hc : c = 4) (hr : c < s.params.rawCap) :
    ByteStep c b s (s.setFr (takeLenLo s.params b (s.rawSet c b)))
  | lenHi (hc : c = 5) (hr : c < s.params.rawCap)
    (hl : total s.params (withHighByte s.fr.plen b) ≤ s.params.rawCap) :
    ByteStep c b s (s.setFr (takeLenHi s.params b (s.rawSet c b)))
  | oversize (hc : c = 5) (hr : c < s.params.rawCap)
    (hl : s.params.rawCap < total s.params (withHighByte s.fr.plen b)) :
    ByteStep c b s (framingError (.oversize (withHighByte s.fr.plen b))
      (s.setFr (takeLenHi s.params b (s.rawSet c b))))
  | body (hc : 6 ≤ c) (hr : c < s.params.rawCap) (hn : c ≠ total s.params s.fr.plen - 1) :
    ByteStep c b s (s.setFr (takeBody s.params c b (s.rawSet c b)))
  | complete (hc : 6 ≤ c) (hr : c < s.params.rawCap) (hn : c = total s.params s.fr.plen - 1) (ok : Bool)
    (hv : ckVerdict s.params (takeBody s.params c b (s.rawSet c b)) = .ok ok) :
    ByteStep c b s (applyPolicy ok (takeVerdict ok (s.setFr (takeBody s.params c b (s.rawSet c b)))))

@[simp] theorem takeBody_plen (p : Params) (c : Nat) (b : Byte) (fr : Framer) :
    (takeBody p c b fr).plen = fr.plen := by
  unfold takeBody
  split <;> simp

/-- A byte read is a byte step. -/
theorem readByte_step {c : Nat} {b : Byte} {s t : State} (h : readByte c b s = .ok t) : ByteStep c b s t := by
  by_cases h6 : 6 ≤ c
  · rw [readByte_of_ge h6] at h
    obtain ⟨hr, h⟩ := readBody_ok.1 h
    rcases finishBody_ok.1 h with ⟨hn, h⟩ | ⟨hn, rfl⟩
    · obtain ⟨ok, hv, rfl⟩ := frameComplete_ok.1 h
      exact .complete h6 hr (by simpa using hn) ok hv
    · exact .body h6 hr (by simpa using hn)
  · match c, h6, h with
    | 0, _, h =>
      rcases readSync1_ok.1 h with ⟨hb, rfl⟩ | ⟨hb, hr, rfl⟩
      · exact .noise1 rfl hb
      · exact .sync1 rfl hb hr
    | 1, _, h =>
      rcases readSync2_ok.1 h with ⟨hb, rfl⟩ | ⟨hb, hr, rfl⟩
      · exact .noise2 rfl hb
      · exact .sync2 rfl hb hr
    | 2, _, h => obtain ⟨hr, rfl⟩ := readClass_ok.1 h; exact .takeCls rfl hr
    | 3, _, h => obtain ⟨hr, rfl⟩ := readId_ok.1 h; exact .takeId rfl hr
    | 4, _, h => obtain ⟨hr, rfl⟩ := readLenLo_ok.1 h; exact .lenLo rfl hr
    | 5, _, h =>
      obtain ⟨hr, rfl⟩ := readLenHi_ok.1 h
      rcases checkLength_cases (s.setFr (takeLenHi s.params b (s.rawSet 5 b))) with ⟨hl, e⟩ | ⟨hl, e⟩
      · rw [e]
        exact .oversize rfl hr (by simpa [takeLenHi] using hl)
      · rw [e]
        exact .lenHi rfl hr (by simpa [takeLenHi] using hl)
    | k + 6, h6, _ => exact absurd (Nat.le_add_left 6 k) h6

/-- The state with the oldest byte of `RB_RX` popped (R67, R81). -/
abbrev State.popped (s : State) : State := s.setRing .rx { s.rx with head := incN s.params.rxN s.rx.head }

/-- Everything a poll can do (R79 to R91, R98), before its response. -/
inductive PollStep (s : State) : State → Prop
  | start (h : s.fr.fstate = .idle) (ho : 0 < s.rx.occ s.params.rxN) :
    PollStep s (s.setFr { s.fr with
      fstate := .reading, cursor := 0, cls := 0, id := 0, plen := 0, ckA := 0, ckB := 0, pcur := 0 })
  | quiet (h : s.fr.fstate = .idle) (ho : s.rx.occ s.params.rxN = 0) : PollStep s s
  | wait (h : s.fr.fstate = .reading) (ho : s.rx.occ s.params.rxN = 0 ∨ s.fr.frameReady = true) : PollStep s s
  | byte (h : s.fr.fstate = .reading) (ho : s.rx.occ s.params.rxN ≠ 0) (hf : s.fr.frameReady = false)
    (hh : s.rx.head < s.params.rxN) (t : State) (hb : ByteStep s.fr.cursor.toNat s.nextByte s.popped t) :
    PollStep s t
  | done (h : s.fr.fstate = .parsing) (hl : s.fr.plen.toNat ≤ s.fr.pcur.toNat) :
    PollStep s (s.setFr { s.fr with frameReady := false, fstate := .idle })
  | unknown (h : s.fr.fstate = .parsing) (hl : s.fr.pcur.toNat < s.fr.plen.toNat)
    (hk : known s.fr.cls s.fr.id = false) :
    PollStep s ((s.raise (.unknownMessage s.fr.cls s.fr.id)).setFr
      { s.fr with pcur := pcurOf s.fr.plen.toNat })
  | skip (h : s.fr.fstate = .parsing) (hl : s.fr.pcur.toNat < s.fr.plen.toNat)
    (hk : known s.fr.cls s.fr.id = true) (he : entry s.fr.cls s.fr.id s.fr.pcur.toNat = none) :
    PollStep s (s.setFr { s.fr with pcur := pcurOf (s.fr.pcur.toNat + s.params.skipW) })
  | misfit (h : s.fr.fstate = .parsing) (hl : s.fr.pcur.toNat < s.fr.plen.toNat)
    (hk : known s.fr.cls s.fr.id = true) (row : FieldRow)
    (he : entry s.fr.cls s.fr.id s.fr.pcur.toNat = some row)
    (hw : s.fr.plen.toNat < s.fr.pcur.toNat + row.width.bytes) :
    PollStep s (s.setFr { s.fr with pcur := pcurOf (s.fr.pcur.toNat + row.width.bytes) })
  | field (h : s.fr.fstate = .parsing) (hl : s.fr.pcur.toNat < s.fr.plen.toNat)
    (hk : known s.fr.cls s.fr.id = true) (row : FieldRow)
    (he : entry s.fr.cls s.fr.id s.fr.pcur.toNat = some row)
    (hw : s.fr.pcur.toNat + row.width.bytes ≤ s.fr.plen.toNat)
    (hr : s.params.hdrLen + s.fr.pcur.toNat + row.width.bytes ≤ s.params.rawCap) :
    PollStep s ((s.setTel (FieldRow.apply row
        (leWord (s.fr.rawBytes (s.params.hdrLen + s.fr.pcur.toNat) row.width.bytes)) s.tel)).setFr
      { s.fr with pcur := pcurOf (s.fr.pcur.toNat + row.width.bytes) })

/-- The framer's step is one of these. -/
theorem pollFramer_step {s t : State} (h : pollFramer s = .ok t) : PollStep s t := by
  unfold pollFramer at h
  split at h
  · next hs =>
    cases h
    unfold pollIdle
    split
    · next ho => exact .start hs ho
    · next ho => exact .quiet hs (by omega)
  · next hs =>
    rcases pollReading_ok.1 h with ⟨ho, rfl⟩ | ⟨ho, hf, hh, h⟩
    · exact .wait hs ho
    · exact .byte hs ho hf hh t (readByte_step h)
  · next hs =>
    unfold pollParsing at h
    split at h
    · next hl => cases h; exact .done hs hl
    · next hl =>
      have hl := Nat.not_le.1 hl
      rcases fdStep_cases h with ⟨hk, rfl⟩ | ⟨hk, he, rfl⟩ | ⟨hk, row, he, hw, rfl⟩ | ⟨hk, row, u, he, hw, hu, rfl⟩
      · exact .unknown hs hl hk
      · exact .skip hs hl hk he
      · exact .misfit hs hl hk row he hw
      · obtain ⟨hr, rfl⟩ := decodeField_ok hu
        exact .field hs hl hk row he hw hr

/-- A poll's answer is a poll step with the response given (R79). -/
theorem pollEffect_step {s t : State} (h : pollEffect s = .ok t) : ∃ u, PollStep s u ∧ t = u.respond true 0 := by
  obtain ⟨u, hu, rfl⟩ := pollEffect_ok.1 h
  exact ⟨u, pollFramer_step hu, rfl⟩

/-- A poll that takes a byte runs that byte's case and responds (R81). -/
theorem exec_poll_of_byte {s t : State} {c : Nat} (h : s.takesByte) (hc : s.fr.cursor.toNat = c)
    (ht : readByte c s.nextByte s.popped = .ok t) : exec .poll s = .next (t.respond true 0) := by
  obtain ⟨hw, hp, hr, hf, ho, hh⟩ := h
  rw [exec_of_port (i := .poll) hw hp, outcome_next]
  refine pollEffect_ok.2 ⟨t, ?_, rfl⟩
  unfold pollFramer
  rw [hr]
  refine pollReading_ok.2 (.inr ⟨ho, hf, hh, ?_⟩)
  rw [hc]
  exact ht

/-- What no command but `POLL` changes. -/
theorem effectOf_keeps {i : Instr} {s t : State} (hi : i ≠ .poll) (h : effectOf i s = .ok t) :
   t.fr = s.fr ∧ t.tel = s.tel ∧ t.params = s.params ∧ t.port = s.port ∧ t.input = s.input := by
  cases i with
  | poll => exact absurd rfl hi
  | pushRx b => obtain ⟨rb, a, hp, ⟨-, rfl⟩ | ⟨-, rfl⟩⟩ := pushEffect_ok.1 h <;> exact ⟨rfl, rfl, rfl, rfl, rfl⟩
  | pushTx b => obtain ⟨rb, a, hp, ⟨-, rfl⟩ | ⟨-, rfl⟩⟩ := pushEffect_ok.1 h <;> exact ⟨rfl, rfl, rfl, rfl, rfl⟩
  | popTx => obtain ⟨rb, v, b, hp, rfl⟩ := popEffect_ok.1 h; exact ⟨rfl, rfl, rfl, rfl, rfl⟩
  | read r => simp only [effectOf, readEffect] at h; split at h <;> cases h <;> exact ⟨rfl, rfl, rfl, rfl, rfl⟩
  | wdexp => cases h; split <;> exact ⟨rfl, rfl, rfl, rfl, rfl⟩
  | _ => cases h; exact ⟨rfl, rfl, rfl, rfl, rfl⟩

/-- What a command other than `POLL` adds to the history, and does to the link (R72, R73, R107, R113). -/
theorem effectOf_history {i : Instr} {s t : State} (hi : i ≠ .poll) (h : effectOf i s = .ok t) (hr : i.wf = true) :
   (t.conn = s.conn ∧ t.history = s.history) ∨
   (∃ b, i = .pushRx b ∧ t.conn = s.conn ∧ t.history = s.history ++ [.cond (.rxOverflow b)]) ∨
   (∃ b, i = .pushTx b ∧ t.conn = s.conn ∧ t.history = s.history ++ [.cond (.txOverflow b)]) ∨
   (i = .wdexp ∧ s.conn.wdArmed = true ∧ t.conn = ⟨false,false⟩ ∧ t.history = s.history ++ [.cond .disconnected]) := by
  cases i with
  | poll => exact absurd rfl hi
  | pushRx b => obtain ⟨rb, a, hp, ⟨-, rfl⟩ | ⟨-, rfl⟩⟩ := pushEffect_ok.1 h; exact .inl ⟨rfl, rfl⟩; exact .inr (.inl ⟨b, rfl, rfl, rfl⟩)
  | pushTx b => obtain ⟨rb, a, hp, ⟨-, rfl⟩ | ⟨-, rfl⟩⟩ := pushEffect_ok.1 h; exact .inl ⟨rfl, rfl⟩; exact .inr (.inr (.inl ⟨b, rfl, rfl, rfl⟩))
  | popTx => obtain ⟨rb, v, b, hp, rfl⟩ := popEffect_ok.1 h; exact .inl ⟨rfl, rfl⟩
  | read r =>
    simp only [effectOf, readEffect] at h; split at h <;> cases h
    · exact .inl ⟨rfl, rfl⟩
    · next he => exfalso; revert he hr; revert r; decide
  | wdexp => 
     cases h; split 
     · next h => exact .inr (.inr (.inr ⟨rfl, h, rfl, rfl⟩))
     · exact .inl ⟨rfl, rfl⟩
  | _ => cases h; exact .inl ⟨rfl, rfl⟩

/-- What a byte step adds to the history, with the link and the error counters (R83, R84, R88, R90, R110). -/
theorem byteStep_history {c : Nat} {b : Byte} {s t : State} (h : ByteStep c b s t) :
   t.params = s.params ∧ t.tel = s.tel ∧ t.tx = s.tx ∧ t.rx = s.rx ∧ t.port = s.port ∧ t.input = s.input ∧
   ((t.conn = s.conn ∧ t.history = s.history ∧ t.fr.feCnt = s.fr.feCnt ∧ t.fr.ckErrCnt = s.fr.ckErrCnt) ∨
    (∃ x, t.conn = s.conn ∧ t.history = s.history ++ [.cond x] ∧ Event.link (.cond x) = none ∧ Event.ofPoll s.params (.cond x) ∧
      (Event.isFramingError (.cond x) = true ∧ Event.isCkMismatch (.cond x) = false ∧ t.fr.feCnt = s.params.satInc s.fr.feCnt ∧ t.fr.ckErrCnt = s.fr.ckErrCnt ∨
       Event.isFramingError (.cond x) = false ∧ Event.isCkMismatch (.cond x) = true ∧ t.fr.ckErrCnt = s.params.satInc s.fr.ckErrCnt ∧ t.fr.feCnt = s.fr.feCnt)) ∨
    (c = 1 ∧ b = s.params.sync2 ∧ t.conn = ⟨true, true⟩ ∧ t.history = s.history ++ [.arm s.params.wdTimeoutMs] ∧ t.fr.feCnt = s.fr.feCnt ∧ t.fr.ckErrCnt = s.fr.ckErrCnt)) := by
  cases h with
  | noise1 hc hb => exact ⟨rfl, rfl, rfl, rfl, rfl, rfl, .inr (.inl ⟨_, rfl, rfl, rfl, trivial, .inl ⟨rfl, rfl, rfl, rfl⟩⟩)⟩
  | noise2 hc hb => exact ⟨rfl, rfl, rfl, rfl, rfl, rfl, .inr (.inl ⟨_, rfl, rfl, rfl, trivial, .inl ⟨rfl, rfl, rfl, rfl⟩⟩)⟩
  | sync2 hc hb => exact ⟨rfl, rfl, rfl, rfl, rfl, rfl, .inr (.inr ⟨hc, hb, rfl, rfl, rfl, rfl⟩)⟩
  | oversize hc hr hl => exact ⟨rfl, rfl, rfl, rfl, rfl, rfl, .inr (.inl ⟨_, rfl, rfl, rfl, trivial, .inl ⟨rfl, rfl, by simp [framingError, takeLenHi], by simp [framingError, takeLenHi]⟩⟩)⟩
  | complete hc hr hn ok hv =>
    have e1 : (takeBody s.params c b (s.rawSet c b)).feCnt = s.fr.feCnt := by unfold takeBody; split <;> simp
    have e2 : (takeBody s.params c b (s.rawSet c b)).ckErrCnt = s.fr.ckErrCnt := by unfold takeBody; split <;> simp
    generalize takeBody s.params c b (s.rawSet c b) = fr at *
    rcases takeVerdict_cases ok (s.setFr fr) with ⟨rfl, e⟩ | ⟨rfl, e⟩ <;> rw [e]
    · refine ⟨rfl, rfl, rfl, rfl, rfl, rfl, .inl ⟨rfl, rfl, e1, e2⟩⟩
    · unfold applyPolicy
      split
      · exact ⟨rfl, rfl, rfl, rfl, rfl, rfl, .inr (.inl ⟨_, rfl, rfl, rfl, trivial, .inr ⟨rfl, rfl, by simpa using congrArg s.params.satInc e2, e1⟩⟩)⟩
      · exact ⟨rfl, rfl, rfl, rfl, rfl, rfl, .inr (.inl ⟨_, rfl, rfl, rfl, trivial, .inr ⟨rfl, rfl, by simpa using congrArg s.params.satInc e2, e1⟩⟩)⟩
  | body hc hr hn => exact ⟨rfl, rfl, rfl, rfl, rfl, rfl, .inl ⟨rfl, rfl, by unfold takeBody; split <;> simp, by unfold takeBody; split <;> simp⟩⟩
  | _ => exact ⟨rfl, rfl, rfl, rfl, rfl, rfl, .inl ⟨rfl, rfl, by simp [takeClass, Machine.takeId, takeLenLo, takeLenHi], by simp [takeClass, Machine.takeId, takeLenLo, takeLenHi]⟩⟩

/-- What a poll step adds to the history, with the link and the error counters (R92, R110). -/
theorem pollStep_history {s t : State} (h : PollStep s t) :
   t.params = s.params ∧ t.tx = s.tx ∧ t.port = s.port ∧ t.input = s.input ∧
   ((t.conn = s.conn ∧ t.history = s.history ∧ t.fr.feCnt = s.fr.feCnt ∧ t.fr.ckErrCnt = s.fr.ckErrCnt) ∨
    (∃ x, t.conn = s.conn ∧ t.history = s.history ++ [.cond x] ∧ Event.link (.cond x) = none ∧ Event.ofPoll s.params (.cond x) ∧
      (Event.isFramingError (.cond x) = true ∧ Event.isCkMismatch (.cond x) = false ∧ t.fr.feCnt = s.params.satInc s.fr.feCnt ∧ t.fr.ckErrCnt = s.fr.ckErrCnt ∨
       Event.isFramingError (.cond x) = false ∧ Event.isCkMismatch (.cond x) = true ∧ t.fr.ckErrCnt = s.params.satInc s.fr.ckErrCnt ∧ t.fr.feCnt = s.fr.feCnt ∨
       Event.isFramingError (.cond x) = false ∧ Event.isCkMismatch (.cond x) = false ∧ t.fr.ckErrCnt = s.fr.ckErrCnt ∧ t.fr.feCnt = s.fr.feCnt)) ∨
    (s.fr.fstate = .reading ∧ s.fr.cursor = 1 ∧ s.nextByte = s.params.sync2 ∧ t.conn = ⟨true, true⟩ ∧ t.history = s.history ++ [.arm s.params.wdTimeoutMs] ∧ t.fr.feCnt = s.fr.feCnt ∧ t.fr.ckErrCnt = s.fr.ckErrCnt)) := by
  cases h with
  | byte h ho hf hh t hb =>
    obtain ⟨a1, a2, a3, a4, a5, a6, a7⟩ := byteStep_history hb
    refine ⟨a1, a3, a5, a6, ?_⟩
    rcases a7 with a | ⟨x, b1, b2, b3, b5, b4⟩ | ⟨c1, c2, c3, c4⟩
    · exact .inl a
    · exact .inr (.inl ⟨x, b1, b2, b3, b5, by rcases b4 with b | b; exact .inl b; exact .inr (.inl b)⟩)
    · exact .inr (.inr ⟨h, BitVec.eq_of_toNat_eq c1, c2, c3, c4⟩)
  | unknown h hl hk => exact ⟨rfl, rfl, rfl, rfl, .inr (.inl ⟨_, rfl, rfl, rfl, trivial, .inr (.inr ⟨rfl, rfl, rfl, rfl⟩)⟩)⟩
  | _ => exact ⟨rfl, rfl, rfl, rfl, .inl ⟨rfl, rfl, rfl, rfl⟩⟩

/-- The link after one more event. -/
theorem linkOf_append (h : List Event) (e : Event) : linkOf (h ++ [e]) = (e.link).getD (linkOf h) := by
  unfold linkOf; rw [List.filterMap_append]
  cases he : e.link <;> simp [he]

end Sys2Proof.Machine
end

