-- ==== Sys2Proof/Tests/Slice0.lean ====
section
/-! SUPPORT. Tests of the model, with results from spec/95_test_vectors.md (its vector's name is in each docstring) and from
the encodings of R56; and, for every statement with hypotheses, a witness: concrete states and operands that meet them,
clause by clause, at the boundaries. -/

namespace Sys2Proof.Tests

open Sys2Proof Sys2Proof.Machine

/-! ### Small states -/

/-- The entries of bytes stored from index `i` on. -/
def storeOf : Nat → List Byte → Memory
  | _, [] => []
  | i, b :: bs => if b = 0 then storeOf (i + 1) bs else (i, b) :: storeOf (i + 1) bs

/-- A ring that holds `bs`, its head at `h`, with no wrap. -/
def ringOf (h : Nat) (bs : List Byte) : Ring := ⟨storeOf h bs, h, h + bs.length, 0⟩

/-- The state after reset, with `TX_N = 4` (95_test_vectors.md). -/
def start : State := .reset

/-- Reset, with `rb` as `RB_TX`. -/
def withTx (rb : Ring) : State := { start with tx := rb }

/-- `RB_TX` with head 2 and tail 1, full: V-RB-5. -/
def wrapped : Ring := ⟨[(0, 5), (1, 2), (2, 3), (3, 4)], 2, 1, 0⟩

/-- Reset, with `bs` queued in `RB_RX`. -/
def withRx (bs : List Byte) : State := { start with rx := ringOf 0 bs }

/-- The framer in Reading after the bytes `got` of a frame. -/
def readingFr (got : List Byte) : Framer :=
  let plen : BitVec 16 := got.getD 5 0 ++ got.getD 4 0
  let sums := fletcher8 ((got.drop 2).take (plen.toNat + 4))
  { Framer.reset with
    fstate := .reading, raw := storeOf 0 got, cursor := BitVec.ofNat 8 got.length
    cls := got.getD 2 0, id := got.getD 3 0, plen := plen, ckA := sums.1, ckB := sums.2 }

/-- A state in Reading after the bytes `got`, with `rest` still queued. -/
def reading (got rest : List Byte) : State := { withRx rest with fr := readingFr got }

/-- A state in Parsing at offset `o` of the frame `got`. -/
def parsing (got : List Byte) (o : BitVec 8) : State :=
  { start with fr := { readingFr got with fstate := .parsing, frameReady := true, lastCkValid := true, pcur := o } }

/-- A state in Reading with a byte waiting and `raw` full. -/
def pastRaw : State := { reading [] [0] with fr := { readingFr [] with cursor := 255 } }

/-- `F_ST5`: class 1, id 3, five payload bytes, `fix_status = 2`. -/
def fST5 : List Byte := [0xB5, 0x62, 0x01, 0x03, 0x05, 0x00, 0x11, 0x22, 0x33, 0x44, 0x02, 0xB5, 0x44]

/-- `F_EMPTY`: class 1, id 3, no payload. -/
def fEmpty : List Byte := [0xB5, 0x62, 0x01, 0x03, 0x00, 0x00, 0x04, 0x0D]

/-- `F_UNK`: class 2, id 0x10, two payload bytes. -/
def fUnk : List Byte := [0xB5, 0x62, 0x02, 0x10, 0x02, 0x00, 0xAA, 0x55, 0x13, 0x0D]

/-- The frame of V-FD-3: a position frame of 18 payload bytes, `lon` the most negative number. -/
def fPos18 : List Byte := [0xB5, 0x62, 0x01, 0x02, 0x12, 0x00, 0, 0, 0, 0, 0, 0, 0, 0x80, 0, 0, 0, 0, 0, 0, 0, 0, 0x11, 0x22,
  0xC8, 0x6C]

/-- A position frame of 20 payload bytes, all but its checksum. -/
def fPos20 : List Byte := [0xB5, 0x62, 0x01, 0x02, 0x14, 0x00] ++ List.replicate 20 0x01

/-- The configuration with the least of everything whose frames end, the one with the most, and one with other header and
checksum lengths. -/
def least : Params :=
  { Params.default with rxN := 2, txN := 2, rawCap := 7, hdrLen := 5, ckLen := 2, skipW := 1, cntW := 1 }
def most : Params := { Params.default with rawCap := 255, skipW := 4, cntW := 64, ckPolicy := .accept, ckFn := .other }
def longer : Params := { Params.default with hdrLen := 7, ckLen := 3 }

/-- `s` with a command on a port as its next input. -/
def given (s : State) (p : Port) (w : Word) : State := { s with input := [.cmd ⟨p, w⟩] }

/-- The state after one command on a port; none where it stops. -/
def after (s : State) (p : Port) (w : Word) : Option State :=
  match step (given s p w) with
  | .next t => some t
  | .fault _ => none
  | .refused _ => none

/-- Its response. -/
def answer (s : State) (p : Port) (w : Word) : Option Response := (after s p w).bind State.resp

/-- What it appends to an empty history. -/
def events (s : State) (p : Port) (w : Word) : Option (List Event) := (after s p w).map State.history

/-! ### Well-formedness, decoding, encoding -/

/-- R56: `READ` has no legal word for the reserved indices. -/
theorem test_wf_refuses_read_0xE : (Instr.read 0xE).wf = false := by decide
theorem test_wf_refuses_read_0xF : (Instr.read 0xF).wf = false := by decide
theorem test_wf_takes_read_0xD : (Instr.read 0xD).wf = true := by decide

/-- R56, row by row, from the fields `OP`, `SEL`, `IMM`. -/
theorem test_decode_pushRx : decode 0b0001000010110101 = .ok (.pushRx 0xB5) := by decide
theorem test_decode_pushTx : decode 0b0001000101000001 = .ok (.pushTx 0x41) := by decide
theorem test_decode_popTx : decode 0b0010000100000000 = .ok .popTx := by decide
theorem test_decode_lenRx : decode 0b0011000000000000 = .ok .lenRx := by decide
theorem test_decode_lenTx : decode 0b0011000100000000 = .ok .lenTx := by decide
theorem test_decode_isEmptyRx : decode 0b0100000000000000 = .ok .isEmptyRx := by decide
theorem test_decode_isEmptyTx : decode 0b0100000100000000 = .ok .isEmptyTx := by decide
theorem test_decode_clearRx : decode 0b0101000000000000 = .ok .clearRx := by decide
theorem test_decode_clearTx : decode 0b0101000100000000 = .ok .clearTx := by decide
theorem test_decode_poll : decode 0b0110000000000000 = .ok .poll := by decide
theorem test_decode_read : decode 0b0111110100000000 = .ok (.read 0xD) := by decide
theorem test_decode_wdexp : decode 0b1000000000000000 = .ok .wdexp := by decide

/-- R57 (a) to (e), with V-EN-5, V-EN-6, V-EN-7, V-EN-9, V-EN-10, V-EN-12, V-EN-13, V-EN-14. -/
theorem test_decode_rejects :
    [(0x0000 : Word), 0x9000, 0xF000, 0x1200, 0x2000, 0x2001, 0x3200, 0x3001, 0x6001, 0x7E00, 0x7F00, 0x8100].all
      (fun w => match decode w with | .ok _ => false | .error _ => true) = true := by decide

/-- The encoder's words, from R56. -/
theorem test_encode : [encode (.pushRx 0x01), encode (.pushTx 0x44), encode .popTx, encode .lenTx, encode (.read 2),
    encode .wdexp] = [0x1001, 0x1144, 0x2100, 0x3100, 0x7200, 0x8000] := by decide

/-- The table's numbering: one word of 16 bits. -/
theorem test_decodeTableWord : decodeTableWord 16 0x7000 = some (.read 0) ∧ decodeTableWord 16 0x2000 = none := by
  decide

/-- A line of program P1, and a `FEED` of P2 (R58, R59). -/
theorem test_assemble_line : assemble ['H', 'O', 'S', 'T', ':', ' ', ' ', ' ', 'P', 'U', 'S', 'H', '.', 'T', 'X', ' ',
    '0', 'x', '4', '1', ' ', '=', '>', ' ', '0', 'x'] = some [⟨.host, 0x1141⟩] := by decide
theorem test_assemble_feed : assemble ['S', 'E', 'R', '_', 'R', 'X', ':', ' ', 'F', 'E', 'E', 'D', ' ', 'B', '5', ' ',
    '6', '2'] = some [⟨.serRx, 0x10B5⟩, ⟨.serRx, 0x1062⟩] := by decide

/-! ### Steps -/

/-- A word placed after reset is the very next step, on its own port: `LEN.RX` and `WDEXP` each give `{1, 0}`. -/
theorem test_withFetchWord_host : (match step (start.withFetchWord 16 0x3000) with
    | .next t => t.resp | _ => none) = some ⟨true, 0⟩ := by decide
theorem test_withFetchWord_timer : (match step (start.withFetchWord 16 0x8000) with
    | .next t => t.resp | _ => none) = some ⟨true, 0⟩ := by decide

/-- With nothing left to apply, a step stands still (R123). -/
theorem test_step_idle : (match step start with | .next t => decide (t = start) | _ => false) = true := by decide

/-- V-EN-1. -/
theorem test_pushRx : (after start .serRx 0x10B5).map (fun t => (t.rx, t.resp)) =
    some (⟨[(0, 0xB5)], 0, 1, 0⟩, some ⟨true, 1⟩) := by decide
/-- V-RB-10, at its last push. -/
theorem test_pushRx_full : (after { State.resetWith { Params.default with rxN := 4 } with
    rx := ringOf 0 [0xB5, 0x62, 0x01] } .serRx 0x1002).map (fun t => (t.rx.ovf, t.resp, t.history)) =
    some (1, some ⟨true, 0⟩, [.cond (.rxOverflow 2)]) := by decide

/-- V-RB-4. -/
theorem test_pushTx_wraps : (after (withTx ⟨[(0, 1), (1, 2), (2, 3)], 2, 3, 0⟩) .host 0x1104).map
    (fun t => (t.tx, t.resp)) = some (⟨[(0, 1), (1, 2), (2, 3), (3, 4)], 2, 0, 0⟩, some ⟨true, 1⟩) := by decide
/-- V-RB-6. -/
theorem test_pushTx_full : (after (withTx wrapped) .host 0x1106).map (fun t => (t.tx, t.resp, t.history)) =
    some ({ wrapped with ovf := 1 }, some ⟨true, 0⟩, [.cond (.txOverflow 6)]) := by decide

/-- V-RB-3, its first pop; V-RB-1, its sentinel. -/
theorem test_popTx : (after (withTx (ringOf 0 [1, 2, 3])) .serTx 0x2100).map (fun t => (t.tx.head, t.resp)) =
    some (1, some ⟨true, 0x101⟩) := by decide
theorem test_popTx_empty : (after start .serTx 0x2100).map (fun t => (t.tx, t.resp)) =
    some (start.tx, some ⟨true, 0x000⟩) := by decide

/-- P2: `LEN.RX` of 24 bytes. -/
theorem test_lenRx : answer { start with rx := ⟨[], 0, 24, 0⟩ } .host 0x3000 = some ⟨true, 0x18⟩ := by decide
/-- V-RB-5. -/
theorem test_lenTx_wrapped : answer (withTx wrapped) .host 0x3100 = some ⟨true, 3⟩ := by decide

/-- P2's end, P1's end, V-RB-1. -/
theorem test_isEmptyRx : answer { start with rx := ⟨[], 24, 24, 0⟩ } .host 0x4000 = some ⟨true, 1⟩ := by decide
theorem test_isEmptyTx : answer (withTx ⟨[], 3, 0, 1⟩) .host 0x4100 = some ⟨true, 0⟩ := by decide
theorem test_isEmptyTx_reset : answer start .host 0x4100 = some ⟨true, 1⟩ := by decide

/-- R77 for `RB_RX`: the framer is not touched. -/
theorem test_clearRx : (after (reading [0xB5] [0x62, 1]) .host 0x5000).map (fun t => (t.rx, t.fr)) =
    some (.empty, readingFr [0xB5]) := by decide
/-- V-RB-9, V-RB-11. -/
theorem test_clearTx : (after (withTx ⟨[(2, 0x41)], 2, 3, 5⟩) .host 0x5100).map (fun t => (t.tx, t.resp)) =
    some (.empty, some ⟨true, 0⟩) := by decide

/-- V-FR-12's last byte: 0x90 for 0x91 in a frame's checksum, here in `F_EMPTY`'s (0x0E for 0x0D). -/
theorem test_poll_bad_checksum : (after (reading (fEmpty.take 7) [0x0E]) .host 0x6000).map
    (fun t => (t.fr.fstate, t.fr.ckErrCnt, t.history)) = some (.idle, 1, [.cond (.ckMismatch 1 3)]) := by decide
/-- E8 and V-FD-3: `lon` decoded little-endian, 0x80000000. -/
theorem test_poll_decodes_lon : (after (parsing fPos18 4) .host 0x6000).map (fun t => (t.tel.lon, t.fr.pcur)) =
    some (0x80000000, 8) := by decide

/-- `HDR_LEN = 7` and `CK_LEN = 3`: 246 payload bytes make a frame of 256 (R22), one more than `RAW_CAP`; 245 just fit. -/
theorem test_poll_oversize_longer : (after { reading (fEmpty.take 4 ++ [0xF6]) [0] with params := longer } .host
    0x6000).map (fun t => (t.fr.fstate, t.history)) = some (.idle, [.cond (.oversize 246)]) := by decide
theorem test_poll_fits_longer : (after { reading (fEmpty.take 4 ++ [0xF5]) [0] with params := longer } .host
    0x6000).map (fun t => (t.fr.fstate, t.fr.cursor, t.history)) = some (.reading, 6, []) := by decide

/-- V-CT-1, V-EN-12. -/
theorem test_read_status : answer start .host 0x7000 = some ⟨true, 0x100⟩ := by decide
theorem test_read_reserved : answer start .host 0x7F00 = some ⟨false, 0⟩ := by decide

/-- V-CT-3, V-CT-4. -/
theorem test_wdexp_stale : (after start .timer 0x8000).map (fun t => (t.conn, t.history, t.resp)) =
    some (start.conn, [], some ⟨true, 0⟩) := by decide
theorem test_wdexp : (after { reading [0xB5, 0x62] [] with conn := ⟨true, true⟩ } .timer 0x8000).map
    (fun t => (t.conn, statusWord t)) = some (⟨false, false⟩, 0x101) := by decide

/-- V-EN-2, V-EN-8, V-CT-6: an illegal command and its record. -/
theorem test_illegal_port : answer start .host 0x10B5 = some ⟨false, 0⟩ := by decide
theorem test_illegal_word : events start .host 0x9000 = some [.cond (.illegalCommand .host 0x9000)] := by decide

/-- R64: the worked checksum. -/
theorem test_fletcher8 : fletcher8 [0x01, 0x03, 0x00, 0x00] = (0x04, 0x0D) := by decide

/-- R110: the codes. -/
theorem test_codes : [Condition.sync1Mismatch 0, .sync2Mismatch 0, .oversize 0, .ckMismatch 0 0, .rxOverflow 0, .txOverflow 0,
    .unknownMessage 0 0, .disconnected, .illegalCommand .host 0].map Condition.code = [1, 2, 3, 4, 5, 6, 7, 8, 9] := by
  decide

/-! ### Witnesses: each meets every hypothesis of the statement it names -/

theorem witness_DecodeEncodeRoundTrip : (Instr.read 0xD).wf = true ∧ (Instr.pushRx 0xFF).wf = true := by decide
theorem witness_EncodeDecodeRoundTrip : decode 0x7D00 = .ok (.read 0xD) := by decide
theorem witness_DecoderAcceptsExactlyTheTable : decode 0x7D00 = .ok (.read 0xD) ∧
    (⟨"READ", 0x7000, 0xF0FF, .host⟩ ∈ opcodeTable ∧
      OpcodeRow.matches ⟨"READ", 0x7000, 0xF0FF, .host⟩ 0x7D00 = true) := by decide
theorem witness_WrittenLineAssembles : (Instr.read 0xD).wf = true := by decide

theorem witness_StepRunsDecodedCommand :
    (given start .host 0x7D00).input = .cmd ⟨.host, 0x7D00⟩ :: [] ∧ decode 0x7D00 = .ok (.read 0xD) := by decide

/-- A word of R57 (e); a legal word on another port. -/
theorem witness_IllegalCommandChangesNothing :
    (start.params.wf = true ∧ (given start .host 0x7F00).input = .cmd ⟨.host, 0x7F00⟩ :: [] ∧ illegalFields 0x7F00) ∧
    (start.params.wf = true ∧ (given start .host 0x10B5).input = .cmd ⟨.host, 0x10B5⟩ :: [] ∧
      ∃ i, decode 0x10B5 = .ok i ∧ Port.host ≠ i.port) :=
  ⟨⟨rfl, rfl, .inr (.inr (.inr (.inr ⟨rfl, .inr rfl⟩)))⟩, rfl, rfl, .pushRx 0xB5, rfl, by decide⟩

theorem witness_LegalCommandCompletes :
    ((withTx wrapped).params.wf = true ∧ (withTx wrapped).rx.inv start.params .rx ∧
      (withTx wrapped).tx.inv start.params .tx ∧ (Instr.read 0xD).wf = true ∧
      (withTx wrapped).port = (Instr.read 0xD).port) ∧
    ((parsing fPos18 4).inv ∧ (parsing fPos18 4).rx.inv start.params .rx ∧ (parsing fPos18 4).tx.inv start.params .tx ∧
      (parsing fPos18 4).port = Instr.poll.port) := by
  and_intros <;> decide

/-- Each constraint of R9 broken by one; each met with nothing to spare. -/
theorem witness_BrokenConfigurationRefused :
    ({ Params.default with rxN := 1 }.rxN < 2 ∧ { Params.default with txN := 1 }.txN < 2 ∧
      { Params.default with rawCap := 7 }.rawCap < Params.default.hdrLen + Params.default.ckLen ∧
      255 < { Params.default with rawCap := 256 }.rawCap ∧ { Params.default with skipW := 0 }.skipW < 1 ∧
      4 < { Params.default with skipW := 5 }.skipW) ∧
    (2 ≤ least.rxN ∧ 2 ≤ least.txN ∧ least.hdrLen + least.ckLen ≤ least.rawCap ∧ most.rawCap ≤ 255 ∧
      1 ≤ least.skipW ∧ most.skipW ≤ 4) := by decide

theorem witness_ParametersNeverChange : ∃ t, step (given start .host 0x6000) = .next t := ⟨_, rfl⟩

theorem witness_ResetInputRestoresResetState : start.params.wf = true ∧
    { reading [0xB5] [0x62] with input := [.reset [⟨.serRx, 0x10B5⟩], .cmd ⟨.host, 0x6000⟩] }.input =
      .reset [⟨.serRx, 0x10B5⟩] :: [.cmd ⟨.host, 0x6000⟩] := by decide

theorem witness_ResetMeetsInvariant : (least.wf = true ∧ least.framesEnd) ∧ (most.wf = true ∧ most.framesEnd) ∧
    (longer.wf = true ∧ longer.framesEnd) := by decide

theorem witness_ClearAfterResetChangesNothing : least.wf = true ∧
    (⟨[(0, 5)], 1, 0, 1⟩ : Ring).inv least .rx ∧ (⟨[(1, 5)], 0, 1, 1⟩ : Ring).inv least .tx := by decide

/-- Another port; full, and not full with `tail` at the last slot, for each ring. -/
theorem witness_PushStoresOrCountsOverflow :
    (start.params.wf = true ∧ start.port ≠ pushPort .rx ∧ start.port = pushPort .tx ∧
      ((withTx wrapped).ring .tx).occ (start.params.slots .tx) = start.params.slots .tx - 1) ∧
    (((withTx (ringOf 2 [3])).ring .tx).occ (start.params.slots .tx) ≠ start.params.slots .tx - 1 ∧
      ((withTx (ringOf 2 [3])).ring .tx).tail = start.params.slots .tx - 1) ∧
    ({ start with port := .serRx }.port = pushPort .rx ∧
      ({ start with rx := ⟨[], 1, 0, 0⟩ }.ring .rx).occ (start.params.slots .rx) = start.params.slots .rx - 1 ∧
      (start.ring .rx).occ (start.params.slots .rx) ≠ start.params.slots .rx - 1 ∧
      (start.ring .rx).tail < start.params.slots .rx) := by decide

theorem witness_PushAppendsToQueue :
    (start.params.wf = true ∧ ((withTx wrapped).ring .tx).inv start.params .tx ∧
      (withTx wrapped).port = (pushOf .tx 6).port ∧
      ((withTx wrapped).ring .tx).occ (start.params.slots .tx) = start.params.slots .tx - 1) ∧
    (((withTx (ringOf 2 [3])).ring .tx).inv start.params .tx ∧
      ((withTx (ringOf 2 [3])).ring .tx).occ (start.params.slots .tx) ≠ start.params.slots .tx - 1) := by
  and_intros <;> decide

theorem witness_PopTakesOldestByte : (start.params.wf = true ∧ start.tx.inv start.params .tx ∧ start.port ≠ .serTx) ∧
    ((withTx ⟨[], 3, 3, 0⟩).tx.inv start.params .tx ∧ (withTx ⟨[], 3, 3, 0⟩).tx.queue start.params.txN = []) ∧
    ((withTx wrapped).tx.inv start.params .tx ∧ { withTx wrapped with port := .serTx }.port = .serTx ∧
      (withTx wrapped).tx.queue start.params.txN = 3 :: [4, 5]) := by
  and_intros <;> decide

theorem witness_FifoLaw :
    (Params.default.wf = true ∧ (⟨[], 3, 3, 0⟩ : Ring).inv .default .tx ∧
      (⟨[], 3, 3, 0⟩ : Ring).occ (Params.default.slots .tx) = 0 ∧
      ([1, 2, 3] : List Byte).length ≤ Params.default.slots .tx - 1) ∧
    (ringRun .default .tx [some 1, none, some 2] ⟨[], 3, 3, 0⟩).isSome = true := by decide

/-- Neither empty nor full; empty; full. -/
theorem witness_PushAndPopCommute :
    (Params.default.wf = true ∧ (ringOf 2 [3]).inv .default .tx ∧ (ringOf 2 [3]).occ (Params.default.slots .tx) ≠ 0 ∧
      (ringOf 2 [3]).occ (Params.default.slots .tx) ≠ Params.default.slots .tx - 1) ∧
    ((⟨[], 3, 3, 0⟩ : Ring).inv .default .tx ∧ (⟨[], 3, 3, 0⟩ : Ring).occ (Params.default.slots .tx) = 0) ∧
    (wrapped.inv .default .tx ∧ wrapped.occ (Params.default.slots .tx) = Params.default.slots .tx - 1) := by decide

/-- P1's first commands, with an illegal one between them. -/
theorem witness_TransmitBytesKeepOrder : start.params.wf = true ∧ start.tx.inv start.params .tx ∧
    (∀ c ∈ [(⟨.host, 0x1141⟩ : Command), ⟨.timer, 0x5100⟩, ⟨.serTx, 0x2100⟩, ⟨.serTx, 0x2100⟩], c ≠ ⟨.host, 0x5100⟩) ∧
    (answers [⟨.host, 0x1141⟩, ⟨.timer, 0x5100⟩, ⟨.serTx, 0x2100⟩, ⟨.serTx, 0x2100⟩] start).isSome = true := by decide

theorem witness_LenAnswersOccupancy : start.params.wf = true ∧ start.port = .host ∧
    { start with port := .serTx }.port ≠ .host ∧
    ((withTx wrapped).ring .tx).tail < ((withTx wrapped).ring .tx).head ∧
    ((withTx wrapped).ring .tx).head < start.params.slots .tx ∧
    ((withTx wrapped).ring .tx).occ (start.params.slots .tx) < 2 ^ 32 := by decide

theorem witness_IsEmptyAnswersIndexEquality : start.params.wf = true ∧ start.port = .host ∧
    { start with port := .serTx }.port ≠ .host ∧
    ((withTx ⟨[], 3, 3, 0⟩).ring .tx).head < start.params.slots .tx ∧
    ((withTx ⟨[], 3, 3, 0⟩).ring .tx).tail < start.params.slots .tx := by decide

theorem witness_ClearZeroesOneRing : (withTx wrapped).params.wf = true ∧ (withTx wrapped).port = .host ∧
    { start with port := .timer }.port ≠ .host := by decide

theorem witness_QueriesChangeNothing : start.port = Instr.lenRx.port ∧ start.port = Instr.lenTx.port ∧
    start.port = Instr.isEmptyRx.port ∧ start.port = Instr.isEmptyTx.port ∧ start.port = (Instr.read 0xD).port ∧
    (0xD : BitVec 4) ≤ 0xD ∧ (∃ t, exec .lenRx start = .next t) ∧ (∃ t, exec .lenTx start = .next t) ∧
    (∃ t, exec .isEmptyRx start = .next t) ∧ (∃ t, exec .isEmptyTx start = .next t) ∧
    ∃ t, exec (.read 0xD) start = .next t :=
  ⟨rfl, rfl, rfl, rfl, rfl, by decide, ⟨_, rfl⟩, ⟨_, rfl⟩, ⟨_, rfl⟩, ⟨_, rfl⟩, ⟨_, rfl⟩⟩

theorem witness_ReadAnswersRegisterMap : (parsing fPos18 4).params.wf = true ∧ (parsing fPos18 4).port = .host ∧
    (withTx { wrapped with ovf := 2 ^ 32 - 1 }).tx.ovf < 2 ^ 32 := by decide

theorem witness_WdexpDisconnectsWhileArmed : start.params.wf = true ∧ start.port ≠ .timer ∧ { start with port := .timer }.port = .timer ∧
    { start with conn := ⟨true, true⟩ }.conn.wdArmed = true ∧ start.conn.wdArmed = false := by decide

theorem witness_PollInIdle : (withRx [0xB5]).params.wf = true ∧ (withRx [0xB5]).port = .host ∧
    (withRx [0xB5]).fr.fstate = .idle ∧ 0 < (withRx [0xB5]).rx.occ start.params.rxN ∧
    start.rx.occ start.params.rxN = 0 := by decide

theorem witness_PollWaitsForByte : (reading [0xB5] []).params.wf = true ∧ (reading [0xB5] []).port = .host ∧
    (reading [0xB5] []).fr.fstate = .reading ∧ (reading [0xB5] []).rx.occ start.params.rxN = 0 ∧
    { readingFr [0xB5] with frameReady := true }.frameReady = true := by decide

theorem witness_PollReadsSync1 : ((reading [] [0x00]).takesByte ∧ (reading [] [0x00]).fr.cursor = 0 ∧
      (reading [] [0x00]).nextByte ≠ start.params.sync1) ∧
    ((reading [] [0xB5]).takesByte ∧ (reading [] [0xB5]).fr.cursor = 0 ∧
      (reading [] [0xB5]).nextByte = start.params.sync1 ∧ 0 < start.params.rawCap) := by decide

theorem witness_PollReadsSync2 : ((reading [0xB5] [0xB5]).takesByte ∧ (reading [0xB5] [0xB5]).fr.cursor = 1 ∧
      (reading [0xB5] [0xB5]).nextByte ≠ start.params.sync2) ∧
    ((reading [0xB5] [0x62]).takesByte ∧ (reading [0xB5] [0x62]).fr.cursor = 1 ∧
      (reading [0xB5] [0x62]).nextByte = start.params.sync2 ∧ 1 < start.params.rawCap) := by decide

theorem witness_PollReadsHeader :
    ((reading (fST5.take 2) [1]).takesByte ∧ (reading (fST5.take 2) [1]).fr.cursor = 2) ∧
    ((reading (fST5.take 3) [3]).takesByte ∧ (reading (fST5.take 3) [3]).fr.cursor = 3) ∧
    ((reading (fST5.take 4) [5]).takesByte ∧ (reading (fST5.take 4) [5]).fr.cursor = 4 ∧
      4 < start.params.rawCap) := by decide

/-- `plen = 248`, one too many, and `plen = 247`, the most (R88). -/
theorem witness_PollBoundsLength :
    ((reading [0xB5, 0x62, 1, 2, 0xF8] [0]).takesByte ∧ (reading [0xB5, 0x62, 1, 2, 0xF8] [0]).fr.cursor = 5 ∧
      5 < start.params.rawCap ∧
      start.params.rawCap < ((0x00 : Byte) ++ (0xF8 : Byte)).toNat + start.params.hdrLen + start.params.ckLen) ∧
    ((reading [0xB5, 0x62, 1, 2, 0xF7] [0]).takesByte ∧ (reading [0xB5, 0x62, 1, 2, 0xF7] [0]).fr.cursor = 5 ∧
      ((0x00 : Byte) ++ (0xF7 : Byte)).toNat + start.params.hdrLen + start.params.ckLen ≤ start.params.rawCap) := by
  decide

/-- The last payload byte, and the first checksum byte. -/
theorem witness_PollReadsBody :
    ((reading (fST5.take 10) [2]).takesByte ∧ (reading (fST5.take 10) [2]).fr.cursor.toNat = 10 ∧
      10 < start.params.rawCap ∧ 10 + 3 = total start.params (reading (fST5.take 10) [2]).fr.plen) ∧
    ((reading (fST5.take 11) [0xB5]).takesByte ∧ (reading (fST5.take 11) [0xB5]).fr.cursor.toNat = 11 ∧
      11 < start.params.rawCap ∧ 11 + 1 ≠ total start.params (reading (fST5.take 11) [0xB5]).fr.plen ∧
      total start.params (reading (fST5.take 11) [0xB5]).fr.plen < 11 + 3) := by decide

/-- A good last byte; a bad one, under each policy. -/
theorem witness_PollCompletesFrame :
    ((reading (fEmpty.take 7) [0x0D]).takesByte ∧ (reading (fEmpty.take 7) [0x0D]).fr.cursor.toNat = 7 ∧
      7 < start.params.rawCap ∧ 7 + 1 = total start.params (reading (fEmpty.take 7) [0x0D]).fr.plen ∧
      ((reading (fEmpty.take 7) [0x0D]).fr.raw.read 6, (reading (fEmpty.take 7) [0x0D]).nextByte) =
        (reading (fEmpty.take 7) [0x0D]).fr.ckExpected start.params) ∧
    ((reading (fEmpty.take 7) [0x0E]).takesByte ∧
      ((reading (fEmpty.take 7) [0x0E]).fr.raw.read 6, (reading (fEmpty.take 7) [0x0E]).nextByte) ≠
        (reading (fEmpty.take 7) [0x0E]).fr.ckExpected start.params ∧ start.params.ckPolicy = .reject ∧
      { start.params with ckPolicy := .accept }.ckPolicy = .accept ∧
      { reading (fEmpty.take 7) [0x0E] with params := { start.params with ckPolicy := .accept } }.takesByte) := by
  decide

/-- `pcur = plen`; an unknown message; an unlisted offset; a field one byte too long. -/
theorem witness_PollParsesWithoutDecoding :
    ((parsing fST5 5).inv ∧ (parsing fST5 5).port = .host ∧ (parsing fST5 5).fr.fstate = .parsing ∧
      (parsing fST5 5).fr.plen.toNat = (parsing fST5 5).fr.pcur.toNat) ∧
    ((parsing fUnk 0).inv ∧ (parsing fUnk 0).fr.pcur.toNat < (parsing fUnk 0).fr.plen.toNat ∧
      known (parsing fUnk 0).fr.cls (parsing fUnk 0).fr.id = false) ∧
    ((parsing fST5 0).inv ∧ known (parsing fST5 0).fr.cls (parsing fST5 0).fr.id = true ∧
      entry (parsing fST5 0).fr.cls (parsing fST5 0).fr.id (parsing fST5 0).fr.pcur.toNat = none) ∧
    ((parsing fPos18 16).inv ∧ entry 0x01 0x02 16 = some ⟨0x01, 0x02, 16, .four, .alt, true⟩ ∧
      (parsing fPos18 16).fr.plen.toNat < (parsing fPos18 16).fr.pcur.toNat + 4) := by
  and_intros <;> decide

/-- A one-byte field that ends at the payload's end, and a four-byte one. -/
theorem witness_PollDecodesField :
    ((parsing fST5 4).inv ∧ (parsing fST5 4).port = .host ∧ (parsing fST5 4).fr.fstate = .parsing ∧
      entry (parsing fST5 4).fr.cls (parsing fST5 4).fr.id 4 = some ⟨0x01, 0x03, 4, .one, .fixStatus, false⟩ ∧
      4 + FieldWidth.one.bytes = (parsing fST5 4).fr.plen.toNat) ∧
    ((parsing fPos18 4).inv ∧ entry 0x01 0x02 4 = some ⟨0x01, 0x02, 4, .four, .lon, false⟩ ∧
      4 + FieldWidth.four.bytes ≤ (parsing fPos18 4).fr.plen.toNat) := by
  and_intros <;> decide

theorem witness_PollWorkIsBounded : (parsing fST5 4).inv ∧ (parsing fST5 4).port = .host ∧
    (∃ t, exec .poll (parsing fST5 4) = .next t) ∧
    ∃ t, exec .poll (reading [0xB5] [0x62]) = .next t :=
  ⟨by decide, rfl, ⟨_, rfl⟩, ⟨_, rfl⟩⟩

theorem witness_QuiescentPollChangesNothing :
    start.params.wf = true ∧ start.port = .host ∧ start.quiescent = true := by decide

theorem witness_StepKeepsInvariant : (parsing fPos18 4).inv ∧ ∃ t, step (given (parsing fPos18 4) .host 0x6000) = .next t :=
  ⟨by decide, _, rfl⟩

theorem witness_BlockNeverStops : (given (reading (fEmpty.take 7) [0x0D]) .host 0x6000).inv := by decide

theorem frameInv_parsing : (given (parsing fST5 4) .host 0x6000).frameInv := by
  unfold State.frameInv
  refine ⟨fun h => (by cases h), fun _ => ⟨?_, ?_, by decide⟩⟩
  · unfold Framer.agrees
    and_intros <;> decide
  · unfold Framer.checksumHolds
    decide

theorem witness_StepKeepsFrameAgreement : (given (parsing fST5 4) .host 0x6000).inv ∧
    8 ≤ start.params.hdrLen + start.params.ckLen ∧ (given (parsing fST5 4) .host 0x6000).frameInv ∧
    ∃ t, step (given (parsing fST5 4) .host 0x6000) = .next t :=
  ⟨by decide, by decide, frameInv_parsing, _, rfl⟩

theorem witness_TelemetryWrittenOnlyByDecoder :
    (∃ t, step (given (parsing fST5 4) .host 0x6000) = .next t ∧
      (∀ lost rest, (given (parsing fST5 4) .host 0x6000).input ≠ .reset lost :: rest) ∧
      t.tel.value .fixStatus ≠ (given (parsing fST5 4) .host 0x6000).tel.value .fixStatus) ∧
    (∃ t, step (given (parsing fPos20 16) .host 0x6000) = .next t ∧
      (given (parsing fPos20 16) .host 0x6000).tel.hasPosition = false ∧ t.tel.hasPosition = true) ∧
    { start with tel.hasPosition := true }.tel.hasPosition = true :=
  ⟨⟨_, rfl, by simp [given], by decide⟩, ⟨_, rfl, rfl, rfl⟩, rfl⟩

theorem witness_RejectedFramesWriteNoTelemetry : (given (parsing fST5 4) .host 0x6000).inv ∧
    (given (parsing fST5 4) .host 0x6000).frameInv ∧ start.params.ckPolicy = .reject ∧
    ∃ t, step (given (parsing fST5 4) .host 0x6000) = .next t ∧
      (∀ lost rest, (given (parsing fST5 4) .host 0x6000).input ≠ .reset lost :: rest) ∧
      t.tel ≠ (given (parsing fST5 4) .host 0x6000).tel :=
  ⟨by decide, frameInv_parsing, rfl, _, rfl, by simp [given], by decide⟩

theorem witness_StepKeepsLinkHistory : (given (reading [0xB5] [0x62]) .host 0x6000).linkInv ∧
    ∃ t, step (given (reading [0xB5] [0x62]) .host 0x6000) = .next t := ⟨by decide, _, rfl⟩

theorem witness_StepKeepsErrorCounts : (given (reading [0xB5] [0xB5]) .host 0x6000).countInv ∧
    ∃ t, step (given (reading [0xB5] [0xB5]) .host 0x6000) = .next t := ⟨by decide, _, rfl⟩

/-- Connected by a sync pair; disconnected by an expiry and by RESET. -/
theorem witness_ConnectionChangesOnlyBySyncOrExpiry :
    (∃ t, step (given (reading [0xB5] [0x62]) .host 0x6000) = .next t ∧
      (given (reading [0xB5] [0x62]) .host 0x6000).conn.connected = false ∧ t.conn.connected = true) ∧
    (∃ t, step (given { start with conn := ⟨true, true⟩ } .timer 0x8000) = .next t ∧ t.conn.connected = false) ∧
    (∃ t, step { start with conn := ⟨true, true⟩, input := [.reset []] } = .next t ∧ t.conn.connected = false) :=
  ⟨⟨_, rfl, rfl, rfl⟩, ⟨_, rfl, rfl⟩, ⟨_, rfl, rfl⟩⟩

/-- A refused push of each ring, an expiry, an illegal command, a query, and a poll that arms the watchdog. -/
theorem witness_OneConditionPerCommand :
    (∃ t, step (given (withTx wrapped) .host 0x1106) = .next t ∧ decode 0x1106 = .ok (.pushTx 6)) ∧
    (∃ t, step (given { start with rx := ⟨[], 1, 0, 0⟩ } .serRx 0x1006) = .next t ∧ decode 0x1006 = .ok (.pushRx 6)) ∧
    (∃ t, step (given { start with conn := ⟨true, true⟩ } .timer 0x8000) = .next t ∧ decode 0x8000 = .ok .wdexp) ∧
    (∃ t, step (given start .host 0x7F00) = .next t ∧ illegalFields 0x7F00) ∧
    (∃ t, step (given start .host 0x3000) = .next t ∧ decode 0x3000 = .ok .lenRx) ∧
    ∃ t, step (given (reading [0xB5] [0x62]) .host 0x6000) = .next t ∧ decode 0x6000 = .ok .poll ∧
      t.history = [.arm 5000] :=
  ⟨⟨_, rfl, rfl⟩, ⟨_, rfl, rfl⟩, ⟨_, rfl, rfl⟩, ⟨_, rfl, .inr (.inr (.inr (.inr ⟨rfl, .inr rfl⟩)))⟩, ⟨_, rfl, rfl⟩,
    ⟨_, rfl, rfl, rfl⟩⟩

theorem witness_HistoryIsObservationOnly : (∃ t, step (given (reading [0xB5] [0x62]) .host 0x6000) = .next t) ∧
    ∃ t, step { start with input := [.reset []] } = .next t := ⟨⟨_, rfl⟩, _, rfl⟩

/-- Two states with another stale slot and another stale `raw` byte. -/
theorem witness_StaleBytesAreUnobservable :
    (given { reading [0xB5] [0x62] with rx := ⟨[(0, 0x62), (5, 9)], 0, 1, 0⟩ } .host 0x6000).sameLive
      (given { reading [0xB5] [0x62] with fr := { readingFr [0xB5] with raw := [(0, 0xB5), (1, 7)] } } .host 0x6000) ∧
    ∃ t, step (given { reading [0xB5] [0x62] with rx := ⟨[(0, 0x62), (5, 9)], 0, 1, 0⟩ } .host 0x6000) = .next t := by
  refine ⟨?_, _, rfl⟩
  unfold State.sameLive Ring.sameQueue Framer.sameLive
  decide

/-- `F_EMPTY` with a byte behind it, and `F_UNK`. -/
theorem witness_AcceptedFramePollCount :
    ((withRx (fEmpty ++ [0xB5])).inv ∧ start.fr.fstate = .idle ∧ (⟨0x01, 0x03, []⟩ : Frame).fits start.params = true ∧
      (withRx (fEmpty ++ [0xB5])).rx.queue start.params.rxN =
        (⟨0x01, 0x03, []⟩ : Frame).bytes start.params ++ [0xB5] ∧
      0 < 1 ∧ 1 < (⟨0x01, 0x03, []⟩ : Frame).polls start.params) ∧
    ((withRx fUnk).inv ∧ (withRx fUnk).rx.queue start.params.rxN =
      (⟨0x02, 0x10, [0xAA, 0x55]⟩ : Frame).bytes start.params ++ []) := by
  and_intros <;> decide

/-- The shortest payload that holds all three fields: 20 bytes. -/
theorem witness_PositionFrameRoundTrip : ∃ f : Frame,
    (withRx (f.bytes start.params)).inv ∧ start.fr.fstate = .idle ∧ start.params.skipW ≠ 3 ∧
    f.fits start.params = true ∧ f.cls = 0x01 ∧ f.id = 0x02 ∧ ([0, 0, 0, 0] : List Byte).length = 4 ∧
    f.payload = [0, 0, 0, 0] ++ [1, 0, 0, 0] ++ [2, 0, 0, 0] ++ [0, 0, 0, 0] ++ [3, 0, 0, 0] ++ [] ∧
    (withRx (f.bytes start.params)).rx.queue start.params.rxN = f.bytes start.params ++ [] :=
  ⟨⟨0x01, 0x02, [0, 0, 0, 0, 1, 0, 0, 0, 2, 0, 0, 0, 0, 0, 0, 0, 3, 0, 0, 0]⟩, by decide⟩

/-- Each index at the first value outside its store; of a field, its last byte. -/
theorem witness_IndexOutsideStoreFaults : start.params.wf = true ∧
    (start.port = (pushOf .tx 0).port ∧
      ((withTx ⟨[], 3, 4, 0⟩).ring .tx).occ (start.params.slots .tx) ≠ start.params.slots .tx - 1 ∧
      start.params.slots .tx ≤ ((withTx ⟨[], 3, 4, 0⟩).ring .tx).tail) ∧
    ({ start with port := .serTx }.port = .serTx ∧ (withTx ⟨[], 4, 1, 0⟩).tx.occ start.params.txN ≠ 0 ∧
      start.params.txN ≤ (withTx ⟨[], 4, 1, 0⟩).tx.head) ∧
    ((reading [] []).port = .host ∧ (reading [] []).fr.fstate = .reading ∧ (reading [] []).fr.frameReady = false ∧
      { reading [] [] with rx := ⟨[], 64, 1, 0⟩ }.rx.occ start.params.rxN ≠ 0 ∧
      start.params.rxN ≤ { reading [] [] with rx := ⟨[], 64, 1, 0⟩ }.rx.head) ∧
    (pastRaw.params.wf = true ∧ pastRaw.takesByte ∧ pastRaw.fr.cursor ≠ 0 ∧ pastRaw.fr.cursor ≠ 1 ∧
      pastRaw.params.rawCap = pastRaw.fr.cursor.toNat) ∧
    ({ start.params with rawCap := 25 }.wf = true ∧ (parsing fPos20 16).port = .host ∧
      (parsing fPos20 16).fr.fstate = .parsing ∧ entry 0x01 0x02 16 = some ⟨0x01, 0x02, 16, .four, .alt, true⟩ ∧
      16 + FieldWidth.four.bytes ≤ (parsing fPos20 16).fr.plen.toNat ∧
      { start.params with rawCap := 25 }.rawCap < start.params.hdrLen + 16 + FieldWidth.four.bytes) := by
  decide

/-- An unknown message of 255 bytes and of 256, an unlisted offset of 254 and of 255, and a field one byte too long. -/
theorem witness_ParsingMovesOnInEveryState :
    ((parsing fUnk 0).params.wf = true ∧ (parsing fUnk 0).port = .host ∧ (parsing fUnk 0).fr.fstate = .parsing ∧
      known (parsing fUnk 0).fr.cls (parsing fUnk 0).fr.id = false ∧
      (0 : BitVec 8).toNat < { readingFr fUnk with plen := 255 }.plen.toNat ∧
      { readingFr fUnk with plen := 255 }.plen.toNat < 256 ∧ 256 ≤ { readingFr fUnk with plen := 256 }.plen.toNat) ∧
    (known (parsing fST5 254).fr.cls (parsing fST5 254).fr.id = true ∧
      (parsing fST5 255).fr.pcur.toNat < { readingFr fST5 with plen := 300 }.plen.toNat ∧
      entry (parsing fST5 254).fr.cls (parsing fST5 254).fr.id (parsing fST5 254).fr.pcur.toNat = none ∧
      entry (parsing fST5 255).fr.cls (parsing fST5 255).fr.id (parsing fST5 255).fr.pcur.toNat = none ∧
      (parsing fST5 254).fr.pcur.toNat + start.params.skipW < 256 ∧
      256 ≤ (parsing fST5 255).fr.pcur.toNat + start.params.skipW) ∧
    (entry 0x01 0x02 16 = some ⟨0x01, 0x02, 16, .four, .alt, true⟩ ∧
      (parsing fPos18 16).fr.pcur.toNat < { readingFr fPos18 with plen := 19 }.plen.toNat ∧
      { readingFr fPos18 with plen := 19 }.plen.toNat < (parsing fPos18 16).fr.pcur.toNat + FieldWidth.four.bytes) := by
  decide

theorem witness_OnlyRawIndexFaults : pastRaw.params.wf = true ∧ pastRaw.rx.inv pastRaw.params .rx ∧
    pastRaw.tx.inv pastRaw.params .tx ∧ exec .poll pastRaw = .fault (.noSuchIndex .raw 255) := by
  and_intros <;> first | rfl | decide

end Sys2Proof.Tests
end

section
/-! PROOFS. Which configurations are refused (R9): a command and a step are refused exactly where `configured` refuses, for
each meaning behind that check is an effect or an illegal command, and neither refuses. -/

namespace Sys2Proof.Machine

/-- An effect ends in a state or a fault. -/
@[simp] theorem outcome_ne_refused (e : Except Fault State) (r : Refusal) : outcome e ≠ .refused r := by
  cases e <;> simp [outcome]

/-- The configuration check adds one refusal of its own, of a configuration that breaks R9. -/
theorem configured_refused {s : State} {o : Host.Outcome State Fault Refusal} {r : Refusal}
    (ho : o ≠ .refused r) :
    configured s o = .refused r ↔ s.params.wf = false ∧ r = .invalidConfiguration := by
  cases hw : s.params.wf with
  | true => simp [configured_of_wf hw, ho]
  | false => simp [configured_of_not_wf hw, eq_comm]

/-- A command is refused for its configuration and for nothing else. -/
theorem exec_refused {i : Instr} {s : State} {r : Refusal} :
    exec i s = .refused r ↔ s.params.wf = false ∧ r = .invalidConfiguration := by
  rw [exec_eq_onPort, onPort]
  refine configured_refused ?_
  split
  · exact outcome_ne_refused _ r
  · simp

/-- A command taken from the input, legal or not, is refused for its configuration and for nothing else. -/
theorem runCommand_refused {c : Command} {rest : List Input} {s : State} {r : Refusal} :
    runCommand c rest s = .refused r ↔ s.params.wf = false ∧ r = .invalidConfiguration := by
  cases hd : decode c.word with
  | ok i => rw [runCommand_ok hd]; exact exec_refused
  | error e => rw [runCommand_error hd]; exact configured_refused (by simp)

/-- A step is refused for its configuration and for nothing else, whatever the input. -/
theorem step_refused {s : State} {r : Refusal} :
    step s = .refused r ↔ s.params.wf = false ∧ r = .invalidConfiguration := by
  unfold step
  split
  · exact configured_refused (by simp)
  · exact configured_refused (by simp)
  · exact runCommand_refused

end Sys2Proof.Machine

namespace Sys2Proof

/-- A configuration without a meaning breaks one of the constraints of R9. -/
theorem Params.not_wf_iff {p : Params} : p.wf = false ↔
    p.rxN < 2 ∨ p.txN < 2 ∨ p.rawCap < p.hdrLen + p.ckLen ∨ 255 < p.rawCap ∨ p.skipW < 1 ∨ 4 < p.skipW := by
  rw [← Bool.not_eq_true, Params.wf_iff]
  omega

end Sys2Proof

namespace Sys2Proof.Machine

/-- Settles O10: commands and steps are refused exactly where the parameters are not well-formed. -/
theorem brokenConfigurationRefused : Obligations.BrokenConfigurationRefused := by
  intro s
  refine ⟨fun hbroken => ?_, fun hrx htx hraw hcap hskip hskip' => ?_⟩
  · have hw : s.params.wf = false := Params.not_wf_iff.2 hbroken
    exact ⟨fun i => exec_refused.2 ⟨hw, rfl⟩, step_refused.2 ⟨hw, rfl⟩⟩
  · have hw : s.params.wf ≠ false := by
      rw [Params.wf_iff.2 ⟨hrx, htx, hraw, hcap, hskip, hskip'⟩]
      decide
    exact ⟨fun i r h => hw (exec_refused.1 h).1, fun r h => hw (step_refused.1 h).1⟩

end Sys2Proof.Machine
end

section
/-! PROOFS. What the framer's updates and a poll leave of each field: one equation a field, for the proofs below. -/

namespace Sys2Proof.Machine

/-- A body byte touches the two sums and the cursor alone (R89). -/
theorem takeBody_eq (p : Params) (c : Nat) (b : Byte) (fr : Framer) :
    takeBody p c b fr = { fr with
      ckA := (takeBody p c b fr).ckA, ckB := (takeBody p c b fr).ckB, cursor := BitVec.ofNat 8 (c + 1) } := by
  unfold takeBody
  split
  · rw [ckAcc_eq]
  · rfl

@[simp] theorem takeBody_raw (p : Params) (c : Nat) (b : Byte) (fr : Framer) :
    (takeBody p c b fr).raw = fr.raw := by rw [takeBody_eq]
@[simp] theorem takeBody_fstate (p : Params) (c : Nat) (b : Byte) (fr : Framer) :
    (takeBody p c b fr).fstate = fr.fstate := by rw [takeBody_eq]
@[simp] theorem takeBody_frameReady (p : Params) (c : Nat) (b : Byte) (fr : Framer) :
    (takeBody p c b fr).frameReady = fr.frameReady := by rw [takeBody_eq]
@[simp] theorem takeBody_cursor (p : Params) (c : Nat) (b : Byte) (fr : Framer) :
    (takeBody p c b fr).cursor = BitVec.ofNat 8 (c + 1) := by rw [takeBody_eq]

/-- The verdict leaves every field of the framer but `last_ck_valid` and its counter (R90). -/
theorem takeVerdict_fr (ok : Bool) (s : State) : (takeVerdict ok s).fr = { s.fr with
    lastCkValid := (takeVerdict ok s).fr.lastCkValid, ckErrCnt := (takeVerdict ok s).fr.ckErrCnt } := by
  cases ok <;> rfl

@[simp] theorem takeVerdict_raw (ok : Bool) (s : State) : (takeVerdict ok s).fr.raw = s.fr.raw := by
  rw [takeVerdict_fr]
@[simp] theorem takeVerdict_cursor (ok : Bool) (s : State) : (takeVerdict ok s).fr.cursor = s.fr.cursor := by
  rw [takeVerdict_fr]
@[simp] theorem takeVerdict_plen (ok : Bool) (s : State) : (takeVerdict ok s).fr.plen = s.fr.plen := by
  rw [takeVerdict_fr]
@[simp] theorem takeVerdict_frameReady (ok : Bool) (s : State) :
    (takeVerdict ok s).fr.frameReady = s.fr.frameReady := by rw [takeVerdict_fr]

/-- A byte read is stored at the cursor, or not at all (R83 to R89). -/
theorem byteStep_raw {c : Nat} {b : Byte} {s t : State} (h : ByteStep c b s t) :
    t.fr.raw = s.fr.raw ∨ (c < s.params.rawCap ∧ t.fr.raw = s.fr.raw.write c b) := by
  cases h with
  | noise1 hc hb => exact .inl rfl
  | noise2 hc hb => exact .inl rfl
  | sync1 hc hb hr => exact .inr ⟨hr, rfl⟩
  | sync2 hc hb hr => exact .inr ⟨hr, rfl⟩
  | takeCls hc hr => exact .inr ⟨hr, by simp [takeClass]⟩
  | takeId hc hr => exact .inr ⟨hr, by simp [Machine.takeId]⟩
  | lenLo hc hr => exact .inr ⟨hr, by simp [takeLenLo]⟩
  | lenHi hc hr hl => exact .inr ⟨hr, by simp [takeLenHi]⟩
  | oversize hc hr hl => exact .inr ⟨hr, by simp [framingError, takeLenHi]⟩
  | body hc hr hn => exact .inr ⟨hr, by simp⟩
  | complete hc hr hn ok hv =>
    refine .inr ⟨hr, ?_⟩
    rcases applyPolicy_cases ok (takeVerdict ok (s.setFr (takeBody s.params c b (s.rawSet c b)))) with
      ⟨-, e⟩ | ⟨-, -, e⟩ <;> simp [e]

/-- A poll stores at most one byte, the consumed one, at the cursor (R92). -/
theorem pollStep_raw {s t : State} (h : PollStep s t) :
    t.fr.raw = s.fr.raw ∨
      (s.fr.cursor.toNat < s.params.rawCap ∧ t.fr.raw = s.fr.raw.write s.fr.cursor.toNat s.nextByte) := by
  cases h with
  | byte h ho hf hh t hb => exact byteStep_raw (s := s.popped) hb
  | _ => exact .inl rfl

/-- A poll takes at most one byte from `RB_RX`, and does nothing else to it (R81, R92). -/
theorem pollStep_rx {s t : State} (h : PollStep s t) :
    t.rx = s.rx ∨ (s.rx.occ s.params.rxN ≠ 0 ∧ s.rx.head < s.params.rxN ∧
      t.rx = { s.rx with head := incN s.params.rxN s.rx.head }) := by
  cases h with
  | byte h ho hf hh t hb =>
    obtain ⟨-, -, -, hrx, -⟩ := byteStep_history hb
    exact .inr ⟨ho, hh, hrx⟩
  | _ => exact .inl rfl

/-- A poll keeps the framer's counters within `CNT_W` bits (R26). -/
theorem pollStep_counts_le {s t : State} (h : PollStep s t) (hf : s.fr.feCnt ≤ s.params.cntMax)
    (hk : s.fr.ckErrCnt ≤ s.params.cntMax) :
    t.fr.feCnt ≤ s.params.cntMax ∧ t.fr.ckErrCnt ≤ s.params.cntMax := by
  obtain ⟨-, -, -, -, ⟨-, -, e1, e2⟩ | ⟨x, -, -, -, -, ⟨-, -, e1, e2⟩ | ⟨-, -, e2, e1⟩ | ⟨-, -, e2, e1⟩⟩ |
    ⟨-, -, -, -, -, e1, e2⟩⟩ := pollStep_history h <;> rw [e1, e2]
  · exact ⟨hf, hk⟩
  · exact ⟨satInc_le hf, hk⟩
  · exact ⟨hf, satInc_le hk⟩
  · exact ⟨hf, hk⟩
  · exact ⟨hf, hk⟩

end Sys2Proof.Machine
end

section
/-! PROOFS. The invariant of R27: at reset, and from step to step. The storage, the counters and the phases of the framer are
kept one by one. -/

namespace Sys2Proof.Machine

/-- Each ring of a configuration of R9 has a slot. -/
theorem slots_pos {p : Params} (hw : p.wf = true) (q : RingSel) : 0 < p.slots q := by
  obtain ⟨hrx, htx, -⟩ := Params.wf_iff.1 hw
  cases q with
  | rx => exact lt_of_lt_of_le Nat.zero_lt_two hrx
  | tx => exact lt_of_lt_of_le Nat.zero_lt_two htx

/-- The largest payload leaves room for the header and the checksum (R8, R9). -/
theorem plen_le_maxPlen_iff {p : Params} (hw : p.wf = true) (plen : BitVec 16) :
    plen.toNat ≤ p.maxPlen ↔ total p plen ≤ p.rawCap := by
  obtain ⟨-, -, hcap, -⟩ := Params.wf_iff.1 hw
  unfold Params.maxPlen total
  omega

theorem phaseInv_of_idle {p : Params} {fr : Framer} (hs : fr.fstate = .idle) (hf : fr.frameReady = false) :
    fr.phaseInv p :=
  ⟨fun _ => hf, by simp [hs], by simp [hs]⟩

theorem phaseInv_of_reading {p : Params} {fr : Framer} (hs : fr.fstate = .reading) (hf : fr.frameReady = false)
    (hc : fr.cursor.toNat ≤ p.rawCap - 1)
    (hb : 6 ≤ fr.cursor.toNat → fr.plen.toNat ≤ p.maxPlen ∧ fr.cursor.toNat ≤ total p fr.plen - 1) :
    fr.phaseInv p :=
  ⟨by simp [hs], fun _ => ⟨hf, hc, hb⟩, by simp [hs]⟩

theorem phaseInv_of_parsing {p : Params} {fr : Framer} (hs : fr.fstate = .parsing) (hf : fr.frameReady = true)
    (hc : fr.cursor.toNat = total p fr.plen) (hl : fr.plen.toNat ≤ p.maxPlen)
    (hp : fr.pcur.toNat ≤ fr.plen.toNat + 3) : fr.phaseInv p :=
  ⟨by simp [hs], by simp [hs], fun _ => ⟨hf, hc, hl, hp⟩⟩

/-- Reading one of the six bytes before the length is known: the cursor is all there is to R27 (b). -/
theorem phaseInv_of_header {p : Params} {fr : Framer} (hs : fr.fstate = .reading) (hf : fr.frameReady = false)
    (hc : fr.cursor.toNat < 6) (hcap : 7 ≤ p.rawCap) : fr.phaseInv p :=
  phaseInv_of_reading hs hf (by omega) (by omega)

/-- The byte read in Reading keeps R27 (R83 to R90). -/
theorem byteStep_phaseInv {c : Nat} {b : Byte} {s t : State} (h : ByteStep c b s t) (hw : s.params.wf = true)
    (he : s.params.framesEnd) (hi : s.fr.phaseInv s.params) (hs : s.fr.fstate = .reading)
    (hc : s.fr.cursor.toNat = c) : t.fr.phaseInv s.params := by
  obtain ⟨-, hread, -⟩ := hi
  obtain ⟨hf, -, hbody⟩ := hread hs
  obtain ⟨-, -, hsum, h255, -⟩ := Params.wf_iff.1 hw
  have hcap : 7 ≤ s.params.rawCap := le_trans he hsum
  cases h with
  | noise1 hc hb => exact phaseInv_of_idle rfl hf
  | noise2 hc hb => exact phaseInv_of_idle rfl hf
  | sync1 hc hb hr => exact phaseInv_of_header hs hf (by simp) hcap
  | sync2 hc hb hr => exact phaseInv_of_header hs hf (by simp) hcap
  | takeCls hc hr => exact phaseInv_of_header (by simpa [takeClass]) (by simpa [takeClass]) (by simp [takeClass]) hcap
  | takeId hc hr =>
    exact phaseInv_of_header (by simpa [Machine.takeId]) (by simpa [Machine.takeId]) (by simp [Machine.takeId]) hcap
  | lenLo hc hr => exact phaseInv_of_header (by simpa [takeLenLo]) (by simpa [takeLenLo]) (by simp [takeLenLo]) hcap
  | oversize hc hr hl => exact phaseInv_of_idle rfl (by simpa [framingError, takeLenHi])
  | lenHi hc hr hl =>
    refine phaseInv_of_reading (by simpa [takeLenHi]) (by simpa [takeLenHi]) ?_ fun _ => ⟨?_, ?_⟩
    · show 6 ≤ s.params.rawCap - 1
      omega
    · simpa [takeLenHi] using (plen_le_maxPlen_iff hw _).2 hl
    · show 6 ≤ total s.params (withHighByte _ b) - 1
      unfold total
      omega
  | body h6 hr hn =>
    obtain ⟨hp, ht⟩ := hbody (by omega)
    have ht' := (plen_le_maxPlen_iff hw _).1 hp
    have hcur : (BitVec.ofNat 8 (c + 1)).toNat = c + 1 := by
      rw [BitVec.toNat_ofNat]; omega
    refine phaseInv_of_reading (by simpa) (by simpa) ?_ fun _ => ⟨by simpa using hp, ?_⟩
    · simp only [State.setFr_fr, takeBody_cursor, hcur]; omega
    · simp only [State.setFr_fr, takeBody_cursor, takeBody_plen, hcur]; omega
  | complete h6 hr hn ok hv =>
    obtain ⟨hp, ht⟩ := hbody (by omega)
    have hcur : (BitVec.ofNat 8 (c + 1)).toNat = c + 1 := by
      rw [BitVec.toNat_ofNat]; omega
    rcases applyPolicy_cases ok (takeVerdict ok (s.setFr (takeBody s.params c b (s.rawSet c b)))) with
      ⟨-, e⟩ | ⟨-, -, e⟩ <;> rw [e]
    · refine phaseInv_of_parsing rfl rfl ?_ (by simpa using hp) (by simp)
      simp only [State.setFr_fr, takeVerdict_cursor, takeVerdict_plen, takeBody_cursor, takeBody_plen, hcur]
      omega
    · exact phaseInv_of_idle rfl (by simpa using hf)

/-- In Parsing, the parse cursor may move to any offset up to three past the payload (R27 (c), R98). -/
theorem advance_phaseInv {p : Params} {fr : Framer} (hw : p.wf = true) (hi : fr.phaseInv p)
    (hs : fr.fstate = .parsing) {v : Nat} (hv : v ≤ fr.plen.toNat + 3) (he : p.framesEnd) :
    ({ fr with pcur := pcurOf v } : Framer).phaseInv p := by
  obtain ⟨-, -, hparse⟩ := hi
  obtain ⟨hf, hc, hl, -⟩ := hparse hs
  obtain ⟨-, -, -, h255, -⟩ := Params.wf_iff.1 hw
  have ht := (plen_le_maxPlen_iff hw _).1 hl
  unfold total at ht
  have hv8 : v < 2 ^ 8 := by omega
  refine phaseInv_of_parsing hs hf hc hl ?_
  rw [pcurOf_of_lt hv8, BitVec.toNat_ofNat, Nat.mod_eq_of_lt hv8]
  exact hv

/-- Every poll keeps R27. -/
theorem pollStep_phaseInv {s t : State} (h : PollStep s t) (hw : s.params.wf = true) (he : s.params.framesEnd)
    (hi : s.fr.phaseInv s.params) : t.fr.phaseInv s.params := by
  obtain ⟨-, -, -, -, -, hskip⟩ := Params.wf_iff.1 hw
  cases h with
  | start h ho => exact phaseInv_of_reading rfl (hi.1 h) (by simp) (by simp)
  | quiet h ho => exact hi
  | wait h ho => exact hi
  | byte h ho hf hh t hb => exact byteStep_phaseInv (s := s.popped) hb hw he hi h rfl
  | done h hl => exact phaseInv_of_idle rfl rfl
  | unknown h hl hk => exact advance_phaseInv hw hi h (by omega) he
  | skip h hl hk hn => exact advance_phaseInv hw hi h (by omega) he
  | misfit h hl hk row hrow hwd => exact advance_phaseInv hw hi h (by have := row.width.bytes_bounds; omega) he
  | field h hl hk row hrow hwd hr => exact advance_phaseInv hw hi h (by omega) he

/-- Every poll keeps the framer in range. -/
theorem pollStep_framer_inv {s t : State} (h : PollStep s t) (hw : s.params.wf = true) (he : s.params.framesEnd)
    (hi : s.fr.inv s.params) : t.fr.inv s.params := by
  obtain ⟨hraw, hin, hf, hk, hph⟩ := hi
  obtain ⟨hf', hk'⟩ := pollStep_counts_le h hf hk
  rcases pollStep_raw h with e | ⟨hc, e⟩
  · exact ⟨e ▸ hraw, e ▸ hin, hf', hk', pollStep_phaseInv h hw he hph⟩
  · exact ⟨e ▸ Memory.wf_write hraw _ _, e ▸ Memory.within_write hin hc _, hf', hk', pollStep_phaseInv h hw he hph⟩

/-- Every poll keeps the invariant. -/
theorem pollStep_inv {s t : State} (h : PollStep s t) (hi : s.inv) : t.inv := by
  obtain ⟨hw, he, hrx, htx, hfr⟩ := hi
  obtain ⟨hp, htx', -⟩ := pollStep_history h
  have hrx' : t.rx.inv s.params .rx := by
    rcases pollStep_rx h with e | ⟨-, hh, e⟩ <;> rw [e]
    · exact hrx
    · obtain ⟨hmem, hin, -, ht, ho⟩ := hrx
      exact ⟨hmem, hin, incN_lt hh, ht, ho⟩
  unfold State.inv
  rw [hp, htx']
  exact ⟨hw, he, hrx', htx, pollStep_framer_inv h hw he hfr⟩

/-- A state with one ring replaced by one in range has both in range. -/
theorem setRing_rings_inv {s : State} (hi : ∀ q, (s.ring q).inv s.params q) {q : RingSel} {rb : Ring}
    (hr : rb.inv s.params q) : ∀ q', ((s.setRing q rb).ring q').inv s.params q' := by
  intro q'
  cases q <;> cases q'
  · exact hr
  · exact hi .tx
  · exact hi .rx
  · exact hr

/-- `CLEAR` leaves a ring in range (R69). -/
theorem clear_inv {p : Params} (hw : p.wf = true) {q : RingSel} {rb : Ring} (hi : rb.inv p q) :
    (rb.clear p q).inv p q := by
  rw [Ring.clear_eq_empty hi]
  exact Ring.empty_inv (slots_pos hw q)

/-- No command but `POLL` puts a ring out of range. -/
theorem effectOf_rings_inv {i : Instr} {s t : State} (hp : i ≠ .poll) (h : effectOf i s = .ok t)
    (hw : s.params.wf = true) (hi : ∀ q, (s.ring q).inv s.params q) : ∀ q, (t.ring q).inv s.params q := by
  cases i with
  | poll => exact absurd rfl hp
  | pushRx b =>
    obtain ⟨rb, a, hpush, ⟨-, rfl⟩ | ⟨-, rfl⟩⟩ := pushEffect_ok.1 h <;>
      exact setRing_rings_inv hi (Ring.push_inv (hi _) hpush)
  | pushTx b =>
    obtain ⟨rb, a, hpush, ⟨-, rfl⟩ | ⟨-, rfl⟩⟩ := pushEffect_ok.1 h <;>
      exact setRing_rings_inv hi (Ring.push_inv (hi _) hpush)
  | popTx =>
    obtain ⟨rb, v, b, hpop, rfl⟩ := popEffect_ok.1 h
    exact setRing_rings_inv hi (Ring.pop_inv (hi _) hpop)
  | clearRx => cases h; exact setRing_rings_inv hi (clear_inv hw (hi .rx))
  | clearTx => cases h; exact setRing_rings_inv hi (clear_inv hw (hi .tx))
  | read r => simp only [effectOf, readEffect] at h; split at h <;> cases h <;> exact hi
  | wdexp => cases h; split <;> exact hi
  | _ => cases h; exact hi

/-- Every command keeps the invariant. -/
theorem effectOf_inv {i : Instr} {s t : State} (h : effectOf i s = .ok t) (hi : s.inv) : t.inv := by
  by_cases hp : i = .poll
  · subst hp
    obtain ⟨u, hu, rfl⟩ := pollEffect_step h
    have hinv : u.inv := pollStep_inv hu hi
    exact hinv
  · obtain ⟨hw, he, hrx, htx, hfr⟩ := hi
    obtain ⟨efr, -, epar, -⟩ := effectOf_keeps hp h
    have hrings := effectOf_rings_inv hp h hw (fun q => by cases q; exact hrx; exact htx)
    unfold State.inv
    rw [efr, epar]
    exact ⟨hw, he, hrings .rx, hrings .tx, hfr⟩

/-- The reset state of a configuration of R9 whose frames end satisfies the invariant. -/
theorem resetWith_inv {p : Params} (hw : p.wf = true) (he : p.framesEnd) : (State.resetWith p).inv :=
  ⟨hw, he, Ring.empty_inv (slots_pos hw .rx), Ring.empty_inv (slots_pos hw .tx),
    ⟨.nil, by simp [Framer.reset]⟩, by simp [Framer.reset], Nat.zero_le _, Nat.zero_le _, phaseInv_of_idle rfl rfl⟩

/-- Settles O14: empty rings, an empty `raw` and a framer in Idle are in range. -/
theorem resetMeetsInvariant : Obligations.ResetMeetsInvariant :=
  fun _ hw he => resetWith_inv hw he

/-- Settles O43: a command keeps the invariant, the reset state has it, and no other step touches what it speaks of. -/
theorem stepKeepsInvariant : Obligations.StepKeepsInvariant := by
  intro s t hi h
  obtain ⟨hw, ⟨-, rfl⟩ | ⟨lost, rest, -, rfl⟩ | ⟨c, rest, i, -, -, -, h⟩ | ⟨c, rest, i, -, -, -, rfl⟩ |
    ⟨c, rest, e, -, -, rfl⟩⟩ := step_cases h
  · exact hi
  · exact resetWith_inv hw hi.2.1
  · exact effectOf_inv h hi
  · exact hi
  · exact hi

end Sys2Proof.Machine
end

section
/-! PROOFS. The relations of Laws/Poll.lean are exact: what they allow, a poll does. With this a second run of a poll is
shown by the case of the first one. -/

namespace Sys2Proof.Machine

/-- A byte step is a byte read. -/
theorem readByte_of_step {c : Nat} {b : Byte} {s t : State} (h : ByteStep c b s t) : readByte c b s = .ok t := by
  cases h with
  | noise1 hc hb => subst hc; exact readSync1_ok.2 (.inl ⟨hb, rfl⟩)
  | sync1 hc hb hr => subst hc; exact readSync1_ok.2 (.inr ⟨hb, hr, rfl⟩)
  | noise2 hc hb => subst hc; exact readSync2_ok.2 (.inl ⟨hb, rfl⟩)
  | sync2 hc hb hr => subst hc; exact readSync2_ok.2 (.inr ⟨hb, hr, rfl⟩)
  | takeCls hc hr => subst hc; exact readClass_ok.2 ⟨hr, rfl⟩
  | takeId hc hr => subst hc; exact readId_ok.2 ⟨hr, rfl⟩
  | lenLo hc hr => subst hc; exact readLenLo_ok.2 ⟨hr, rfl⟩
  | lenHi hc hr hl =>
    subst hc
    refine readLenHi_ok.2 ⟨hr, ?_⟩
    rw [checkLength, if_neg (by simpa [takeLenHi] using hl)]
  | oversize hc hr hl =>
    subst hc
    refine readLenHi_ok.2 ⟨hr, ?_⟩
    rw [checkLength, if_pos (by simpa [takeLenHi] using hl)]
    simp [takeLenHi]
  | body h6 hr hn =>
    rw [readByte_of_ge h6]
    exact readBody_ok.2 ⟨hr, finishBody_ok.2 (.inr ⟨by simpa using hn, rfl⟩)⟩
  | complete h6 hr hn ok hv =>
    rw [readByte_of_ge h6]
    exact readBody_ok.2 ⟨hr, finishBody_ok.2 (.inl ⟨by simpa using hn, frameComplete_ok.2 ⟨ok, hv, rfl⟩⟩)⟩

/-- `DECODE` of a field within `raw` (R99). -/
theorem decodeField_eq {row : FieldRow} {o : Nat} {s : State}
    (h : s.params.hdrLen + o + row.width.bytes ≤ s.params.rawCap) :
    decodeField row o s = .ok
      (s.setTel (FieldRow.apply row (leWord (s.fr.rawBytes (s.params.hdrLen + o) row.width.bytes)) s.tel)) := by
  obtain ⟨t, ht⟩ := decodeField_of_le h
  rw [ht, (decodeField_ok ht).2]

/-- A poll in Parsing with payload left does one field group (R91). -/
theorem pollFramer_parsing {s : State} (h : s.fr.fstate = .parsing) (hl : s.fr.pcur.toNat < s.fr.plen.toNat) :
    pollFramer s = fdStep s := by
  rw [pollFramer, h]
  exact if_neg (Nat.not_le.2 hl)

/-- A poll step is the framer's step. -/
theorem pollFramer_of_step {s t : State} (h : PollStep s t) : pollFramer s = .ok t := by
  cases h with
  | start h ho => simp [pollFramer, h, pollIdle, ho]
  | quiet h ho => simp [pollFramer, h, pollIdle, ho]
  | wait h ho => rw [pollFramer, h]; exact pollReading_ok.2 (.inl ⟨ho, rfl⟩)
  | byte h ho hf hh t hb =>
    rw [pollFramer, h]
    exact pollReading_ok.2 (.inr ⟨ho, hf, hh, readByte_of_step hb⟩)
  | done h hl => simp [pollFramer, h, pollParsing, hl]
  | unknown h hl hk => simp [pollFramer_parsing h hl, fdStep, hk, advancePcur]
  | skip h hl hk he => simp [pollFramer_parsing h hl, fdStep, hk, he, advancePcur]
  | misfit h hl hk row he hw => simp [pollFramer_parsing h hl, fdStep, hk, he, Nat.not_le.2 hw, advancePcur]
  | field h hl hk row he hw hr =>
    simp [pollFramer_parsing h hl, fdStep, hk, he, hw, decodeField_eq hr, advancePcur]

/-- A poll answers where, and only where, a poll step says so (R79). -/
theorem pollEffect_iff {s t : State} : pollEffect s = .ok t ↔ ∃ u, PollStep s u ∧ t = u.respond true 0 :=
  ⟨pollEffect_step, fun ⟨u, hu, e⟩ => pollEffect_ok.2 ⟨u, pollFramer_of_step hu, e⟩⟩

/-- A step with no input left (R123). -/
theorem step_of_nil {s : State} (hw : s.params.wf = true) (hi : s.input = []) : step s = .next s := by
  unfold step
  rw [hi]
  exact configured_of_wf hw _

/-- A step that takes a RESET (R124). -/
theorem step_of_reset {s : State} {lost : List Command} {rest : List Input} (hw : s.params.wf = true)
    (hi : s.input = .reset lost :: rest) : step s = .next (applyReset rest s) := by
  unfold step
  rw [hi]
  exact configured_of_wf hw _

/-- A step that takes a command runs it (R45). -/
theorem step_of_cmd {s : State} {c : Command} {rest : List Input} (hi : s.input = .cmd c :: rest) :
    step s = runCommand c rest s := by
  unfold step
  rw [hi]

/-- A step that takes a legal command on its port (R55). -/
theorem step_of_legal {s t : State} {c : Command} {rest : List Input} {i : Instr} (hw : s.params.wf = true)
    (hi : s.input = .cmd c :: rest) (hd : decode c.word = .ok i) (hp : c.port = i.port)
    (h : effectOf i (s.accept c rest) = .ok t) : step s = .next t := by
  rw [step_of_cmd hi, runCommand_ok hd]
  exact exec_next.2 ⟨hw, .inl ⟨hp, h⟩⟩

/-- A step that takes a legal word on another port (R57 (f)). -/
theorem step_of_other_port {s : State} {c : Command} {rest : List Input} {i : Instr} (hw : s.params.wf = true)
    (hi : s.input = .cmd c :: rest) (hd : decode c.word = .ok i) (hp : c.port ≠ i.port) :
    step s = .next (illegalCommand (encode i) (s.accept c rest)) := by
  rw [step_of_cmd hi, runCommand_ok hd]
  exact exec_of_other_port hw hp

/-- A step that takes a word of no row (R57). -/
theorem step_of_illegal {s : State} {c : Command} {rest : List Input} {e : Illegal} (hw : s.params.wf = true)
    (hi : s.input = .cmd c :: rest) (hd : decode c.word = .error e) :
    step s = .next (illegalCommand c.word (s.accept c rest)) := by
  rw [step_of_cmd hi, runCommand_error hd]
  exact configured_of_wf hw _

end Sys2Proof.Machine
end

section
/-! PROOFS. Stale slots of one ring (R18): the occupancy modulo `N`, whatever the indices, and that pushes and
pops of two rings with the same queue go alike. -/

namespace Sys2Proof.Machine

/-- R18, whatever the indices: the occupancy is the one number below `N` that leads from `head` to `tail` modulo `N`. -/
theorem Ring.occ_eq_iff {n x : Nat} {rb : Ring} (hn : 0 < n) :
    rb.occ n = x ↔ x < n ∧ rb.head + x ≡ rb.tail [MOD n] := by
  have hlt := Ring.occ_lt rb hn
  have hmod : rb.head + rb.occ n ≡ rb.tail [MOD n] := by
    have hcast : ((rb.occ n : Nat) : Int) = ((rb.tail : Int) - rb.head) % n :=
      Int.toNat_of_nonneg (Int.emod_nonneg _ (by omega))
    rw [Nat.modEq_iff_dvd, Nat.cast_add, hcast, ← sub_sub]
    exact Int.dvd_self_sub_emod
  constructor
  · rintro rfl
    exact ⟨hlt, hmod⟩
  · rintro ⟨hx, h⟩
    exact Nat.ModEq.eq_of_lt_of_lt (Nat.ModEq.add_left_cancel' _ (hmod.trans h.symm)) hlt hx

/-- The occupancy after `tail` moves on, whatever `head` is. -/
theorem Ring.occ_push {n : Nat} {rb : Ring} (ht : rb.tail < n) (hf : rb.occ n ≠ n - 1) (mem : Memory) :
    Ring.occ n { rb with mem := mem, tail := incN n rb.tail } = rb.occ n + 1 := by
  have hn : 0 < n := by omega
  obtain ⟨hlt, hmod⟩ := (Ring.occ_eq_iff hn).1 (rfl : rb.occ n = _)
  refine (Ring.occ_eq_iff hn).2 ⟨by omega, ?_⟩
  simp only [incN_eq_mod ht, ← Nat.add_assoc]
  exact (hmod.add_right 1).trans (Nat.mod_modEq _ _).symm

/-- The occupancy after `head` moves on, whatever `tail` is. -/
theorem Ring.occ_pop {n : Nat} {rb : Ring} (hh : rb.head < n) (he : rb.occ n ≠ 0) :
    Ring.occ n { rb with head := incN n rb.head } = rb.occ n - 1 := by
  have hn : 0 < n := by omega
  obtain ⟨hlt, hmod⟩ := (Ring.occ_eq_iff hn).1 (rfl : rb.occ n = _)
  refine (Ring.occ_eq_iff hn).2 ⟨by omega, ?_⟩
  simp only [incN_eq_mod hh]
  refine ((Nat.mod_modEq _ _).add_right _).trans ?_
  rwa [Nat.add_assoc, Nat.add_sub_cancel' (Nat.one_le_iff_ne_zero.2 he)]

/-- Rings with the same queue are one ring with other storage, which agrees on the queued slots. -/
theorem Ring.sameQueue_iff {n : Nat} {a b : Ring} : a.sameQueue n b ↔
    b = { a with mem := b.mem } ∧
      ∀ k < a.occ n, a.mem.read ((a.head + k) % n) = b.mem.read ((a.head + k) % n) := by
  constructor
  · rintro ⟨hh, ht, ho, hq⟩
    have hb : b = { a with mem := b.mem } := by rw [hh, ht, ho]
    refine ⟨hb, ?_⟩
    rw [hb] at hq
    simpa [Ring.queue, Ring.occ] using hq
  · rintro ⟨hb, hq⟩
    rw [hb]
    refine ⟨rfl, rfl, rfl, ?_⟩
    simpa [Ring.queue, Ring.occ] using hq

theorem Ring.sameQueue_refl (n : Nat) (rb : Ring) : rb.sameQueue n rb := ⟨rfl, rfl, rfl, rfl⟩

theorem Ring.sameQueue_occ {n : Nat} {a b : Ring} (h : a.sameQueue n b) : a.occ n = b.occ n := by
  rw [Ring.occ, Ring.occ, h.1, h.2.1]

/-- The byte at `head` of a ring that is not empty is queued (R18). -/
theorem Ring.sameQueue_head {n : Nat} {a b : Ring} (h : a.sameQueue n b) (hh : a.head < n) (he : a.occ n ≠ 0) :
    a.mem.read a.head = b.mem.read b.head := by
  obtain ⟨hb, hq⟩ := Ring.sameQueue_iff.1 h
  have h0 := hq 0 (Nat.pos_of_ne_zero he)
  rw [Nat.add_zero, Nat.mod_eq_of_lt hh] at h0
  rw [h0, hb]

/-- Popping one byte from each of two rings with the same queue leaves two rings with the same queue (R67). -/
theorem Ring.sameQueue_advance {n : Nat} {a b : Ring} (h : a.sameQueue n b) (hh : a.head < n) (he : a.occ n ≠ 0) :
    Ring.sameQueue n { a with head := incN n a.head } { b with head := incN n b.head } := by
  obtain ⟨hb, hq⟩ := Ring.sameQueue_iff.1 h
  refine Ring.sameQueue_iff.2 ⟨by rw [hb], fun k hk => ?_⟩
  rw [Ring.occ_pop hh he] at hk
  have hslot := hq (k + 1) (by omega)
  simp only [incN_eq_mod hh, Nat.mod_add_mod]
  rwa [Nat.add_assoc, Nat.add_comm 1 k]

/-- `RB_PUSH` goes alike at two rings with the same queue (R66). -/
theorem Ring.push_sameQueue {p : Params} {q : RingSel} {a b a' : Ring} {x : Byte} {v : Bool}
    (h : a.sameQueue (p.slots q) b) (hp : a.push p q x = .ok (a', v)) :
    ∃ b', b.push p q x = .ok (b', v) ∧ a'.sameQueue (p.slots q) b' := by
  have hocc := Ring.sameQueue_occ h
  obtain ⟨hb, hq⟩ := Ring.sameQueue_iff.1 h
  have htail : b.tail = a.tail := by rw [hb]
  rcases Ring.push_cases hp with ⟨hf, rfl, rfl⟩ | ⟨hf, rfl, ht, rfl⟩
  · exact ⟨_, Ring.push_full x (hocc ▸ hf), Ring.sameQueue_iff.2 ⟨by rw [hb], hq⟩⟩
  · refine ⟨_, Ring.push_not_full x (hocc ▸ hf) (htail ▸ ht), Ring.sameQueue_iff.2 ⟨by rw [hb], fun k hk => ?_⟩⟩
    rw [Ring.occ_push ht hf] at hk
    simp only [Memory.read_write, htail]
    split
    · rfl
    · next hne =>
      refine hq k (lt_of_le_of_ne (Nat.le_of_lt_succ hk) ?_)
      rintro rfl
      obtain ⟨-, hmod⟩ := (Ring.occ_eq_iff (Nat.zero_lt_of_lt ht)).1 (rfl : a.occ (p.slots q) = _)
      exact hne (Eq.trans hmod (Nat.mod_eq_of_lt ht))

/-- `RB_POP` goes alike at two rings with the same queue, and pops the same byte (R67). -/
theorem Ring.pop_sameQueue {p : Params} {q : RingSel} {a b a' : Ring} {x : Byte} {v : Bool}
    (h : a.sameQueue (p.slots q) b) (hp : a.pop p q = .ok (a', v, x)) :
    ∃ b', b.pop p q = .ok (b', v, x) ∧ a'.sameQueue (p.slots q) b' := by
  have hocc := Ring.sameQueue_occ h
  rcases Ring.pop_cases hp with ⟨he, rfl, rfl, rfl⟩ | ⟨he, rfl, hh, rfl, rfl⟩
  · exact ⟨b, Ring.pop_empty (hocc ▸ he), h⟩
  · rw [Ring.sameQueue_head h hh he]
    exact ⟨_, Ring.pop_not_empty (hocc ▸ he) (h.1 ▸ hh), Ring.sameQueue_advance h hh he⟩

/-- Two cleared rings have the same queue: none (R69). -/
theorem Ring.clear_sameQueue (p : Params) (q : RingSel) (a b : Ring) :
    (a.clear p q).sameQueue (p.slots q) (b.clear p q) := by
  simp [Ring.sameQueue, Ring.clear, Ring.queue, Ring.occ]

end Sys2Proof.Machine
end

section
/-! PROOFS. Two runs that differ in stale bytes (R18, R80): a state with other storage, how each operation carries it on, and
that each step of one state is a step of the other. -/

namespace Sys2Proof.Machine

/-- A framer with other bytes in `raw`. -/
def Framer.withRaw (fr : Framer) (raw : Memory) : Framer := { fr with raw := raw }

/-- A state with other rings and other bytes in `raw`. -/
def State.withStale (s : State) (rx tx : Ring) (raw : Memory) : State :=
  { s with rx := rx, tx := tx, fr := s.fr.withRaw raw }

/-- The states that differ from `s` at most in stale bytes. -/
theorem State.sameLive_iff {s t : State} : s.sameLive t ↔ ∃ rx tx raw, t = s.withStale rx tx raw ∧
    s.rx.sameQueue s.params.rxN rx ∧ s.tx.sameQueue s.params.txN tx ∧
    ∀ i < s.fr.liveBytes s.params, s.fr.raw.read i = raw.read i := by
  constructor
  · rintro ⟨hs, hrx, htx, hfr, hraw⟩
    refine ⟨t.rx, t.tx, t.fr.raw, ?_, hrx, htx, hraw⟩
    rw [hs, hfr]
    rfl
  · rintro ⟨rx, tx, raw, rfl, hrx, htx, hraw⟩
    exact ⟨rfl, hrx, htx, rfl, hraw⟩

theorem State.sameLive_refl (s : State) : s.sameLive s :=
  ⟨rfl, Ring.sameQueue_refl _ _, Ring.sameQueue_refl _ _, rfl, fun _ _ => rfl⟩

theorem State.sameLive_params {s t : State} (h : s.sameLive t) : s.params = t.params := by
  obtain ⟨rx, tx, raw, rfl, -⟩ := State.sameLive_iff.1 h
  rfl

theorem State.sameLive_input {s t : State} (h : s.sameLive t) : s.input = t.input := by
  obtain ⟨rx, tx, raw, rfl, -⟩ := State.sameLive_iff.1 h
  rfl

theorem State.sameLive_resp {s t : State} (h : s.sameLive t) : s.resp = t.resp := by
  obtain ⟨rx, tx, raw, rfl, -⟩ := State.sameLive_iff.1 h
  rfl

theorem State.sameLive_conn {s t : State} (h : s.sameLive t) : s.conn = t.conn := by
  obtain ⟨rx, tx, raw, rfl, -⟩ := State.sameLive_iff.1 h
  rfl

theorem State.sameLive_ring {s t : State} (h : s.sameLive t) (q : RingSel) :
    (s.ring q).sameQueue (s.params.slots q) (t.ring q) := by
  obtain ⟨-, hrx, htx, -⟩ := h
  cases q with
  | rx => exact hrx
  | tx => exact htx

theorem State.sameLive_setRing {s t : State} (h : s.sameLive t) {q : RingSel} {a b : Ring}
    (hr : a.sameQueue (s.params.slots q) b) : (s.setRing q a).sameLive (t.setRing q b) := by
  obtain ⟨rx, tx, raw, rfl, hrx, htx, hraw⟩ := State.sameLive_iff.1 h
  cases q with
  | rx => exact State.sameLive_iff.2 ⟨b, tx, raw, rfl, hr, htx, hraw⟩
  | tx => exact State.sameLive_iff.2 ⟨rx, b, raw, rfl, hrx, hr, hraw⟩

theorem State.sameLive_record {s t : State} (h : s.sameLive t) (e : Event) : (s.record e).sameLive (t.record e) :=
  ⟨congrArg (State.record · e) h.1, h.2⟩

theorem State.sameLive_respond {s t : State} (h : s.sameLive t) (ok : Bool) (d : Data) :
    (s.respond ok d).sameLive (t.respond ok d) :=
  ⟨congrArg (State.respond · ok d) h.1, h.2⟩

theorem State.sameLive_setConn {s t : State} (h : s.sameLive t) (c : Conn) : (s.setConn c).sameLive (t.setConn c) :=
  ⟨congrArg (State.setConn · c) h.1, h.2⟩

theorem State.sameLive_accept {s t : State} (h : s.sameLive t) (c : Command) (rest : List Input) :
    (s.accept c rest).sameLive (t.accept c rest) :=
  ⟨congrArg (State.accept · c rest) h.1, h.2⟩

theorem State.sameLive_illegalCommand {s t : State} (h : s.sameLive t) (w : Word) :
    (illegalCommand w s).sameLive (illegalCommand w t) :=
  ⟨congrArg (illegalCommand w) h.1, h.2⟩

/-! The bytes that the framer loads. -/

theorem Memory.load_congr {sp : Space} {n i : Nat} {m m' : Memory} (h : m.read i = m'.read i) :
    m.load sp n i = m'.load sp n i := by
  rw [Memory.load, Memory.load, h]

theorem Memory.loadRange_congr {sp : Space} {n i k : Nat} {m m' : Memory}
    (h : ∀ j, i ≤ j → j < i + k → m.read j = m'.read j) : m.loadRange sp n i k = m'.loadRange sp n i k := by
  induction k generalizing i with
  | zero => rfl
  | succ k ih =>
    rw [Memory.loadRange, Memory.loadRange, Memory.load_congr (h i le_rfl (by omega)),
      ih fun j hj hj' => h j (by omega) (by omega)]

/-- The verdict depends on the frame's own bytes alone (R90). -/
theorem ckVerdict_withRaw {p : Params} {fr : Framer} {raw : Memory} (ht : 4 ≤ total p fr.plen)
    (h : ∀ i < total p fr.plen, fr.raw.read i = raw.read i) : ckVerdict p (fr.withRaw raw) = ckVerdict p fr := by
  have hrange : fr.raw.loadRange .raw p.rawCap 2 (total p fr.plen - 4) =
      raw.loadRange .raw p.rawCap 2 (total p fr.plen - 4) :=
    Memory.loadRange_congr fun j _ hj => h j (by omega)
  simp only [ckVerdict, expectedCk, Framer.withRaw, hrange,
    Memory.load_congr (h (total p fr.plen - 2) (by omega)), Memory.load_congr (h (total p fr.plen - 1) (by omega))]

/-- Bytes of `raw` in the live part are read alike. -/
theorem Framer.rawBytes_withRaw {fr : Framer} {raw : Memory} {i n : Nat}
    (h : ∀ j < i + n, fr.raw.read j = raw.read j) : (fr.withRaw raw).rawBytes i n = fr.rawBytes i n := by
  refine List.map_congr_left fun k hk => (h (i + k) ?_).symm
  have := List.mem_range.1 hk
  omega

/-! Each operation of the framer with other bytes in `raw`: none looks at them. -/

theorem ckAcc_withRaw (p : Params) (fr : Framer) (raw : Memory) (b : Byte) :
    ckAcc p (fr.withRaw raw) b = (ckAcc p fr b).withRaw raw := by
  unfold ckAcc
  split <;> rfl

theorem takeClass_withRaw (p : Params) (b : Byte) (fr : Framer) (raw : Memory) :
    takeClass p b (fr.withRaw raw) = (takeClass p b fr).withRaw raw := by
  rw [takeClass, ckAcc_withRaw]
  rfl

theorem takeId_withRaw (p : Params) (b : Byte) (fr : Framer) (raw : Memory) :
    Machine.takeId p b (fr.withRaw raw) = (Machine.takeId p b fr).withRaw raw := by
  rw [Machine.takeId, ckAcc_withRaw]
  rfl

theorem takeLenLo_withRaw (p : Params) (b : Byte) (fr : Framer) (raw : Memory) :
    takeLenLo p b (fr.withRaw raw) = (takeLenLo p b fr).withRaw raw := by
  rw [takeLenLo, ckAcc_withRaw]
  rfl

theorem takeLenHi_withRaw (p : Params) (b : Byte) (fr : Framer) (raw : Memory) :
    takeLenHi p b (fr.withRaw raw) = (takeLenHi p b fr).withRaw raw := by
  rw [takeLenHi, ckAcc_withRaw]
  rfl

theorem takeBody_withRaw (p : Params) (c : Nat) (b : Byte) (fr : Framer) (raw : Memory) :
    takeBody p c b (fr.withRaw raw) = (takeBody p c b fr).withRaw raw := by
  unfold takeBody
  rw [ckAcc_withRaw, show (fr.withRaw raw).plen = fr.plen from rfl]
  split <;> rfl

theorem takeVerdict_withStale (ok : Bool) (s : State) (rx tx : Ring) (raw : Memory) :
    takeVerdict ok (s.withStale rx tx raw) = (takeVerdict ok s).withStale rx tx raw := by
  cases ok <;> rfl

theorem applyPolicy_withStale (ok : Bool) (s : State) (rx tx : Ring) (raw : Memory) :
    applyPolicy ok (s.withStale rx tx raw) = (applyPolicy ok s).withStale rx tx raw := by
  unfold applyPolicy
  rw [show (s.withStale rx tx raw).params = s.params from rfl]
  split <;> rfl

/-- A byte read at other storage: the same case, and the byte stored in the same place (R83 to R90). -/
theorem byteStep_withStale {c : Nat} {b : Byte} {s u : State} (h : ByteStep c b s u) (rx tx : Ring) {raw : Memory}
    (hraw : ∀ i < c, s.fr.raw.read i = raw.read i) :
    ∃ raw', ByteStep c b (s.withStale rx tx raw) (u.withStale rx tx raw') ∧
      (u.fr.fstate = .idle ∨ (u.fr.raw = s.fr.raw.write c b ∧ raw' = raw.write c b)) := by
  have hset : (s.withStale rx tx raw).rawSet c b = (s.rawSet c b).withRaw (raw.write c b) := rfl
  have hfr : ∀ fr, (s.withStale rx tx raw).setFr (fr.withRaw (raw.write c b)) =
      (s.setFr fr).withStale rx tx (raw.write c b) := fun _ => rfl
  cases h with
  | noise1 hc hb => exact ⟨raw, .noise1 hc hb, .inl rfl⟩
  | noise2 hc hb => exact ⟨raw, .noise2 hc hb, .inl rfl⟩
  | sync1 hc hb hr => exact ⟨_, .sync1 hc hb hr, .inr ⟨rfl, rfl⟩⟩
  | sync2 hc hb hr => exact ⟨_, .sync2 hc hb hr, .inr ⟨rfl, rfl⟩⟩
  | takeCls hc hr =>
    have hstep := ByteStep.takeCls (b := b) (s := s.withStale rx tx raw) hc hr
    rw [hset, takeClass_withRaw, hfr] at hstep
    exact ⟨_, hstep, .inr ⟨by simp [takeClass], rfl⟩⟩
  | takeId hc hr =>
    have hstep := ByteStep.takeId (b := b) (s := s.withStale rx tx raw) hc hr
    rw [hset, takeId_withRaw, hfr] at hstep
    exact ⟨_, hstep, .inr ⟨by simp [Machine.takeId], rfl⟩⟩
  | lenLo hc hr =>
    have hstep := ByteStep.lenLo (b := b) (s := s.withStale rx tx raw) hc hr
    rw [hset, takeLenLo_withRaw, hfr] at hstep
    exact ⟨_, hstep, .inr ⟨by simp [takeLenLo], rfl⟩⟩
  | lenHi hc hr hl =>
    have hstep := ByteStep.lenHi (b := b) (s := s.withStale rx tx raw) hc hr hl
    rw [hset, takeLenHi_withRaw, hfr] at hstep
    exact ⟨_, hstep, .inr ⟨by simp [takeLenHi], rfl⟩⟩
  | oversize hc hr hl =>
    have hstep := ByteStep.oversize (b := b) (s := s.withStale rx tx raw) hc hr hl
    rw [hset, takeLenHi_withRaw, hfr] at hstep
    exact ⟨_, hstep, .inl rfl⟩
  | body hc hr hn =>
    have hstep := ByteStep.body (b := b) (s := s.withStale rx tx raw) hc hr hn
    rw [hset, takeBody_withRaw, hfr] at hstep
    exact ⟨_, hstep, .inr ⟨by simp, rfl⟩⟩
  | complete hc hr hn ok hv =>
    have hv' : ckVerdict s.params ((takeBody s.params c b (s.rawSet c b)).withRaw (raw.write c b)) = .ok ok := by
      rw [ckVerdict_withRaw, hv]
      · rw [takeBody_plen]
        show 4 ≤ total s.params s.fr.plen
        omega
      · intro i hi
        rw [takeBody_plen] at hi
        change i < total s.params s.fr.plen at hi
        simp only [takeBody_raw, Memory.read_write]
        split
        · rfl
        · exact hraw i (by omega)
    have hstep := ByteStep.complete (b := b) (s := s.withStale rx tx raw) hc hr hn ok
      (by rw [hset, takeBody_withRaw]; exact hv')
    rw [hset, takeBody_withRaw, hfr, takeVerdict_withStale, applyPolicy_withStale] at hstep
    refine ⟨_, hstep, .inr ⟨?_, rfl⟩⟩
    rcases applyPolicy_cases ok (takeVerdict ok (s.setFr (takeBody s.params c b (s.rawSet c b)))) with
      ⟨-, e⟩ | ⟨-, -, e⟩ <;> simp [e]

/-- After the byte at cursor `c` no byte past index `c` is live. -/
theorem byteStep_liveBytes_le {c : Nat} {b : Byte} {s t : State} (h : ByteStep c b s t)
    (hs : s.fr.fstate = .reading) : t.fr.liveBytes s.params ≤ c + 1 := by
  have hread : ∀ fr : Framer, fr.fstate = .reading → fr.cursor.toNat ≤ c + 1 → fr.liveBytes s.params ≤ c + 1 := by
    intro fr hf hc
    simpa [Framer.liveBytes, hf]
  cases h with
  | noise1 hc hb => exact Nat.zero_le _
  | noise2 hc hb => exact Nat.zero_le _
  | sync1 hc hb hr => exact hread _ hs (by simp [hc])
  | sync2 hc hb hr => exact hread _ hs (by simp [hc])
  | takeCls hc hr => exact hread _ (by simpa [takeClass]) (by simp [takeClass, hc])
  | takeId hc hr => exact hread _ (by simpa [Machine.takeId]) (by simp [Machine.takeId, hc])
  | lenLo hc hr => exact hread _ (by simpa [takeLenLo]) (by simp [takeLenLo, hc])
  | lenHi hc hr hl => exact hread _ (by simpa [takeLenHi]) (by simp [takeLenHi, hc])
  | oversize hc hr hl => exact Nat.zero_le _
  | body hc hr hn => exact hread _ (by simpa) (by simp [Nat.mod_le])
  | complete hc hr hn ok hv =>
    rcases applyPolicy_cases ok (takeVerdict ok (s.setFr (takeBody s.params c b (s.rawSet c b)))) with
      ⟨-, e⟩ | ⟨-, -, e⟩ <;> rw [e]
    · show total s.params (takeVerdict ok (s.setFr (takeBody s.params c b (s.rawSet c b)))).fr.plen ≤ c + 1
      rw [takeVerdict_plen, State.setFr_fr, takeBody_plen]
      show total s.params s.fr.plen ≤ c + 1
      omega
    · exact Nat.zero_le _

/-- Of two states that differ in stale bytes, a byte read at one is read alike at the other. -/
theorem byteStep_sameLive {b : Byte} {s t u : State} (h : s.sameLive t)
    (hp : ByteStep s.fr.cursor.toNat b s u) (hs : s.fr.fstate = .reading) :
    ∃ u', ByteStep s.fr.cursor.toNat b t u' ∧ u.sameLive u' := by
  obtain ⟨rx, tx, raw, rfl, hrx, htx, hraw⟩ := State.sameLive_iff.1 h
  have hlive : s.fr.liveBytes s.params = s.fr.cursor.toNat := by rw [Framer.liveBytes, hs]
  rw [hlive] at hraw
  obtain ⟨epar, -, etx, erx, -⟩ := byteStep_history hp
  have hle := byteStep_liveBytes_le hp hs
  obtain ⟨raw', hp', hcase⟩ := byteStep_withStale hp rx tx hraw
  refine ⟨_, hp', State.sameLive_iff.2 ⟨rx, tx, raw', rfl, ?_, ?_, ?_⟩⟩ <;> rw [epar]
  · rwa [erx]
  · rwa [etx]
  · intro i hi
    rcases hcase with hidle | ⟨e, e'⟩
    · simp [Framer.liveBytes, hidle] at hi
    · rw [e, e', Memory.read_write, Memory.read_write]
      split
      · rfl
      · exact hraw i (by omega)

/-- Of two states that differ in stale bytes, a poll of one goes as a poll of the other. -/
theorem pollStep_sameLive {s t u : State} (h : s.sameLive t) (hp : PollStep s u) :
    ∃ u', PollStep t u' ∧ u.sameLive u' := by
  obtain ⟨rx, tx, raw, rfl, hrx, htx, hraw⟩ := State.sameLive_iff.1 h
  have hocc := Ring.sameQueue_occ hrx
  cases hp with
  | start hs ho => exact ⟨_, .start hs (hocc ▸ ho), State.sameLive_iff.2 ⟨rx, tx, raw, rfl, hrx, htx, nofun⟩⟩
  | quiet hs ho => exact ⟨_, .quiet hs (hocc ▸ ho), h⟩
  | wait hs ho => exact ⟨_, .wait hs (ho.imp_left hocc.symm.trans), h⟩
  | byte hs ho hf hh _ hb =>
    have hpop : s.popped.sameLive (s.withStale rx tx raw).popped :=
      State.sameLive_setRing (q := .rx) h (Ring.sameQueue_advance hrx hh ho)
    have hbyte : s.nextByte = (s.withStale rx tx raw).nextByte := Ring.sameQueue_head hrx hh ho
    obtain ⟨u', hb', hu⟩ := byteStep_sameLive hpop hb hs
    rw [hbyte] at hb'
    exact ⟨u', .byte (s := s.withStale rx tx raw) hs (hocc ▸ ho) hf (hrx.1 ▸ hh) u' hb', hu⟩
  | done hs hl => exact ⟨_, .done hs hl, State.sameLive_iff.2 ⟨rx, tx, raw, rfl, hrx, htx, nofun⟩⟩
  | unknown hs hl hk => exact ⟨_, .unknown hs hl hk, State.sameLive_iff.2 ⟨rx, tx, raw, rfl, hrx, htx, hraw⟩⟩
  | skip hs hl hk he => exact ⟨_, .skip hs hl hk he, State.sameLive_iff.2 ⟨rx, tx, raw, rfl, hrx, htx, hraw⟩⟩
  | misfit hs hl hk row he hw =>
    exact ⟨_, .misfit (s := s.withStale rx tx raw) hs hl hk row he hw,
      State.sameLive_iff.2 ⟨rx, tx, raw, rfl, hrx, htx, hraw⟩⟩
  | field hs hl hk row he hw hr =>
    have hbytes : (s.fr.withRaw raw).rawBytes (s.params.hdrLen + s.fr.pcur.toNat) row.width.bytes =
        s.fr.rawBytes (s.params.hdrLen + s.fr.pcur.toNat) row.width.bytes := by
      refine Framer.rawBytes_withRaw fun j hj => hraw j ?_
      simp only [Framer.liveBytes, hs, total]
      omega
    refine ⟨_, .field (s := s.withStale rx tx raw) hs hl hk row he hw hr,
      State.sameLive_iff.2 ⟨rx, tx, raw, ?_, hrx, htx, hraw⟩⟩
    exact congrArg (fun bs => ((s.setTel (FieldRow.apply row (leWord bs) s.tel)).setFr
      { s.fr with pcur := pcurOf (s.fr.pcur.toNat + row.width.bytes) }).withStale rx tx raw) hbytes

/-- No register of the map shows a stale byte (R31). -/
theorem reg_sameLive {s t : State} (h : s.sameLive t) (r : Reg) : s.reg r = t.reg r := by
  obtain ⟨rx, tx, raw, rfl, ⟨-, -, hrx, -⟩, ⟨-, -, htx, -⟩, -⟩ := State.sameLive_iff.1 h
  cases r with
  | rxOvf => exact congrArg zext32 hrx
  | txOvf => exact congrArg zext32 htx
  | _ => rfl

theorem pushEffect_sameLive {q : RingSel} {b : Byte} {s t s' : State} (h : s.sameLive t)
    (he : pushEffect q b s = .ok s') : ∃ t', pushEffect q b t = .ok t' ∧ s'.sameLive t' ∧ s'.resp = t'.resp := by
  obtain ⟨rb, a, hpush, hs'⟩ := pushEffect_ok.1 he
  obtain ⟨rb', hpush', hrb⟩ := Ring.push_sameQueue (State.sameLive_ring h q) hpush
  rw [State.sameLive_params h] at hpush'
  have hset := State.sameLive_setRing h hrb
  rcases hs' with ⟨ha, rfl⟩ | ⟨ha, rfl⟩
  · exact ⟨_, pushEffect_ok.2 ⟨rb', a, hpush', .inl ⟨ha, rfl⟩⟩, State.sameLive_respond hset _ _, rfl⟩
  · exact ⟨_, pushEffect_ok.2 ⟨rb', a, hpush', .inr ⟨ha, rfl⟩⟩,
      State.sameLive_respond (State.sameLive_record hset _) _ _, rfl⟩

theorem popEffect_sameLive {q : RingSel} {s t s' : State} (h : s.sameLive t)
    (he : popEffect q s = .ok s') : ∃ t', popEffect q t = .ok t' ∧ s'.sameLive t' ∧ s'.resp = t'.resp := by
  obtain ⟨rb, v, b, hpop, rfl⟩ := popEffect_ok.1 he
  obtain ⟨rb', hpop', hrb⟩ := Ring.pop_sameQueue (State.sameLive_ring h q) hpop
  rw [State.sameLive_params h] at hpop'
  exact ⟨_, popEffect_ok.2 ⟨rb', v, b, hpop', rfl⟩, State.sameLive_respond (State.sameLive_setRing h hrb) _ _, rfl⟩

theorem lenEffect_sameLive {q : RingSel} {s t s' : State} (h : s.sameLive t)
    (he : lenEffect q s = .ok s') : ∃ t', lenEffect q t = .ok t' ∧ s'.sameLive t' ∧ s'.resp = t'.resp := by
  cases he
  refine ⟨_, rfl, ?_⟩
  rw [Ring.len, Ring.len, ← State.sameLive_params h, ← Ring.sameQueue_occ (State.sameLive_ring h q)]
  exact ⟨State.sameLive_respond h _ _, rfl⟩

theorem isEmptyEffect_sameLive {q : RingSel} {s t s' : State} (h : s.sameLive t)
    (he : isEmptyEffect q s = .ok s') : ∃ t', isEmptyEffect q t = .ok t' ∧ s'.sameLive t' ∧ s'.resp = t'.resp := by
  cases he
  refine ⟨_, rfl, ?_⟩
  rw [Ring.isEmpty, Ring.isEmpty, ← State.sameLive_params h, ← Ring.sameQueue_occ (State.sameLive_ring h q)]
  exact ⟨State.sameLive_respond h _ _, rfl⟩

theorem clearEffect_sameLive {q : RingSel} {s t s' : State} (h : s.sameLive t)
    (he : clearEffect q s = .ok s') : ∃ t', clearEffect q t = .ok t' ∧ s'.sameLive t' ∧ s'.resp = t'.resp := by
  cases he
  have hclear := Ring.clear_sameQueue s.params q (s.ring q) (t.ring q)
  refine ⟨_, rfl, ?_⟩
  rw [← State.sameLive_params h]
  exact ⟨State.sameLive_respond (State.sameLive_setRing h hclear) _ _, rfl⟩

/-- Of two states that differ in stale bytes, each command answers the same and leaves two such states. -/
theorem effectOf_sameLive {i : Instr} {s t s' : State} (h : s.sameLive t) (he : effectOf i s = .ok s') :
    ∃ t', effectOf i t = .ok t' ∧ s'.sameLive t' ∧ s'.resp = t'.resp := by
  cases i with
  | pushRx b => exact pushEffect_sameLive h he
  | pushTx b => exact pushEffect_sameLive h he
  | popTx => exact popEffect_sameLive h he
  | lenRx => exact lenEffect_sameLive h he
  | lenTx => exact lenEffect_sameLive h he
  | isEmptyRx => exact isEmptyEffect_sameLive h he
  | isEmptyTx => exact isEmptyEffect_sameLive h he
  | clearRx => exact clearEffect_sameLive h he
  | clearTx => exact clearEffect_sameLive h he
  | poll =>
    obtain ⟨u, hu, rfl⟩ := pollEffect_iff.1 he
    obtain ⟨u', hu', hlive⟩ := pollStep_sameLive h hu
    exact ⟨_, pollEffect_iff.2 ⟨u', hu', rfl⟩, State.sameLive_respond hlive _ _, rfl⟩
  | read r =>
    simp only [effectOf, readEffect] at he ⊢
    cases hr : Reg.ofSel r with
    | some reg =>
      rw [hr] at he
      cases he
      rw [reg_sameLive h reg]
      exact ⟨_, rfl, State.sameLive_respond h _ _, rfl⟩
    | none =>
      rw [hr] at he
      cases he
      exact ⟨_, rfl, State.sameLive_illegalCommand h _, rfl⟩
  | wdexp =>
    have harmed : s.conn.wdArmed = t.conn.wdArmed := congrArg Conn.wdArmed (State.sameLive_conn h)
    cases he
    refine ⟨_, rfl, ?_⟩
    rw [← harmed]
    split
    · exact ⟨State.sameLive_respond (State.sameLive_record (State.sameLive_setConn h _) _) _ _, rfl⟩
    · exact ⟨State.sameLive_respond h _ _, rfl⟩

/-- Settles O53: every load lies inside the queue or the live bytes, so a step of one state is a step of the other, case by
case. -/
theorem staleBytesAreUnobservable : Obligations.StaleBytesAreUnobservable := by
  intro s t s' h hstep
  have hpar := State.sameLive_params h
  have hin := State.sameLive_input h
  obtain ⟨hw, ⟨hi, rfl⟩ | ⟨lost, rest, hi, rfl⟩ | ⟨c, rest, i, hi, hd, hp, he⟩ | ⟨c, rest, i, hi, hd, hp, rfl⟩ |
    ⟨c, rest, e, hi, hd, rfl⟩⟩ := step_cases hstep <;> rw [hpar] at hw <;> rw [hin] at hi
  · exact ⟨t, step_of_nil hw hi, h, State.sameLive_resp h⟩
  · refine ⟨_, step_of_reset hw hi, ?_, rfl⟩
    rw [applyReset, applyReset, hpar]
    exact State.sameLive_refl _
  · obtain ⟨t', he', hlive⟩ := effectOf_sameLive (State.sameLive_accept h c rest) he
    exact ⟨t', step_of_legal hw hi hd hp he', hlive⟩
  · exact ⟨_, step_of_other_port hw hi hd hp, State.sameLive_illegalCommand (State.sameLive_accept h c rest) _, rfl⟩
  · exact ⟨_, step_of_illegal hw hi hd, State.sameLive_illegalCommand (State.sameLive_accept h c rest) _, rfl⟩

end Sys2Proof.Machine
end

section
/-! PROOFS. A word that decodes is the word of its command, and the command is legal (R53, R56). -/

namespace Sys2Proof

/-- A word with given fields is the word put together from them. -/
theorem commandWord_of_fields {w : Word} {op sel : BitVec 4} {imm : Byte} (ho : w.op = op) (hs : w.sel = sel)
    (hi : w.imm = imm) : commandWord op sel imm = w := by
  rw [← ho, ← hs, ← hi, commandWord_fields]

theorem decodeRing_ok {w : Word} {rx tx i : Instr} (h : decodeRing w rx tx = .ok i) :
    w.imm = 0 ∧ ((w.sel = 0 ∧ i = rx) ∨ (w.sel = 1 ∧ i = tx)) := by
  unfold decodeRing at h
  split at h
  · cases h
  · next hi =>
    refine ⟨not_not.1 hi, ?_⟩
    split at h
    · next hs => cases h; exact .inl ⟨hs, rfl⟩
    · split at h
      · next hs => cases h; exact .inr ⟨hs, rfl⟩
      · cases h

theorem decodePlain_ok {w : Word} {i j : Instr} (h : decodePlain w i = .ok j) : w.imm = 0 ∧ w.sel = 0 ∧ j = i := by
  unfold decodePlain at h
  split at h
  · next hw => cases h; exact ⟨hw.1, hw.2, rfl⟩
  · cases h

/-- No bit of a legal word is ignored. -/
theorem encode_of_decode {w : Word} {i : Instr} (h : decode w = .ok i) : i.wf = true ∧ encode i = w := by
  unfold decode at h
  split at h
  · next ho =>
    split at h
    · next hs => cases h; exact ⟨rfl, commandWord_of_fields ho hs rfl⟩
    · split at h
      · next hs => cases h; exact ⟨rfl, commandWord_of_fields ho hs rfl⟩
      · cases h
  split at h
  · next ho =>
    split at h
    · cases h
    · next hs =>
      split at h
      · next hi => cases h; exact ⟨rfl, commandWord_of_fields ho (not_not.1 hs) hi⟩
      · cases h
  split at h
  · next ho =>
    obtain ⟨hi, ⟨hs, rfl⟩ | ⟨hs, rfl⟩⟩ := decodeRing_ok h <;> exact ⟨rfl, commandWord_of_fields ho hs hi⟩
  split at h
  · next ho =>
    obtain ⟨hi, ⟨hs, rfl⟩ | ⟨hs, rfl⟩⟩ := decodeRing_ok h <;> exact ⟨rfl, commandWord_of_fields ho hs hi⟩
  split at h
  · next ho =>
    obtain ⟨hi, ⟨hs, rfl⟩ | ⟨hs, rfl⟩⟩ := decodeRing_ok h <;> exact ⟨rfl, commandWord_of_fields ho hs hi⟩
  split at h
  · next ho =>
    obtain ⟨hi, hs, rfl⟩ := decodePlain_ok h
    exact ⟨rfl, commandWord_of_fields ho hs hi⟩
  split at h
  · next ho =>
    split at h
    · cases h
    · next hi =>
      split at h
      · next hs => cases h; exact ⟨decide_eq_true hs, commandWord_of_fields ho rfl (not_not.1 hi)⟩
      · cases h
  split at h
  · next ho =>
    obtain ⟨hi, hs, rfl⟩ := decodePlain_ok h
    exact ⟨rfl, commandWord_of_fields ho hs hi⟩
  · cases h

end Sys2Proof

namespace Sys2Proof.Machine

/-- The one command that is a poll: `0x6000` on `HOST` (R55, R56). -/
theorem command_of_poll {c : Command} (hd : decode c.word = .ok .poll) (hp : c.port = Instr.port .poll) :
    c = ⟨.host, 0x6000⟩ := by
  obtain ⟨port, word⟩ := c
  obtain ⟨-, hword⟩ := encode_of_decode hd
  simp only [Instr.port] at hp
  rw [hp, ← show encode .poll = word from hword]
  rfl

end Sys2Proof.Machine
end

section
/-! PROOFS. The history and what goes with it (R26, R28, R34): every step but RESET appends at most one event, and the link
and the counters move with that event. -/

namespace Sys2Proof.Machine

/-- What a step that is no RESET can do to the history, the link and the error counters. -/
inductive EventStep (s t : State) : Prop
  | none (hp : t.params = s.params) (hh : t.history = s.history) (hc : t.conn = s.conn)
    (hf : t.fr.feCnt = s.fr.feCnt) (hk : t.fr.ckErrCnt = s.fr.ckErrCnt)
  | one (e : Event) (hp : t.params = s.params) (hh : t.history = s.history ++ [e])
    (hc : t.conn = e.link.elim s.conn fun up => ⟨up, up⟩)
    (hf : t.fr.feCnt = if e.isFramingError then s.params.satInc s.fr.feCnt else s.fr.feCnt)
    (hk : t.fr.ckErrCnt = if e.isCkMismatch then s.params.satInc s.fr.ckErrCnt else s.fr.ckErrCnt)

theorem pollStep_event {s t : State} (h : PollStep s t) : EventStep s t := by
  obtain ⟨hp, -, -, -, ⟨hc, hh, hf, hk⟩ | ⟨x, hc, hh, hl, -, hcnt⟩ | ⟨-, -, -, hc, hh, hf, hk⟩⟩ := pollStep_history h
  · exact .none hp hh hc hf hk
  · rcases hcnt with ⟨e1, e2, hf, hk⟩ | ⟨e1, e2, hk, hf⟩ | ⟨e1, e2, hk, hf⟩ <;>
      exact .one _ hp hh (by rw [hl]; exact hc) (by simp [e1, hf]) (by simp [e2, hk])
  · exact .one _ hp hh hc hf hk

/-- A command other than `POLL`. -/
theorem effectOf_event {i : Instr} {s t : State} (hi : i ≠ .poll) (hw : i.wf = true) (h : effectOf i s = .ok t) :
    EventStep s t := by
  obtain ⟨hfr, -, hp, -⟩ := effectOf_keeps hi h
  have hf := congrArg Framer.feCnt hfr
  have hk := congrArg Framer.ckErrCnt hfr
  rcases effectOf_history hi h hw with ⟨hc, hh⟩ | ⟨b, -, hc, hh⟩ | ⟨b, -, hc, hh⟩ | ⟨-, -, hc, hh⟩
  · exact .none hp hh hc hf hk
  · exact .one _ hp hh hc hf hk
  · exact .one _ hp hh hc hf hk
  · exact .one _ hp hh hc hf hk

/-- Every step is a RESET or appends at most one event. -/
theorem step_event {s t : State} (h : step s = .next t) : (∃ rest, t = applyReset rest s) ∨ EventStep s t := by
  obtain ⟨-, ⟨-, rfl⟩ | ⟨lost, rest, -, rfl⟩ | ⟨c, rest, i, -, hd, -, he⟩ | ⟨c, rest, i, -, -, -, rfl⟩ |
    ⟨c, rest, e, -, -, rfl⟩⟩ := step_cases h
  · exact .inr (.none rfl rfl rfl rfl rfl)
  · exact .inl ⟨rest, rfl⟩
  · refine .inr ?_
    by_cases hi : i = .poll
    · subst hi
      obtain ⟨u, hu, rfl⟩ := pollEffect_step he
      cases pollStep_event hu with
      | none hp hh hc hf hk => exact .none hp hh hc hf hk
      | one e hp hh hc hf hk => exact .one e hp hh hc hf hk
    · cases effectOf_event hi (encode_of_decode hd).1 he with
      | none hp hh hc hf hk => exact .none hp hh hc hf hk
      | one e hp hh hc hf hk => exact .one e hp hh hc hf hk
  · exact .inr (.one _ rfl rfl rfl rfl rfl)
  · exact .inr (.one _ rfl rfl rfl rfl rfl)

/-- Settles O48: the link moves with the event appended. -/
theorem stepKeepsLinkHistory : Obligations.StepKeepsLinkHistory := by
  intro s t hs h
  obtain ⟨rest, rfl⟩ | hev := step_event h
  · rfl
  unfold State.linkInv at hs ⊢
  cases hev with
  | none hp hh hc hf hk => rw [hc, hh, hs]
  | one e hp hh hc hf hk =>
    rw [hc, hh, hs, linkOf_append]
    cases e.link <;> rfl

/-- A saturating counter of the events of one kind still counts them after one more event. -/
theorem satInc_countP {k : Event → Bool} {p : Params} {h : List Event} {c : Nat}
    (hc : c = min (h.countP k) p.cntMax) (e : Event) :
    (if k e then p.satInc c else c) = min ((h ++ [e]).countP k) p.cntMax := by
  rw [List.countP_append, List.countP_singleton]
  split
  · exact satInc_min hc
  · exact hc

/-- Settles O49: each counter moves with the event appended. -/
theorem stepKeepsErrorCounts : Obligations.StepKeepsErrorCounts := by
  intro s t hs h
  obtain ⟨rest, rfl⟩ | hev := step_event h
  · exact ⟨(Nat.zero_min _).symm, (Nat.zero_min _).symm⟩
  obtain ⟨hfe, hck⟩ := hs
  unfold State.countInv
  cases hev with
  | none hp hh hc hf hk =>
    rw [hp, hh, hf, hk]
    exact ⟨hfe, hck⟩
  | one e hp hh hc hf hk =>
    rw [hp, hh, hf, hk]
    exact ⟨satInc_countP hfe e, satInc_countP hck e⟩

end Sys2Proof.Machine
end

section
/-! PROOFS. Telemetry (R29, R98, R104): the one poll that writes it. -/

namespace Sys2Proof.Machine

/-- A row writes no register but its own (R99, R104). -/
theorem apply_value_of_ne {row : FieldRow} {d : Dest} (hd : d ≠ row.dest) (v : Data) (tel : Telemetry) :
    (FieldRow.apply row v tel).value d = tel.value d := by
  obtain ⟨cls, id, offset, width, dest, sets⟩ := row
  cases dest <;> cases d <;> simp [FieldRow.apply, Telemetry.write, Telemetry.value] at hd ⊢

theorem apply_hasPosition (row : FieldRow) (v : Data) (tel : Telemetry) :
    (FieldRow.apply row v tel).hasPosition = (tel.hasPosition || row.setsPosition) := by
  obtain ⟨cls, id, offset, width, dest, sets⟩ := row
  cases dest <;> rfl

/-- A poll leaves the telemetry as it was, or applies the row at the parse cursor, whose field fits the payload (R98). -/
theorem pollStep_tel {s t : State} (h : PollStep s t) : t.tel = s.tel ∨ (s.fr.fstate = .parsing ∧
    ∃ row v, entry s.fr.cls s.fr.id s.fr.pcur.toNat = some row ∧
      s.fr.pcur.toNat + row.width.bytes ≤ s.fr.plen.toNat ∧ t.tel = FieldRow.apply row v s.tel) := by
  cases h with
  | byte h ho hf hh t hb =>
    obtain ⟨-, htel, -⟩ := byteStep_history hb
    exact .inl htel
  | field h hl hk row he hw hr => exact .inr ⟨h, row, _, he, hw, rfl⟩
  | _ => exact .inl rfl

/-- A step that is no RESET leaves the telemetry as it was, or is a host `POLL` that applies such a row. -/
theorem step_tel {s t : State} (h : step s = .next t) (hr : ∀ lost rest, s.input ≠ .reset lost :: rest) :
    t.tel = s.tel ∨ ((∃ rest, s.input = .cmd ⟨.host, 0x6000⟩ :: rest) ∧ s.fr.fstate = .parsing ∧
      ∃ row v, entry s.fr.cls s.fr.id s.fr.pcur.toNat = some row ∧
        s.fr.pcur.toNat + row.width.bytes ≤ s.fr.plen.toNat ∧ t.tel = FieldRow.apply row v s.tel) := by
  obtain ⟨-, ⟨-, rfl⟩ | ⟨lost, rest, hi, -⟩ | ⟨c, rest, i, hi, hd, hp, he⟩ | ⟨c, rest, i, -, -, -, rfl⟩ |
    ⟨c, rest, e, -, -, rfl⟩⟩ := step_cases h
  · exact .inl rfl
  · exact absurd hi (hr lost rest)
  · by_cases hpoll : i = .poll
    · subst hpoll
      obtain ⟨u, hu, rfl⟩ := pollEffect_step he
      rw [command_of_poll hd hp] at hi
      exact (pollStep_tel hu).imp_right fun hrow => ⟨⟨rest, hi⟩, hrow⟩
    · obtain ⟨-, htel, -⟩ := effectOf_keeps hpoll he
      exact .inl htel
  · exact .inl rfl
  · exact .inl rfl

/-- Settles O46: only a row's own poll writes telemetry, and a row writes its own register and can only set
`has_position`. -/
theorem telemetryWrittenOnlyByDecoder : Obligations.TelemetryWrittenOnlyByDecoder := by
  intro s t h hr
  rcases step_tel h hr with e | ⟨hi, hs, row, v, hrow, hw, e⟩ <;> rw [e]
  · exact ⟨fun d hd => absurd rfl hd, fun h0 h1 => absurd (h0.symm.trans h1) (by decide), id⟩
  · refine ⟨fun d hd => ⟨hi, hs, row, hrow, ?_, hw⟩, fun h0 h1 => ⟨hi, hs, row, hrow, ?_, hw⟩, fun h1 => ?_⟩
    · by_contra hne
      exact hd (apply_value_of_ne (Ne.symm hne) v s.tel)
    · rwa [apply_hasPosition, h0, Bool.false_or] at h1
    · rw [apply_hasPosition, h1, Bool.true_or]

end Sys2Proof.Machine
end

section
/-! PROOFS. The history is read by no step (R34): with another history in the first state, each operation goes the same
way and appends the same events. -/

namespace Sys2Proof.Machine

/-- A state with another history. -/
def State.withHistory (s : State) (h : List Event) : State := { s with history := h }

/-- A move from `s` to `t` that appends some events to the history, and is a move from any other history in `s` to that
history with the same events appended. -/
def HistoryBlind (R : State → State → Prop) (s t : State) : Prop :=
  ∃ es, t.history = s.history ++ es ∧ ∀ h, R (s.withHistory h) (t.withHistory (h ++ es))

/-- A move that appends nothing. -/
theorem HistoryBlind.none {R : State → State → Prop} {s t : State} (ht : t.history = s.history)
    (hR : ∀ h, R (s.withHistory h) (t.withHistory h)) : HistoryBlind R s t :=
  ⟨[], by rw [ht, List.append_nil], fun h => by rw [List.append_nil]; exact hR h⟩

/-- A move that appends one event. -/
theorem HistoryBlind.one {R : State → State → Prop} {s t : State} {e : Event} (ht : t.history = s.history ++ [e])
    (hR : ∀ h, R (s.withHistory h) (t.withHistory (h ++ [e]))) : HistoryBlind R s t := ⟨[e], ht, hR⟩

theorem applyPolicy_withHistory (ok : Bool) (s : State) (h : List Event) :
    applyPolicy ok (s.withHistory h) = (applyPolicy ok s).withHistory h := by
  unfold applyPolicy
  rw [show (s.withHistory h).params = s.params from rfl]
  split <;> rfl

theorem applyPolicy_history (ok : Bool) (s : State) : (applyPolicy ok s).history = s.history := by
  unfold applyPolicy
  split <;> rfl

theorem setRing_withHistory (s : State) (q : RingSel) (rb : Ring) (h : List Event) :
    (s.withHistory h).setRing q rb = (s.setRing q rb).withHistory h := by
  cases q <;> rfl

theorem ring_withHistory (s : State) (q : RingSel) (h : List Event) : (s.withHistory h).ring q = s.ring q := by
  cases q <;> rfl

theorem byteStep_historyBlind {c : Nat} {b : Byte} {s t : State} (h : ByteStep c b s t) :
    HistoryBlind (ByteStep c b) s t := by
  cases h with
  | noise1 hc hb => exact .one rfl fun h => .noise1 (s := s.withHistory h) hc hb
  | sync1 hc hb hr => exact .none rfl fun h => .sync1 (s := s.withHistory h) hc hb hr
  | noise2 hc hb => exact .one rfl fun h => .noise2 (s := s.withHistory h) hc hb
  | sync2 hc hb hr => exact .one rfl fun h => .sync2 (s := s.withHistory h) hc hb hr
  | takeCls hc hr => exact .none rfl fun h => .takeCls (s := s.withHistory h) hc hr
  | takeId hc hr => exact .none rfl fun h => .takeId (s := s.withHistory h) hc hr
  | lenLo hc hr => exact .none rfl fun h => .lenLo (s := s.withHistory h) hc hr
  | lenHi hc hr hl => exact .none rfl fun h => .lenHi (s := s.withHistory h) hc hr hl
  | oversize hc hr hl => exact .one rfl fun h => .oversize (s := s.withHistory h) hc hr hl
  | body hc hr hn => exact .none rfl fun h => .body (s := s.withHistory h) hc hr hn
  | complete hc hr hn ok hv =>
    have hstep := fun h => ByteStep.complete (s := s.withHistory h) hc hr hn ok hv
    cases ok with
    | true =>
      refine .none (applyPolicy_history _ _) fun h => ?_
      rw [← applyPolicy_withHistory]
      exact hstep h
    | false =>
      refine .one (applyPolicy_history _ _) fun h => ?_
      rw [← applyPolicy_withHistory]
      exact hstep h

theorem pollStep_historyBlind {s t : State} (h : PollStep s t) : HistoryBlind PollStep s t := by
  cases h with
  | start h ho => exact .none rfl fun h' => .start (s := s.withHistory h') h ho
  | quiet h ho => exact .none rfl fun h' => .quiet (s := s.withHistory h') h ho
  | wait h ho => exact .none rfl fun h' => .wait (s := s.withHistory h') h ho
  | byte h ho hf hh t hb =>
    obtain ⟨es, ht, hes⟩ := byteStep_historyBlind hb
    exact ⟨es, ht, fun h' => .byte (s := s.withHistory h') h ho hf hh _ (hes h')⟩
  | done h hl => exact .none rfl fun h' => .done (s := s.withHistory h') h hl
  | unknown h hl hk => exact .one rfl fun h' => .unknown (s := s.withHistory h') h hl hk
  | skip h hl hk he => exact .none rfl fun h' => .skip (s := s.withHistory h') h hl hk he
  | misfit h hl hk row he hw => exact .none rfl fun h' => .misfit (s := s.withHistory h') h hl hk row he hw
  | field h hl hk row he hw hr => exact .none rfl fun h' => .field (s := s.withHistory h') h hl hk row he hw hr

theorem pushEffect_historyBlind {q : RingSel} {b : Byte} {s t : State} (h : pushEffect q b s = .ok t) :
    HistoryBlind (fun s t => pushEffect q b s = .ok t) s t := by
  obtain ⟨rb, a, hpush, ⟨ha, rfl⟩ | ⟨ha, rfl⟩⟩ := pushEffect_ok.1 h
  · refine .none (State.setRing_history s q rb) fun h => pushEffect_ok.2 ⟨rb, a, ?_, .inl ⟨ha, ?_⟩⟩
    · rw [ring_withHistory]; exact hpush
    · rw [setRing_withHistory]; rfl
  · refine .one (e := .cond (overflowOf q b)) (by simp) fun h => pushEffect_ok.2 ⟨rb, a, ?_, .inr ⟨ha, ?_⟩⟩
    · rw [ring_withHistory]; exact hpush
    · rw [setRing_withHistory]; rfl

theorem popEffect_historyBlind {q : RingSel} {s t : State} (h : popEffect q s = .ok t) :
    HistoryBlind (fun s t => popEffect q s = .ok t) s t := by
  obtain ⟨rb, v, b, hpop, rfl⟩ := popEffect_ok.1 h
  refine .none (State.setRing_history s q rb) fun h => popEffect_ok.2 ⟨rb, v, b, ?_, ?_⟩
  · rw [ring_withHistory]; exact hpop
  · rw [setRing_withHistory]; rfl

theorem reg_withHistory (s : State) (h : List Event) (r : Reg) : (s.withHistory h).reg r = s.reg r := by
  cases r <;> rfl

/-- Every command appends the same events to any history, and does the same besides. -/
theorem effectOf_historyBlind {i : Instr} {s t : State} (h : effectOf i s = .ok t) :
    HistoryBlind (fun s t => effectOf i s = .ok t) s t := by
  cases i with
  | pushRx b => exact pushEffect_historyBlind h
  | pushTx b => exact pushEffect_historyBlind h
  | popTx => exact popEffect_historyBlind h
  | poll =>
    obtain ⟨u, hu, rfl⟩ := pollEffect_iff.1 h
    obtain ⟨es, ht, hes⟩ := pollStep_historyBlind hu
    exact ⟨es, ht, fun h' => pollEffect_iff.2 ⟨_, hes h', rfl⟩⟩
  | read r =>
    simp only [effectOf, readEffect] at h ⊢
    cases hr : Reg.ofSel r with
    | some reg =>
      rw [hr] at h
      cases h
      refine .none rfl fun h' => ?_
      simp only [reg_withHistory]
      rfl
    | none =>
      rw [hr] at h
      cases h
      exact .one rfl fun _ => rfl
  | wdexp =>
    simp only [effectOf, wdexpEffect] at h ⊢
    cases ha : s.conn.wdArmed with
    | true =>
      rw [ha] at h
      cases h
      refine .one rfl fun h' => ?_
      rw [show (s.withHistory h').conn.wdArmed = true from ha]
      rfl
    | false =>
      rw [ha] at h
      cases h
      refine .none rfl fun h' => ?_
      rw [show (s.withHistory h').conn.wdArmed = false from ha]
      rfl
  | _ => cases h; exact .none rfl fun _ => rfl

/-- Settles O52: every step but RESET appends the same events to any history, and RESET forgets it. -/
theorem historyIsObservationOnly : Obligations.HistoryIsObservationOnly := by
  intro s t h hstep
  obtain ⟨hw, ⟨hi, rfl⟩ | ⟨lost, rest, hi, rfl⟩ | ⟨c, rest, i, hi, hd, hp, he⟩ | ⟨c, rest, i, hi, hd, hp, rfl⟩ |
    ⟨c, rest, e, hi, hd, rfl⟩⟩ := step_cases hstep
  · refine .inr ⟨[], (List.append_nil _).symm, ?_⟩
    rw [List.append_nil]
    exact step_of_nil hw hi
  · exact .inl ⟨⟨lost, rest, hi⟩, step_of_reset (s := s.withHistory h) hw hi⟩
  · obtain ⟨es, ht, hes⟩ := effectOf_historyBlind he
    exact .inr ⟨es, ht, step_of_legal (s := s.withHistory h) hw hi hd hp (hes h)⟩
  · exact .inr ⟨[_], rfl, step_of_other_port (s := s.withHistory h) hw hi hd hp⟩
  · exact .inr ⟨[_], rfl, step_of_illegal (s := s.withHistory h) hw hi hd⟩

end Sys2Proof.Machine
end

section
/-! PROOFS. The reset values (R35), STATUS (R32) and the register map (R31, R106). -/

namespace Sys2Proof.Machine

/-- Settles O12: each element of the reset state is written out in R35's values. -/
theorem resetValues : Obligations.ResetValues := by
  intro p
  refine ⟨fun a => ⟨Memory.read_nil a, Memory.read_nil a, Memory.read_nil a⟩, ?_⟩
  and_intros <;> rfl

/-- A flag put below other bits is bit 0. -/
theorem getLsbD_append_ofBool {n : Nat} (x : BitVec n) (b : Bool) (i : Nat) :
    (x ++ BitVec.ofBool b).getLsbD i = if i = 0 then b else x.getLsbD (i - 1) := by
  rw [BitVec.getLsbD_append]
  cases i <;> simp

/-- The flags of STATUS, from bit 2 up; every bit above them is 0 (R32). -/
theorem statusWord_flag (s : State) (k : Nat) : (statusWord s).getLsbD (k + 2) =
    [s.fr.frameReady, s.conn.connected, s.tel.hasPosition, s.fr.lastCkValid, s.conn.wdArmed, s.tel.hasFix,
      s.params.ckPolicy == .reject].getD k false := by
  refine BitVec.getLsbD_append.trans ?_
  rw [if_neg (by omega), Nat.add_sub_cancel]
  simp only [getLsbD_append_ofBool]
  rcases k with _ | _ | _ | _ | _ | _ | _ | k <;> simp

/-- Settles O28: bits 1:0 are the code of `fstate`, and each bit above is read off the list of flags. -/
theorem statusFields : Obligations.StatusFields := by
  intro s
  have hflag := statusWord_flag s
  refine ⟨?_, hflag 0, hflag 1, hflag 2, hflag 3, hflag 4, (hflag 5).trans ?_, hflag 6, ?_⟩
  · refine BitVec.extractLsb'_append_eq_right.trans ?_
    cases s.fr.fstate <;> rfl
  · rw [Bool.eq_iff_iff]
    simp [Telemetry.hasFix]
  · refine BitVec.eq_of_getLsbD_eq fun i hi => ?_
    rw [BitVec.getLsbD_extractLsb', show 9 + i = i + 7 + 2 by omega, hflag]
    simp

/-- The index of a register selects it (R31). -/
theorem ofSel_sel (r : Reg) : Reg.ofSel r.sel = some r := by
  cases r <;> rfl

/-- `READ` of a register answers its value and changes nothing else (R106). -/
theorem exec_read {s : State} (hw : s.params.wf = true) (hp : s.port = .host) (r : Reg) :
    exec (.read r.sel) s = .next { s with resp := some ⟨true, s.reg r⟩ } := by
  rw [exec_of_port (i := .read r.sel) hw hp, outcome_next]
  simp only [effectOf, readEffect, ofSel_sel]
  rfl

/-- `READ` of a reserved index is an illegal command (R57 (e)). -/
theorem exec_read_reserved {s : State} (hw : s.params.wf = true) (hp : s.port = .host) {r : BitVec 4}
    (hr : Reg.ofSel r = none) : exec (.read r) s = .next { s with
      history := s.history ++ [.cond (.illegalCommand .host (encode (.read r)))], resp := some ⟨false, 0⟩ } := by
  rw [exec_of_port (i := .read r) hw hp, outcome_next]
  simp only [effectOf, readEffect, hr, ← hp]
  rfl

/-- The three fields of a word put together as `FRAME_HDR` and `CURSORS` are (R31). -/
theorem extractLsb'_fields (x : BitVec 16) (y z : BitVec 8) :
    (x ++ (y ++ z)).extractLsb' 16 16 = x ∧ (x ++ (y ++ z)).extractLsb' 8 8 = y ∧
      (x ++ (y ++ z)).extractLsb' 0 8 = z := by
  refine ⟨BitVec.extractLsb'_append_eq_left, ?_, ?_⟩
  · exact (BitVec.extractLsb'_append_eq_of_add_le (by decide)).trans BitVec.extractLsb'_append_eq_left
  · exact (BitVec.extractLsb'_append_eq_of_add_le (by decide)).trans BitVec.extractLsb'_append_eq_right

/-- Settles O27: each index selects its register, and the packed registers are read back field by field. -/
theorem readAnswersRegisterMap : Obligations.ReadAnswersRegisterMap := by
  intro s hw hp
  have hread := exec_read hw hp
  exact ⟨hread .status, ⟨_, hread .rxOvf, zext32_of_lt⟩, ⟨_, hread .txOvf, zext32_of_lt⟩,
    ⟨_, hread .frameErr, zext32_of_lt⟩, ⟨_, hread .ckErr, zext32_of_lt⟩,
    ⟨_, hread .frameHdr, extractLsb'_fields _ _ _⟩, ⟨_, hread .cursors, extractLsb'_fields _ _ _⟩,
    hread .lon, hread .lat, hread .alt, hread .fixStatus, hread .velN, hread .velE, hread .heading,
    exec_read_reserved hw hp rfl, exec_read_reserved hw hp rfl⟩

end Sys2Proof.Machine
end

section
/-! PROOFS. Which commands stop (R33, R109; log entry 11): for each operation, when it faults and at which index. -/

namespace Sys2Proof.Machine

/-! Loads and stores. -/

theorem Memory.load_error {sp : Space} {n i : Nat} {m : Memory} {f : Fault} :
    m.load sp n i = .error f ↔ n ≤ i ∧ f = .noSuchIndex sp i := by
  unfold Memory.load
  split
  · next h => simp [Nat.not_le.2 h]
  · next h => simp [Nat.not_lt.1 h, eq_comm]

theorem Memory.store_error {sp : Space} {n i : Nat} {m : Memory} {b : Byte} {f : Fault} :
    m.store sp n i b = .error f ↔ n ≤ i ∧ f = .noSuchIndex sp i := by
  unfold Memory.store
  split
  · next h => simp [Nat.not_le.2 h]
  · next h => simp [Nat.not_lt.1 h, eq_comm]

/-- A range that runs out of the space stops at the first index outside it. -/
theorem Memory.loadRange_of_gt {sp : Space} {n i k : Nat} (m : Memory) (hk : 0 < k) (h : n < i + k) :
    m.loadRange sp n i k = .error (.noSuchIndex sp (max n i)) := by
  induction k generalizing i with
  | zero => omega
  | succ k ih =>
    unfold Memory.loadRange
    rcases Nat.lt_or_ge i n with hi | hi
    · rw [Memory.load_of_lt hi, ih (by omega) (by omega), Nat.max_eq_left hi.le, Nat.max_eq_left (Nat.succ_le_of_lt hi)]
    · rw [Memory.load_error.2 ⟨hi, rfl⟩, Nat.max_eq_right hi]

theorem Memory.loadRange_error {sp : Space} {n i k : Nat} {m : Memory} {f : Fault}
    (h : m.loadRange sp n i k = .error f) : n < i + k ∧ f = .noSuchIndex sp (max n i) := by
  rcases Nat.lt_or_ge n (i + k) with hlt | hge
  · rcases Nat.eq_zero_or_pos k with rfl | hk
    · cases h
    · rw [Memory.loadRange_of_gt m hk hlt] at h
      cases h
      exact ⟨hlt, rfl⟩
  · rw [Memory.loadRange_of_le hge] at h
    cases h

/-! The rings. -/

theorem Ring.push_error {p : Params} {q : RingSel} {rb : Ring} {b : Byte} {f : Fault} :
    rb.push p q b = .error f ↔
      rb.occ (p.slots q) ≠ p.slots q - 1 ∧ p.slots q ≤ rb.tail ∧ f = .noSuchIndex (.ring q) rb.tail := by
  simp only [Ring.push]
  split
  · next hf => simp [hf]
  · next hf =>
    rw [← Memory.store_error (m := rb.mem) (b := b)]
    split <;> simp [*]

theorem Ring.pop_error {p : Params} {q : RingSel} {rb : Ring} {f : Fault} :
    rb.pop p q = .error f ↔
      rb.occ (p.slots q) ≠ 0 ∧ p.slots q ≤ rb.head ∧ f = .noSuchIndex (.ring q) rb.head := by
  simp only [Ring.pop]
  split
  · next he => simp [he]
  · next he =>
    rw [← Memory.load_error (m := rb.mem)]
    split <;> simp [*]

theorem pushEffect_error {q : RingSel} {b : Byte} {s : State} {f : Fault} :
    pushEffect q b s = .error f ↔ (s.ring q).push s.params q b = .error f := by
  unfold pushEffect
  split <;> simp [*]

theorem popEffect_error {q : RingSel} {s : State} {f : Fault} :
    popEffect q s = .error f ↔ (s.ring q).pop s.params q = .error f := by
  unfold popEffect
  split <;> simp [*]

/-! The framer. -/

/-- A fault that names an index outside `raw`. -/
def Fault.outsideRaw (p : Params) (f : Fault) : Prop := ∃ k, f = .noSuchIndex .raw k ∧ p.rawCap ≤ k

theorem storeRaw_error {i : Nat} {b : Byte} {s : State} {f : Fault} :
    storeRaw i b s = .error f ↔ s.params.rawCap ≤ i ∧ f = .noSuchIndex .raw i := by
  rw [← Memory.store_error (m := s.fr.raw) (b := b), storeRaw]
  split <;> simp [*]

theorem readSync1_error {b : Byte} {s : State} {f : Fault} :
    readSync1 b s = .error f ↔ b = s.params.sync1 ∧ storeRaw 0 b s = .error f := by
  unfold readSync1
  split
  · simp [*]
  · split <;> simp_all

theorem readSync2_error {b : Byte} {s : State} {f : Fault} :
    readSync2 b s = .error f ↔ b = s.params.sync2 ∧ storeRaw 1 b s = .error f := by
  unfold readSync2
  split
  · simp [*]
  · split <;> simp_all

theorem readClass_error {b : Byte} {s : State} {f : Fault} :
    readClass b s = .error f ↔ storeRaw 2 b s = .error f := by
  unfold readClass
  split <;> simp [*]

theorem readId_error {b : Byte} {s : State} {f : Fault} : readId b s = .error f ↔ storeRaw 3 b s = .error f := by
  unfold readId
  split <;> simp [*]

theorem readLenLo_error {b : Byte} {s : State} {f : Fault} :
    readLenLo b s = .error f ↔ storeRaw 4 b s = .error f := by
  unfold readLenLo
  split <;> simp [*]

theorem readLenHi_error {b : Byte} {s : State} {f : Fault} :
    readLenHi b s = .error f ↔ storeRaw 5 b s = .error f := by
  unfold readLenHi
  split <;> simp [*]

/-- A body byte that cannot be stored stops the poll (R89). -/
theorem readBody_of_storeRaw_error {c : Nat} {b : Byte} {s : State} {f : Fault} (h : storeRaw c b s = .error f) :
    readBody c b s = .error f := by
  rw [readBody, h]

/-- A byte that is to be stored, and cannot be, stops the poll (R83 to R89). -/
theorem readByte_of_storeRaw_error {c : Nat} {b : Byte} {s : State} {f : Fault} (h0 : c = 0 → b = s.params.sync1)
    (h1 : c = 1 → b = s.params.sync2) (h : storeRaw c b s = .error f) : readByte c b s = .error f := by
  match c with
  | 0 => exact readSync1_error.2 ⟨h0 rfl, h⟩
  | 1 => exact readSync2_error.2 ⟨h1 rfl, h⟩
  | 2 => exact readClass_error.2 h
  | 3 => exact readId_error.2 h
  | 4 => exact readLenLo_error.2 h
  | 5 => exact readLenHi_error.2 h
  | k + 6 => exact readBody_of_storeRaw_error h

theorem expectedCk_error {p : Params} {fr : Framer} {f : Fault} (h : expectedCk p fr = .error f) : f.outsideRaw p := by
  unfold expectedCk at h
  split at h
  · cases h
  · split at h
    · cases h
    · next hl =>
      cases h
      exact ⟨_, (Memory.loadRange_error hl).2, Nat.le_max_left _ _⟩

theorem ckVerdict_error {p : Params} {fr : Framer} {f : Fault} (h : ckVerdict p fr = .error f) : f.outsideRaw p := by
  unfold ckVerdict at h
  split at h
  · cases h
  · next hc => cases h; exact expectedCk_error hc
  · next hl _ =>
    cases h
    obtain ⟨hle, e⟩ := Memory.load_error.1 hl
    exact ⟨_, e, hle⟩
  · next hl _ _ =>
    cases h
    obtain ⟨hle, e⟩ := Memory.load_error.1 hl
    exact ⟨_, e, hle⟩

theorem finishBody_error {c : Nat} {s : State} {f : Fault} (h : finishBody c s = .error f) :
    f.outsideRaw s.params := by
  unfold finishBody frameComplete at h
  split at h
  · split at h
    · cases h
    · next hv => cases h; exact ckVerdict_error hv
  · cases h

/-- A body byte stops the poll at its own store, or at the verdict of the frame it completes (R89, R90). -/
theorem readBody_error {c : Nat} {b : Byte} {s : State} {f : Fault} (h : readBody c b s = .error f) :
    storeRaw c b s = .error f ∨ f.outsideRaw s.params := by
  unfold readBody at h
  split at h
  · next t ht =>
    obtain ⟨-, rfl⟩ := storeRaw_ok.1 ht
    have hout := finishBody_error h
    exact .inr hout
  · next hs => cases h; exact .inl hs

/-- Whatever byte stops a poll, it does so at an index outside `raw` (R83 to R90). -/
theorem readByte_error {c : Nat} {b : Byte} {s : State} {f : Fault} (h : readByte c b s = .error f) :
    f.outsideRaw s.params := by
  have hstore : storeRaw c b s = .error f ∨ f.outsideRaw s.params := by
    match c with
    | 0 => exact .inl (readSync1_error.1 h).2
    | 1 => exact .inl (readSync2_error.1 h).2
    | 2 => exact .inl (readClass_error.1 h)
    | 3 => exact .inl (readId_error.1 h)
    | 4 => exact .inl (readLenLo_error.1 h)
    | 5 => exact .inl (readLenHi_error.1 h)
    | k + 6 => exact readBody_error h
  rcases hstore with hs | hout
  · obtain ⟨hle, e⟩ := storeRaw_error.1 hs
    exact ⟨c, e, hle⟩
  · exact hout

/-- A poll in Reading stops at the ring's head or at the byte it reads (R81). -/
theorem pollReading_error {s : State} {f : Fault} : pollReading s = .error f ↔
    s.rx.occ s.params.rxN ≠ 0 ∧ s.fr.frameReady = false ∧
      ((s.params.rxN ≤ s.rx.head ∧ f = .noSuchIndex (.ring .rx) s.rx.head) ∨
        (s.rx.head < s.params.rxN ∧ readByte s.fr.cursor.toNat s.nextByte s.popped = .error f)) := by
  unfold pollReading
  by_cases ho : s.rx.occ s.params.rxN = 0
  · simp [ho]
  cases hf : s.fr.frameReady with
  | true => simp
  | false =>
    simp only [ho, Bool.false_eq_true, or_self, if_false, ne_eq, not_false_eq_true, true_and]
    rcases Nat.lt_or_ge s.rx.head s.params.rxN with hh | hh
    · rw [Ring.pop_not_empty (q := .rx) ho hh]
      simp only [hh, Nat.not_le.2 hh, false_and, true_and, false_or]
      rfl
    · rw [Ring.pop_error (p := s.params) (q := .rx) |>.2 ⟨ho, hh, rfl⟩]
      simp [hh, Nat.not_lt.2 hh, eq_comm]

/-- `DECODE` stops where the field's bytes leave `raw` (R99). -/
theorem decodeField_error {row : FieldRow} {o : Nat} {s : State} {f : Fault} :
    decodeField row o s = .error f ↔ s.params.rawCap < s.params.hdrLen + o + row.width.bytes ∧
      f = .noSuchIndex .raw (max s.params.rawCap (s.params.hdrLen + o)) := by
  unfold decodeField
  rcases Nat.lt_or_ge s.params.rawCap (s.params.hdrLen + o + row.width.bytes) with hlt | hge
  · rw [Memory.loadRange_of_gt _ row.width.bytes_bounds.1 hlt]
    simp [hlt, eq_comm]
  · rw [Memory.loadRange_of_le hge]
    simp [Nat.not_lt.2 hge]

/-- A field group stops only at the field it decodes (R98). -/
theorem fdStep_error {s : State} {f : Fault} (h : fdStep s = .error f) :
    ∃ row o, decodeField row o s = .error f := by
  simp only [fdStep] at h
  split at h
  · split at h
    · next row _ =>
      split at h
      · split at h
        · cases h
        · next hd => cases h; exact ⟨row, _, hd⟩
      · cases h
    · cases h
  · cases h

/-- With `RB_RX` in range, a poll stops only at an index outside `raw`. -/
theorem pollFramer_error {s : State} {f : Fault} (hh : s.rx.head < s.params.rxN) (h : pollFramer s = .error f) :
    f.outsideRaw s.params := by
  unfold pollFramer at h
  split at h
  · cases h
  · obtain ⟨-, -, ⟨hge, -⟩ | ⟨-, hb⟩⟩ := pollReading_error.1 h
    · omega
    · exact readByte_error (s := s.popped) hb
  · unfold pollParsing at h
    split at h
    · cases h
    · obtain ⟨row, o, hd⟩ := fdStep_error h
      exact ⟨_, (decodeField_error.1 hd).2, Nat.le_max_left _ _⟩

theorem pollEffect_error {s : State} {f : Fault} : pollEffect s = .error f ↔ pollFramer s = .error f := by
  unfold pollEffect
  split <;> simp [*]

/-! The commands. -/

@[simp] theorem outcome_fault {e : Except Fault State} {f : Fault} : outcome e = .fault f ↔ e = .error f := by
  cases e <;> simp [outcome]

/-- A command stops where its effect does, on its own port, in a configuration with a meaning. -/
theorem exec_fault {i : Instr} {s : State} {f : Fault} :
    exec i s = .fault f ↔ s.params.wf = true ∧ s.port = i.port ∧ effectOf i s = .error f := by
  cases hw : s.params.wf with
  | false => simp [exec_eq_onPort, onPort, configured_of_not_wf hw]
  | true =>
    by_cases hp : s.port = i.port
    · simp [exec_of_port hw hp, hp]
    · simp [exec_of_other_port hw hp, hp]

/-- With the rings in range, no effect but that of `POLL` stops. -/
theorem effectOf_ne_error {i : Instr} {s : State} (hi : i ≠ .poll) (hrx : s.rx.tail < s.params.rxN)
    (htx : s.tx.tail < s.params.txN) (htx' : s.tx.head < s.params.txN) (f : Fault) : effectOf i s ≠ .error f := by
  intro h
  cases i with
  | poll => exact hi rfl
  | pushRx b => exact absurd hrx (Nat.not_lt.2 (Ring.push_error.1 (pushEffect_error.1 h)).2.1)
  | pushTx b => exact absurd htx (Nat.not_lt.2 (Ring.push_error.1 (pushEffect_error.1 h)).2.1)
  | popTx => exact absurd htx' (Nat.not_lt.2 (Ring.pop_error.1 (popEffect_error.1 h)).2.1)
  | read r =>
    simp only [effectOf, readEffect] at h
    split at h <;> cases h
  | _ => cases h

/-- Settles O58: only `POLL` can stop with the rings in range, and what stops it is an index outside `raw`. -/
theorem onlyRawIndexFaults : Obligations.OnlyRawIndexFaults := by
  intro i s f hw hrx htx h
  obtain ⟨-, -, he⟩ := exec_fault.1 h
  obtain ⟨-, -, hrxh, hrxt, -⟩ := hrx
  obtain ⟨-, -, htxh, htxt, -⟩ := htx
  have hi : i = .poll := by
    by_contra hi
    exact effectOf_ne_error hi hrxt htxt htxh f he
  subst hi
  exact ⟨rfl, pollFramer_error hrxh (pollEffect_error.1 he)⟩

/-- The effect of a ring's push command. -/
theorem effectOf_pushOf (q : RingSel) (b : Byte) (s : State) : effectOf (pushOf q b) s = pushEffect q b s := by
  cases q <;> rfl

/-- A message with a table entry is known (R97). -/
theorem known_of_entry {cls id : Byte} {o : Nat} {row : FieldRow} (h : entry cls id o = some row) :
    known cls id = true := by
  obtain ⟨hmem, hc, hi, -⟩ := entry_some h
  exact List.any_eq_true.2 ⟨row, hmem, by simp [hc, hi]⟩

/-- Settles O56: each clause is the operation's first access outside its store. -/
theorem indexOutsideStoreFaults : Obligations.IndexOutsideStoreFaults := by
  intro s hw
  refine ⟨fun q b hp ho ht => ?_, fun hp ho hh => ?_, fun hp hs hf ho hh => ?_, fun htake h0 h1 hc => ?_,
    fun row hp hs hrow hfit hr => ?_⟩
  · refine exec_fault.2 ⟨hw, hp, ?_⟩
    rw [effectOf_pushOf]
    exact pushEffect_error.2 (Ring.push_error.2 ⟨ho, ht, rfl⟩)
  · exact exec_fault.2 ⟨hw, hp, popEffect_error.2 (Ring.pop_error.2 ⟨ho, hh, rfl⟩)⟩
  · refine exec_fault.2 ⟨hw, hp, pollEffect_error.2 ?_⟩
    rw [pollFramer, hs]
    exact pollReading_error.2 ⟨ho, hf, .inl ⟨hh, rfl⟩⟩
  · obtain ⟨-, hp, hs, hf, ho, hh⟩ := htake
    refine exec_fault.2 ⟨hw, hp, pollEffect_error.2 ?_⟩
    rw [pollFramer, hs]
    refine pollReading_error.2 ⟨ho, hf, .inr ⟨hh, readByte_of_storeRaw_error ?_ ?_ (storeRaw_error.2 ⟨hc, rfl⟩)⟩⟩
    · exact fun e => h0 (BitVec.eq_of_toNat_eq e)
    · exact fun e => h1 (BitVec.eq_of_toNat_eq e)
  · have hl : s.fr.pcur.toNat < s.fr.plen.toNat := by
      have := row.width.bytes_bounds
      omega
    refine exec_fault.2 ⟨hw, hp, pollEffect_error.2 ?_⟩
    rw [pollFramer_parsing hs hl]
    simp [fdStep, known_of_entry hrow, hrow, hfit, decodeField_error.2 ⟨hr, rfl⟩]

end Sys2Proof.Machine
end

section
/-! PROOFS. `RB_TX` over commands (R45, R46, R70): what one command does to it, and what a sequence of them does. -/

namespace Sys2Proof.Machine

/-- A legal command on its port is the one R55 and R56 list: its word is determined by what it decodes to. -/
theorem command_of_decode {c : Command} {i : Instr} (hd : decode c.word = .ok i) (hp : c.port = i.port) :
    c = .of i := by
  obtain ⟨port, word⟩ := c
  obtain ⟨-, hword⟩ := encode_of_decode hd
  rw [Command.of, hword, ← hp]

/-- No command changes the configuration (R127). -/
theorem effectOf_params {i : Instr} {s t : State} (h : effectOf i s = .ok t) : t.params = s.params := by
  by_cases hi : i = .poll
  · subst hi
    obtain ⟨u, hu, rfl⟩ := pollEffect_step h
    exact (pollStep_history hu).1
  · obtain ⟨-, -, hp, -⟩ := effectOf_keeps hi h
    exact hp

/-- Only `PUSH.TX`, `POP.TX` and `CLEAR.TX` touch `RB_TX`. -/
theorem effectOf_tx_of_ne {i : Instr} {s t : State} (h : effectOf i s = .ok t) (hpush : ∀ b, i ≠ .pushTx b)
    (hpop : i ≠ .popTx) (hclear : i ≠ .clearTx) : t.tx = s.tx := by
  cases i with
  | pushRx b => obtain ⟨rb, a, -, ⟨-, rfl⟩ | ⟨-, rfl⟩⟩ := pushEffect_ok.1 h <;> rfl
  | pushTx b => exact absurd rfl (hpush b)
  | popTx => exact absurd rfl hpop
  | clearTx => exact absurd rfl hclear
  | poll =>
    obtain ⟨u, hu, rfl⟩ := pollEffect_step h
    obtain ⟨-, htx, -⟩ := pollStep_history hu
    exact htx
  | read r => simp only [effectOf, readEffect] at h; split at h <;> cases h <;> rfl
  | wdexp => cases h; split <;> rfl
  | _ => cases h; rfl

/-! What a command and its response add to the two byte sequences. -/

theorem acceptedTx_cons (c : Command) (r : Response) (cs : List Command) (rs : List Response) :
    acceptedTx (c :: cs) (r :: rs) = acceptedTx [c] [r] ++ acceptedTx cs rs := by
  simp only [acceptedTx]
  split
  · split <;> rfl
  · rfl

theorem poppedTx_cons (c : Command) (r : Response) (cs : List Command) (rs : List Response) :
    poppedTx (c :: cs) (r :: rs) = poppedTx [c] [r] ++ poppedTx cs rs := by
  simp only [poppedTx]
  split
  · split <;> rfl
  · rfl

/-- A command that is no `PUSH.TX`, or was illegal, had nothing accepted. -/
theorem acceptedTx_eq_nil {c : Command} {r : Response} (h : r.ok = true → ∀ b, decode c.word ≠ .ok (.pushTx b)) :
    acceptedTx [c] [r] = [] := by
  simp only [acceptedTx]
  split
  · next b hd =>
    split
    · next hr => exact absurd hd (h (by rw [hr]) b)
    · rfl
  · rfl

/-- A command that is no `POP.TX`, or was illegal, returned nothing. -/
theorem poppedTx_eq_nil {c : Command} {r : Response} (h : r.ok = true → decode c.word ≠ .ok .popTx) :
    poppedTx [c] [r] = [] := by
  simp only [poppedTx]
  split
  · next hd =>
    split
    · next hr => exact absurd hd (h hr.1)
    · rfl
  · rfl

/-- What a `PUSH.TX` had accepted is told by its response (R73). -/
theorem acceptedTx_push {c : Command} {b : Byte} (hd : decode c.word = .ok (.pushTx b)) (a : Bool) :
    acceptedTx [c] [⟨true, bit32 a⟩] = if a then [b] else [] := by
  simp only [acceptedTx, hd]
  cases a <;> rfl

/-- `data[8]` of a pop's response says whether there was a byte (R74). -/
theorem popData_flag (v : Bool) (b : Byte) : (popData v b).getLsbD 8 = v := by
  refine BitVec.getLsbD_append.trans ?_
  rw [if_pos (by decide), BitVec.getLsbD_append, if_neg (by decide), BitVec.getLsbD_ofBool]
  simp

/-- `data[7:0]` of a pop's response is the byte (R74). -/
theorem popData_byte (v : Bool) (b : Byte) : (popData v b).setWidth 8 = b := by
  refine BitVec.eq_of_getLsbD_eq fun i hi => ?_
  rw [BitVec.getLsbD_setWidth, decide_eq_true hi, Bool.true_and]
  refine BitVec.getLsbD_append.trans ?_
  rw [if_pos (by omega), BitVec.getLsbD_append, if_pos hi]

/-- What a `POP.TX` returned is told by its response (R74). -/
theorem poppedTx_pop {c : Command} (hd : decode c.word = .ok .popTx) (v : Bool) (b : Byte) :
    poppedTx [c] [⟨true, popData v b⟩] = if v then [b] else [] := by
  simp only [poppedTx, hd, popData_flag, popData_byte, true_and]

/-! One ring under a push and a pop. -/

/-- `RB_PUSH` puts the byte it accepts at the end of the queue, and keeps the queue where it accepts none (R66). -/
theorem Ring.push_queue {p : Params} {q : RingSel} {rb rb' : Ring} {b : Byte} {a : Bool}
    (hh : rb.head < p.slots q) (ht : rb.tail < p.slots q) (h : rb.push p q b = .ok (rb', a)) :
    rb'.queue (p.slots q) = rb.queue (p.slots q) ++ if a then [b] else [] := by
  rcases Ring.push_cases h with ⟨-, rfl, rfl⟩ | ⟨hf, rfl, -, rfl⟩
  · exact (List.append_nil _).symm
  · exact Ring.queue_write_tail hh ht hf b

/-- `RB_POP` takes the byte it returns from the front of the queue, and keeps the queue where it returns none (R67). -/
theorem Ring.pop_queue {p : Params} {q : RingSel} {rb rb' : Ring} {b : Byte} {v : Bool}
    (hh : rb.head < p.slots q) (ht : rb.tail < p.slots q) (h : rb.pop p q = .ok (rb', v, b)) :
    rb.queue (p.slots q) = (if v then [b] else []) ++ rb'.queue (p.slots q) := by
  rcases Ring.pop_cases h with ⟨-, rfl, -, rfl⟩ | ⟨he, rfl, -, rfl, rfl⟩
  · rfl
  · exact Ring.queue_eq_cons hh ht he

/-! One command, and a sequence. -/

/-- What a command that is no legal `CLEAR.TX` does to `RB_TX`, given its response: a push, a pop, or nothing. -/
inductive TxMove (p : Params) (c : Command) (r : Response) (rb rb' : Ring) : Prop
  | push (b : Byte) (a : Bool) (hd : decode c.word = .ok (.pushTx b)) (hr : r = ⟨true, bit32 a⟩)
    (h : rb.push p .tx b = .ok (rb', a))
  | pop (v : Bool) (b : Byte) (hd : decode c.word = .ok .popTx) (hr : r = ⟨true, popData v b⟩)
    (h : rb.pop p .tx = .ok (rb', v, b))
  | rest (hpush : r.ok = true → ∀ b, decode c.word ≠ .ok (.pushTx b))
    (hpop : r.ok = true → decode c.word ≠ .ok .popTx) (h : rb' = rb)

theorem TxMove.inv {p : Params} {c : Command} {r : Response} {rb rb' : Ring} (h : TxMove p c r rb rb')
    (hi : rb.inv p .tx) : rb'.inv p .tx := by
  cases h with
  | push b a hd hr h => exact Ring.push_inv hi h
  | pop v b hd hr h => exact Ring.pop_inv hi h
  | rest hpush hpop h => exact h ▸ hi

/-- The bytes queued before and the byte accepted are the byte popped and the bytes queued after (R70). -/
theorem TxMove.queue {p : Params} {c : Command} {r : Response} {rb rb' : Ring} (h : TxMove p c r rb rb')
    (hi : rb.inv p .tx) :
    rb.queue p.txN ++ acceptedTx [c] [r] = poppedTx [c] [r] ++ rb'.queue p.txN := by
  obtain ⟨-, -, hh, ht, -⟩ := hi
  cases h with
  | push b a hd hr h =>
    subst hr
    rw [acceptedTx_push hd, poppedTx_eq_nil (by simp [hd])]
    exact (Ring.push_queue hh ht h).symm
  | pop v b hd hr h =>
    subst hr
    rw [poppedTx_pop hd, acceptedTx_eq_nil (by simp [hd]), List.append_nil]
    exact Ring.pop_queue hh ht h
  | rest hpush hpop h =>
    rw [acceptedTx_eq_nil hpush, poppedTx_eq_nil hpop, h, List.append_nil, List.nil_append]

/-- A legal command but `CLEAR.TX` moves `RB_TX` as its response says. -/
theorem effectOf_txMove {c : Command} {i : Instr} {r : Response} {s t : State} (hd : decode c.word = .ok i)
    (hi : i ≠ .clearTx) (h : effectOf i s = .ok t) (hr : t.resp = some r) : TxMove s.params c r s.tx t.tx := by
  by_cases hpush : ∃ b, i = .pushTx b
  · obtain ⟨b, rfl⟩ := hpush
    obtain ⟨rb, a, hp, ⟨rfl, rfl⟩ | ⟨rfl, rfl⟩⟩ := pushEffect_ok.1 h
    · cases hr; exact .push b true hd rfl hp
    · cases hr; exact .push b false hd rfl hp
  by_cases hpop : i = .popTx
  · subst hpop
    obtain ⟨rb, v, b, hp, rfl⟩ := popEffect_ok.1 h
    cases hr
    exact .pop v b hd rfl hp
  have hpush' : ∀ b, i ≠ .pushTx b := fun b e => hpush ⟨b, e⟩
  exact .rest (fun _ b e => hpush' b (Except.ok.inj (hd.symm.trans e)))
    (fun _ e => hpop (Except.ok.inj (hd.symm.trans e))) (effectOf_tx_of_ne h hpush' hpop hi)

/-- A command issued is run on the state it is issued to, whose own input stays to be applied (R45). -/
theorem issue_eq_runCommand (c : Command) (s : State) : issue c s = runCommand c s.input s := rfl

/-- A command issued, but `CLEAR.TX` from `HOST`, moves `RB_TX` as its response says, and keeps the configuration. -/
theorem issue_txMove {c : Command} {r : Response} {s t : State} (hc : c ≠ ⟨.host, 0x5100⟩)
    (h : issue c s = .next t) (hr : t.resp = some r) : t.params = s.params ∧ TxMove s.params c r s.tx t.tx := by
  rw [issue_eq_runCommand] at h
  cases hd : decode c.word with
  | ok i =>
    rw [runCommand_ok hd, exec_next] at h
    obtain ⟨-, ⟨hp, h⟩ | ⟨-, rfl⟩⟩ := h
    · have hparams : t.params = s.params := (effectOf_params h).trans (State.accept_params s c s.input)
      have hi : i ≠ .clearTx := by
        rintro rfl
        exact hc (command_of_decode hd hp)
      exact ⟨hparams, effectOf_txMove (s := s.accept c s.input) hd hi h hr⟩
    · cases hr
      exact ⟨rfl, .rest (by simp) (by simp) rfl⟩
  | error e =>
    rw [runCommand_error hd] at h
    obtain ⟨-, h⟩ := configured_next.1 h
    cases h
    exact ⟨rfl, .rest (by simp [hd]) (by simp [hd]) rfl⟩

/-- A sequence that is answered is a first command that is answered, and then the others. -/
theorem answers_cons {c : Command} {cs : List Command} {rs : List Response} {s t : State}
    (h : answers (c :: cs) s = some (rs, t)) :
    ∃ u r rs', issue c s = .next u ∧ u.resp = some r ∧ answers cs u = some (rs', t) ∧ rs = r :: rs' := by
  rw [answers] at h
  split at h
  · next u hu =>
    split at h
    · next r rs' v hr hv => cases h; exact ⟨u, r, rs', hu, hr, hv, rfl⟩
    · cases h
  · cases h
  · cases h

/-- Settles O22, by induction on the commands: each one moves `RB_TX` by a push, a pop or nothing. -/
theorem transmitBytesKeepOrder : Obligations.TransmitBytesKeepOrder := by
  intro cs rs s t hw hi hc h
  induction cs generalizing s rs with
  | nil => cases h; exact List.append_nil _
  | cons c cs ih =>
    obtain ⟨u, r, rs, hu, hr, hrest, rfl⟩ := answers_cons h
    obtain ⟨hp, hmove⟩ := issue_txMove (hc c List.mem_cons_self) hu hr
    have hlater := ih rs u (hp ▸ hw) (hp ▸ hmove.inv hi) (fun d hd => hc d (List.mem_cons_of_mem c hd)) hrest
    rw [hp] at hlater
    calc s.tx.queue s.params.txN ++ acceptedTx (c :: cs) (r :: rs)
        = (s.tx.queue s.params.txN ++ acceptedTx [c] [r]) ++ acceptedTx cs rs := by
          rw [acceptedTx_cons, List.append_assoc]
      _ = poppedTx [c] [r] ++ (u.tx.queue s.params.txN ++ acceptedTx cs rs) := by
          rw [hmove.queue hi, List.append_assoc]
      _ = poppedTx (c :: cs) (r :: rs) ++ t.tx.queue t.params.txN := by
          rw [hlater, ← List.append_assoc, ← poppedTx_cons]

end Sys2Proof.Machine
end

section
/-! PROOFS. A push and a pop of one ring, in both orders (R47). -/

namespace Sys2Proof.Machine

/-- Each ring of a configuration of R9 has two slots. -/
theorem two_le_slots {p : Params} (hw : p.wf = true) (q : RingSel) : 2 ≤ p.slots q := by
  obtain ⟨hrx, htx, -⟩ := Params.wf_iff.1 hw
  cases q with
  | rx => exact hrx
  | tx => exact htx

/-- A run that begins with a push (R66). -/
theorem ringRun_push {p : Params} {q : RingSel} {rb rb' : Ring} {b : Byte} {a : Bool}
    (h : rb.push p q b = .ok (rb', a)) (os : List (Option Byte)) :
    ringRun p q (some b :: os) rb =
      (ringRun p q os rb').map fun (acc, out, r) => (if a then b :: acc else acc, out, r) := by
  simp only [ringRun, h]
  cases ringRun p q os rb' <;> rfl

/-- A run that begins with a pop (R67). -/
theorem ringRun_pop {p : Params} {q : RingSel} {rb rb' : Ring} {b : Byte} {v : Bool}
    (h : rb.pop p q = .ok (rb', v, b)) (os : List (Option Byte)) :
    ringRun p q (none :: os) rb =
      (ringRun p q os rb').map fun (acc, out, r) => (acc, if v then b :: out else out, r) := by
  simp only [ringRun, h]
  cases ringRun p q os rb' <;> rfl

/-- A push, then a pop. -/
theorem ringRun_push_pop {p : Params} {q : RingSel} {rb r1 r2 : Ring} {b x : Byte} {a v : Bool}
    (hpush : rb.push p q b = .ok (r1, a)) (hpop : r1.pop p q = .ok (r2, v, x)) :
    ringRun p q [some b, none] rb = some (if a then [b] else [], if v then [x] else [], r2) := by
  rw [ringRun_push hpush, ringRun_pop hpop]
  rfl

/-- A pop, then a push. -/
theorem ringRun_pop_push {p : Params} {q : RingSel} {rb r1 r2 : Ring} {b x : Byte} {a v : Bool}
    (hpop : rb.pop p q = .ok (r1, v, x)) (hpush : r1.push p q b = .ok (r2, a)) :
    ringRun p q [none, some b] rb = some (if a then [b] else [], if v then [x] else [], r2) := by
  rw [ringRun_pop hpop, ringRun_push hpush]
  rfl

/-- After a push that was accepted there is a byte to pop: in a ring that was empty the byte pushed, in any other the byte
that was the oldest before. -/
theorem Ring.pop_of_pushed {p : Params} {q : RingSel} {rb rb' : Ring} {b : Byte} (hh : rb.head < p.slots q)
    (h : rb.push p q b = .ok (rb', true)) :
    rb'.pop p q = .ok ({ rb' with head := incN (p.slots q) rb.head }, true,
      if rb.head = rb.tail then b else rb.mem.read rb.head) := by
  obtain ⟨-, ha, -⟩ | ⟨hf, -, ht, rfl⟩ := Ring.push_cases h
  · cases ha
  · have hocc := Ring.occ_push ht hf (rb.mem.write rb.tail b)
    rw [Ring.pop_not_empty (hocc.trans_ne (Nat.succ_ne_zero _)) hh, Memory.read_write]

/-- Settles O21: the occupancy after the first operation decides the second one, and the two write different fields. -/
theorem pushAndPopCommute : Obligations.PushAndPopCommute := by
  intro p q rb b hw hi
  obtain ⟨-, -, hh, ht, -⟩ := hi
  have hn := two_le_slots hw q
  have hlt := Ring.occ_lt rb (slots_pos hw q)
  have hempty := Ring.occ_eq_zero hh ht
  refine ⟨fun he hf => ?_, fun he => ⟨?_, ?_⟩, fun hf => ⟨?_, ?_⟩⟩
  · have hpush := Ring.push_not_full b hf ht
    have hpop := Ring.pop_of_pushed hh hpush
    rw [if_neg fun e => he (hempty.2 e)] at hpop
    have hocc := Ring.occ_pop hh he
    exact ⟨_, ringRun_push_pop hpush hpop,
      ringRun_pop_push (Ring.pop_not_empty he hh) (Ring.push_not_full b (by omega) ht)⟩
  · exact ⟨_, ringRun_pop_push (Ring.pop_empty he) (Ring.push_not_full b (by omega) ht)⟩
  · have hpush := Ring.push_not_full b (by omega) ht
    have hpop := Ring.pop_of_pushed hh hpush
    rw [if_pos (hempty.1 he)] at hpop
    exact ⟨_, ringRun_push_pop hpush hpop⟩
  · have he : Ring.occ (p.slots q) { rb with ovf := p.satInc rb.ovf } ≠ 0 := by
      rw [Ring.occ_ovf]
      omega
    exact ⟨_, ringRun_push_pop (Ring.push_full b hf) (Ring.pop_not_empty he hh), rfl⟩
  · have he : rb.occ (p.slots q) ≠ 0 := by omega
    have hocc := Ring.occ_pop hh he
    exact ⟨_, ringRun_pop_push (Ring.pop_not_empty he hh) (Ring.push_not_full b (by omega) ht), rfl⟩

end Sys2Proof.Machine
end

section
/-! PROOFS. The commands that only ask (R42, R106). -/

namespace Sys2Proof.Machine

/-- No register shows the response. -/
theorem reg_respond (s : State) (ok : Bool) (d : Data) (r : Reg) : (s.respond ok d).reg r = s.reg r := by
  cases r <;> rfl

/-- Every index up to 0xD is a register's (R31). -/
theorem ofSel_of_le {r : BitVec 4} (h : r ≤ 0xD) : ∃ reg, Reg.ofSel r = some reg := by
  have hsome : ∀ r : BitVec 4, r ≤ 0xD → (Reg.ofSel r).isSome := by decide
  exact Option.isSome_iff_exists.1 (hsome r h)

/-- A query answers a value of the state, which no response changes, and does nothing else (R75, R76, R106). -/
theorem effectOf_query {i : Instr}
    (hi : i = .lenRx ∨ i = .lenTx ∨ i = .isEmptyRx ∨ i = .isEmptyTx ∨ ∃ r, i = .read r ∧ r ≤ 0xD) :
    ∃ ans : State → Data, (∀ s, effectOf i s = .ok (s.respond true (ans s))) ∧
      ∀ s ok d, ans (s.respond ok d) = ans s := by
  rcases hi with rfl | rfl | rfl | rfl | ⟨r, rfl, hr⟩
  · exact ⟨fun s => zext32 (s.rx.len s.params .rx), fun _ => rfl, fun _ _ _ => rfl⟩
  · exact ⟨fun s => zext32 (s.tx.len s.params .tx), fun _ => rfl, fun _ _ _ => rfl⟩
  · exact ⟨fun s => bit32 (s.rx.isEmpty s.params .rx), fun _ => rfl, fun _ _ _ => rfl⟩
  · exact ⟨fun s => bit32 (s.tx.isEmpty s.params .tx), fun _ => rfl, fun _ _ _ => rfl⟩
  · obtain ⟨reg, hreg⟩ := ofSel_of_le hr
    refine ⟨fun s => s.reg reg, fun s => ?_, fun s ok d => reg_respond s ok d reg⟩
    simp only [effectOf, readEffect, hreg]

/-- Settles O26: the first answer is all that a query changes, and no answer depends on it. -/
theorem queriesChangeNothing : Obligations.QueriesChangeNothing := by
  intro i s t hi hp h
  obtain ⟨ans, heff, hans⟩ := effectOf_query hi
  obtain ⟨hw, ⟨-, h⟩ | ⟨hne, -⟩⟩ := exec_next.1 h
  · rw [heff] at h
    cases h
    refine ⟨rfl, exec_next.2 ⟨hw, .inl ⟨hp, ?_⟩⟩⟩
    rw [heff, hans]
    rfl
  · exact absurd hp hne

end Sys2Proof.Machine
end

section
/-! PROOFS. A poll that decodes one field (R37, R98, R99). -/

namespace Sys2Proof.Machine

/-- A row writes its register, whole where the register is wide enough for the value (R99). -/
theorem apply_value_dest {row : FieldRow} {v : Data} (h : row.dest = .fixStatus → (v.setWidth 8).setWidth 32 = v)
    (tel : Telemetry) : (FieldRow.apply row v tel).value row.dest = v := by
  obtain ⟨cls, id, offset, width, dest, sets⟩ := row
  cases dest with
  | fixStatus => exact h rfl
  | _ => rfl

/-- The one register of 8 bits takes a field of one byte (R62). -/
theorem width_of_fixStatus : ∀ row ∈ fieldTable, row.dest = .fixStatus → row.width = .one := by
  decide

/-- A byte read as a 32-bit pattern fits the 8-bit register. -/
theorem setWidth_byte (b : Byte) : ((b.setWidth 32).setWidth 8).setWidth 32 = b.setWidth 32 := by
  rw [BitVec.setWidth_setWidth_of_le b (by decide : 8 ≤ 32), BitVec.setWidth_eq]

/-- From every state of the invariant in Parsing, a field that fits the payload lies within `raw` (R9, R27 (c)). -/
theorem payload_within_raw {s : State} (hi : s.inv) (hs : s.fr.fstate = .parsing) {o : Nat}
    (ho : o ≤ s.fr.plen.toNat) : s.params.hdrLen + o ≤ s.params.rawCap := by
  obtain ⟨hw, -, -, -, -, -, -, -, -, -, hparse⟩ := hi
  obtain ⟨-, -, hl, -⟩ := hparse hs
  have ht := (plen_le_maxPlen_iff hw _).1 hl
  unfold total at ht
  omega

/-- Settles O39: the poll is the `field` case of `PollStep`, and the row at the offset writes its register. -/
theorem pollDecodesField : Obligations.PollDecodesField := by
  intro s row o hi hp hs ho hrow hfit
  subst ho
  obtain ⟨hmem, -⟩ := entry_some hrow
  obtain ⟨-, -, -, h255, -⟩ := Params.wf_iff.1 hi.1
  have hraw := payload_within_raw hi hs hfit
  have hpos := row.width.bytes_bounds.1
  have hstep := PollStep.field hs (by omega) (known_of_entry hrow) row hrow hfit (by omega)
  rw [pcurOf_of_lt (by omega)] at hstep
  refine ⟨_, exec_next.2 ⟨hi.1, .inl ⟨hp, pollEffect_iff.2 ⟨_, hstep, rfl⟩⟩⟩, fun hw => ?_, fun hw => ?_,
    fun d hd => apply_value_of_ne hd _ _, ?_, rfl⟩
  · refine (apply_value_dest (fun hd => ?_) _).trans ?_
    · exact absurd ((width_of_fixStatus row hmem hd).symm.trans hw) (by decide)
    · rw [hw]
      exact leWord_four _ _ _ _
  · have hv : leWord (s.fr.rawBytes (s.params.hdrLen + s.fr.pcur.toNat) row.width.bytes) =
        (s.fr.raw.read (s.params.hdrLen + s.fr.pcur.toNat)).setWidth 32 := by
      rw [hw]
      exact leWord_one _
    refine (apply_value_dest (fun _ => ?_) _).trans hv
    rw [hv, setWidth_byte]
  · rw [← Bool.or_eq_true, ← Bool.eq_iff_iff]
    exact apply_hasPosition row _ s.tel

end Sys2Proof.Machine
end

section
/-! PROOFS. A step that takes a word which decodes (R45, R55, R56). -/

namespace Sys2Proof.Machine

/-- Settles O7: the step takes the command from the input, and the word decides what runs. -/
theorem stepRunsDecodedCommand : Obligations.StepRunsDecodedCommand := by
  intro s c rest i hi hd
  rw [step_of_cmd hi, runCommand_ok hd]
  rfl

end Sys2Proof.Machine
end

section
/-! PROOFS. The decoder against the encoder, the opcode table and the reserved words (R53, R56, R57). With `encode_of_decode`
above, `decode_encode` makes the legal words and the legal commands correspond one to one. -/

namespace Sys2Proof

/-- The word of a legal command decodes to the command. -/
theorem decode_encode {i : Instr} (h : i.wf = true) : decode (encode i) = .ok i := by
  cases i with
  | pushRx b => simp [encode, decode]
  | pushTx b => simp [encode, decode]
  | read r => simpa [encode, decode] using of_decide_eq_true h
  | _ => rfl

/-- Settles O1. -/
theorem decodeEncodeRoundTrip : Obligations.DecodeEncodeRoundTrip :=
  fun _ => decode_encode

/-- Settles O2. -/
theorem encodeDecodeRoundTrip : Obligations.EncodeDecodeRoundTrip :=
  fun _ _ => encode_of_decode

/-- Settles O5: each word is, bit for bit, the encoding of its command. -/
theorem selectedWordsDecode : Obligations.SelectedWordsDecode :=
  ⟨decode_encode (i := .pushRx 0xB5) rfl, decode_encode (i := .pushTx 0x41) rfl, decode_encode (i := .popTx) rfl,
    decode_encode (i := .lenRx) rfl, decode_encode (i := .lenTx) rfl, decode_encode (i := .isEmptyRx) rfl,
    decode_encode (i := .isEmptyTx) rfl, decode_encode (i := .clearRx) rfl, decode_encode (i := .clearTx) rfl,
    decode_encode (i := .poll) rfl, decode_encode (i := .read 0xD) rfl, decode_encode (i := .wdexp) rfl⟩

/-! The rows of the table. -/

/-- The statement of Laws/PerInstr.lean for every command. -/
theorem row_statement (i : Instr) : Laws.Row.Statement i := by
  cases i with
  | pushRx b => exact Laws.Row.pushRx b
  | pushTx b => exact Laws.Row.pushTx b
  | popTx => exact Laws.Row.popTx
  | lenRx => exact Laws.Row.lenRx
  | lenTx => exact Laws.Row.lenTx
  | isEmptyRx => exact Laws.Row.isEmptyRx
  | isEmptyTx => exact Laws.Row.isEmptyTx
  | clearRx => exact Laws.Row.clearRx
  | clearTx => exact Laws.Row.clearTx
  | poll => exact Laws.Row.poll
  | read r => exact Laws.Row.read r
  | wdexp => exact Laws.Row.wdexp

/-- A word that decodes is of a row with its command's mnemonic and port. -/
theorem row_of_decode {w : Word} {i : Instr} (h : decode w = .ok i) :
    ∃ row ∈ opcodeTable, row.matches w = true ∧ row.mnemonic = i.mnemonic ∧ row.port = i.port := by
  obtain ⟨hrow, -⟩ := row_statement i
  rwa [(encode_of_decode h).2] at hrow

/-- A word that decodes to a `READ` has its index in `SEL`, at most 0xD. -/
theorem sel_of_decode_read {w : Word} {i : Instr} (h : decode w = .ok i) (hm : i.mnemonic = "READ") : w.sel ≤ 0xD := by
  obtain ⟨hwf, rfl⟩ := encode_of_decode h
  cases i with
  | read r =>
    obtain ⟨-, -, hsel⟩ := row_statement (.read r)
    rw [hsel]
    exact of_decide_eq_true hwf
  | _ => exact absurd hm (by simp [Instr.mnemonic])

/-- A word matches a row field by field. -/
theorem fields_of_matches {row : OpcodeRow} {w : Word} (h : row.matches w = true) :
    w.op &&& row.mask.op = row.value.op ∧ w.sel &&& row.mask.sel = row.value.sel ∧
      w.imm &&& row.mask.imm = row.value.imm := by
  rw [← beq_iff_eq.1 h]
  exact ⟨BitVec.extractLsb'_and.symm, BitVec.extractLsb'_and.symm, BitVec.extractLsb'_and.symm⟩

/-- Three rows leave bits to an operand; each other row is one word, which decodes. -/
theorem opcodeTable_operands : ∀ row ∈ opcodeTable, (row.mask = 0xFFFF ∧ (decode row.value).isOk = true) ∨
    row = ⟨"PUSH.RX", 0x1000, 0xFF00, .serRx⟩ ∨ row = ⟨"PUSH.TX", 0x1100, 0xFF00, .host⟩ ∨
    row = ⟨"READ", 0x7000, 0xF0FF, .host⟩ := by
  decide

/-- A word of a row decodes, a `READ` with its index bounded. -/
theorem decode_of_matches {w : Word} {row : OpcodeRow} (hr : row ∈ opcodeTable) (hm : row.matches w = true)
    (hread : row.mnemonic = "READ" → w.sel ≤ 0xD) : ∃ i, decode w = .ok i := by
  obtain ⟨ho, hs, hi⟩ := fields_of_matches hm
  rcases opcodeTable_operands row hr with ⟨hmask, hok⟩ | rfl | rfl | rfl
  · have hw : row.value = w := by
      rw [← beq_iff_eq.1 hm, hmask]
      exact BitVec.and_allOnes
    rw [hw] at hok
    cases hd : decode w with
    | ok i => exact ⟨i, rfl⟩
    | error e => rw [hd] at hok; cases hok
  · have ho : w.op = 1 := BitVec.and_allOnes.symm.trans ho
    have hs : w.sel = 0 := BitVec.and_allOnes.symm.trans hs
    exact ⟨.pushRx w.imm, by simp [decode, ho, hs]⟩
  · have ho : w.op = 1 := BitVec.and_allOnes.symm.trans ho
    have hs : w.sel = 1 := BitVec.and_allOnes.symm.trans hs
    exact ⟨.pushTx w.imm, by simp [decode, ho, hs]⟩
  · have ho : w.op = 7 := BitVec.and_allOnes.symm.trans ho
    have hi : w.imm = 0 := BitVec.and_allOnes.symm.trans hi
    exact ⟨.read w.sel, by simpa [decode, ho, hi] using hread rfl⟩

/-- Two rows that agree on the bits both of them fix are one row. -/
theorem opcodeTable_disjoint : ∀ row ∈ opcodeTable, ∀ row' ∈ opcodeTable,
    row.value &&& row'.mask = row'.value &&& row.mask → row = row' := by
  decide

/-- Settles O3: the row of a word is that of its command, and two rows of one word agree on the bits both fix. -/
theorem decoderAcceptsExactlyTheTable : Obligations.DecoderAcceptsExactlyTheTable := by
  refine ⟨fun w => ⟨?_, ?_⟩, fun w i => row_of_decode, fun w row hr row' hr' hm hm' => ?_⟩
  · rintro ⟨i, hd⟩
    obtain ⟨row, hr, hm, hmn, -⟩ := row_of_decode hd
    exact ⟨row, hr, hm, fun h => sel_of_decode_read hd (hmn.symm.trans h)⟩
  · rintro ⟨row, hr, hm, hread⟩
    exact decode_of_matches hr hm hread
  · refine opcodeTable_disjoint row hr row' hr' ?_
    rw [← beq_iff_eq.1 hm, ← beq_iff_eq.1 hm']
    ac_rfl

end Sys2Proof

namespace Sys2Proof.Machine

/-! The words of no row. -/

/-- A choice is an error where the branch taken is. -/
theorem exists_error_ite {c : Prop} [Decidable c] {x y : Except Illegal Instr} :
    (∃ e, (if c then x else y) = .error e) ↔ (c ∧ ∃ e, x = .error e) ∨ (¬c ∧ ∃ e, y = .error e) := by
  split <;> simp [*]

theorem decodeRing_error {w : Word} {rx tx : Instr} :
    (∃ e, decodeRing w rx tx = .error e) ↔ w.imm ≠ 0 ∨ (w.sel ≠ 0 ∧ w.sel ≠ 1) := by
  simp only [decodeRing, exists_error_ite, Except.error.injEq, exists_eq', reduceCtorEq, exists_false]
  tauto

theorem decodePlain_error {w : Word} {i : Instr} :
    (∃ e, decodePlain w i = .error e) ↔ w.imm ≠ 0 ∨ w.sel ≠ 0 := by
  simp only [decodePlain, exists_error_ite, Except.error.injEq, exists_eq', reduceCtorEq, exists_false]
  tauto

theorem decode_pop_error {w : Word} (ho : w.op = 2) : (∃ e, decode w = .error e) ↔ w.sel ≠ 1 ∨ w.imm ≠ 0 := by
  have hd : decode w = if w.sel ≠ 1 then .error .popRing else if w.imm = 0 then .ok .popTx else .error .operand := by
    simp [decode, ho]
  simp only [hd, exists_error_ite, Except.error.injEq, exists_eq', reduceCtorEq, exists_false]
  tauto

/-- The register indices past the last one of R31. -/
theorem reserved_register : ∀ r : BitVec 4, ¬r ≤ 0xD ↔ r = 0xE ∨ r = 0xF := by
  decide

theorem decode_read_error {w : Word} (ho : w.op = 7) :
    (∃ e, decode w = .error e) ↔ w.imm ≠ 0 ∨ w.sel = 0xE ∨ w.sel = 0xF := by
  have hd : decode w = if w.imm ≠ 0 then .error .operand else if w.sel ≤ 0xD then .ok (.read w.sel)
      else .error .reservedRegister := by
    simp [decode, ho]
  simp only [hd, exists_error_ite, Except.error.injEq, exists_eq', reduceCtorEq, exists_false, reserved_register]
  tauto

/-- An `OP` is reserved, or one of the eight of R56. -/
theorem op_cases : ∀ op : BitVec 4, ((op = 0 ∨ 9 ≤ op) ∧
      op ≠ 1 ∧ op ≠ 2 ∧ op ≠ 3 ∧ op ≠ 4 ∧ op ≠ 5 ∧ op ≠ 6 ∧ op ≠ 7 ∧ op ≠ 8) ∨
    op = 1 ∨ op = 2 ∨ op = 3 ∨ op = 4 ∨ op = 5 ∨ op = 6 ∨ op = 7 ∨ op = 8 := by
  decide

/-- A word does not decode where its fields are of R57 (a) to (e): `OP` by `OP`, the decoder's own tests. -/
theorem decode_error_iff (w : Word) : (∃ e, decode w = .error e) ↔ illegalFields w := by
  rcases op_cases w.op with ⟨hres, h1, h2, h3, h4, h5, h6, h7, h8⟩ | ho | ho | ho | ho | ho | ho | ho | ho
  · refine iff_of_true ⟨.reservedOp, ?_⟩ (.inl hres)
    rw [decode, if_neg h1, if_neg h2, if_neg h3, if_neg h4, if_neg h5, if_neg h6, if_neg h7, if_neg h8]
  · simp [decode, illegalFields, ho, exists_error_ite]
  · exact (decode_pop_error ho).trans (by simp [illegalFields, ho])
  · simp [decode, illegalFields, ho, decodeRing_error]
  · simp [decode, illegalFields, ho, decodeRing_error]
  · simp [decode, illegalFields, ho, decodeRing_error]
  · simp [decode, illegalFields, ho, decodePlain_error]
  · exact (decode_read_error ho).trans (by simp [illegalFields, ho])
  · simp [decode, illegalFields, ho, decodePlain_error]

/-- Settles O4. -/
theorem rejectedWordsAreTheReservedOnes : Obligations.RejectedWordsAreTheReservedOnes :=
  decode_error_iff

/-- Settles O8: either way the step is `illegalCommand` with the word it took (R108). -/
theorem illegalCommandChangesNothing : Obligations.IllegalCommandChangesNothing := by
  intro s c rest hw hi hill
  rcases hill with hf | ⟨i, hd, hp⟩
  · obtain ⟨e, hd⟩ := (decode_error_iff c.word).2 hf
    exact step_of_illegal hw hi hd
  · rw [step_of_other_port hw hi hd hp, (encode_of_decode hd).2]
    rfl

/-! The word that a pop answers (R54, R74). -/

/-- Settles O19: the response is zeros, the flag and the byte put together, and each part is read back. -/
theorem popResponseFields : Obligations.PopResponseFields := by
  intro v b
  refine ⟨?_, popData_flag v b, BitVec.extractLsb'_append_eq_left⟩
  rw [← BitVec.setWidth_eq_extractLsb' (by decide), popData_byte]

end Sys2Proof.Machine
end

section
/-! PROOFS. The written form of a command is read back (R58; log entry 24): a line is its words parted by blanks, and each
word is found in its table or read as a number. -/

namespace Sys2Proof.Machine

/-- A word of a line: at least one character, and none that parts words or may end the part of the line that is read. -/
def isWord (w : List Char) : Bool := w != [] && w.all fun c => c != ' ' && c != ',' && c != ';' && c != '='

theorem isWord_iff {w : List Char} : isWord w = true ↔
    w ≠ [] ∧ ∀ c ∈ w, c ≠ ' ' ∧ c ≠ ',' ∧ c ≠ ';' ∧ c ≠ '=' := by
  simp [isWord, and_assoc]

theorem lineBody_append {w : List Char} (h : isWord w = true) (cs : List Char) :
    lineBody (w ++ cs) = w ++ lineBody cs := by
  obtain ⟨-, hw⟩ := isWord_iff.1 h
  clear h
  induction w with
  | nil => rfl
  | cons c w ih =>
    obtain ⟨⟨-, -, hc, he⟩, hw⟩ := List.forall_mem_cons.1 hw
    simp [lineBody, he, ih hw]

theorem lineWords_append {w : List Char} (h : isWord w = true) (cs acc : List Char) :
    lineWords (w ++ cs) acc = lineWords cs (acc ++ w) := by
  obtain ⟨-, hw⟩ := isWord_iff.1 h
  clear h
  induction w generalizing acc with
  | nil => simp
  | cons c w ih =>
    obtain ⟨⟨hb, hc, -, -⟩, hw⟩ := List.forall_mem_cons.1 hw
    simp [lineWords, hb, hc, ih _ hw]

/-- A word and a blank at the front of a line. -/
theorem words_cons {w : List Char} (h : isWord w = true) (cs : List Char) :
    lineWords (lineBody (w ++ ' ' :: cs)) [] = w :: lineWords (lineBody cs) [] := by
  have hblank : lineBody (' ' :: cs) = ' ' :: lineBody cs := by simp [lineBody]
  rw [lineBody_append h, hblank, lineWords_append h]
  simp [lineWords, (isWord_iff.1 h).1]

/-- A line of one word. -/
theorem words_singleton {w : List Char} (h : isWord w = true) : lineWords (lineBody w) [] = [w] := by
  have hbody := lineBody_append h []
  have hwords := lineWords_append h [] []
  simp only [lineBody, List.append_nil, List.nil_append] at hbody hwords
  rw [hbody, hwords]
  simp [lineWords, (isWord_iff.1 h).1]

/-- A line of two words. -/
theorem words_pair {m a : List Char} (hm : isWord m = true) (ha : isWord a = true) :
    lineWords (lineBody (m ++ ' ' :: a)) [] = [m, a] := by
  rw [words_cons hm, words_singleton ha]

/-! The names and the numbers. -/

theorem portName (p : Port) : isWord (portNames.nameOf p) = true ∧ portNames.find (portNames.nameOf p) = some p := by
  cases p <;> exact ⟨rfl, rfl⟩

theorem regName (r : Reg) : isWord (regNames.nameOf r) = true ∧ regNames.find (regNames.nameOf r) = some r := by
  cases r <;> exact ⟨rfl, rfl⟩

theorem digit_hexDigit : ∀ d : BitVec 4, digit 16 (hexDigit d) = some d.toNat := by
  decide

theorem isWord_hexByte (h l : BitVec 4) : isWord ['0', 'x', hexDigit h, hexDigit l] = true := by
  have hd : ∀ d : BitVec 4, hexDigit d ≠ ' ' ∧ hexDigit d ≠ ',' ∧ hexDigit d ≠ ';' ∧ hexDigit d ≠ '=' := by decide
  simp [isWord, hd]

/-- A byte is the number of its two hex digits. -/
theorem toNat_eq_nibbles (b : Byte) : (b.extractLsb' 4 4).toNat * 16 + (b.extractLsb' 0 4).toNat = b.toNat := by
  simp only [BitVec.extractLsb'_toNat, Nat.shiftRight_eq_div_pow]
  omega

theorem byteOperand_hexByte (b : Byte) :
    byteOperand ['0', 'x', hexDigit (b.extractLsb' 4 4), hexDigit (b.extractLsb' 0 4)] = some b := by
  have hn : number ['0', 'x', hexDigit (b.extractLsb' 4 4), hexDigit (b.extractLsb' 0 4)] = some b.toNat := by
    simp only [number, digits, digit_hexDigit, Nat.zero_mul, Nat.zero_add, toNat_eq_nibbles]
  simp [byteOperand, hn, b.isLt]

/-! The commands. -/

theorem assembleWords_byte {m a : List Char} {f : Byte → Instr} {b : Byte} (hm : byteNames.find m = some f)
    (ha : byteOperand a = some b) : assembleWords [m, a] = some [encode (f b)] := by
  simp [assembleWords, hm, ha]

theorem assembleWords_read {a : List Char} {r : BitVec 4} (ha : regOperand a = some r) :
    assembleWords [['R', 'E', 'A', 'D'], a] = some [encode (.read r)] := by
  have hm : byteNames.find ['R', 'E', 'A', 'D'] = none := rfl
  simp [assembleWords, hm, ha]

/-- Every index up to 0xD is that of a register (R31). -/
theorem exists_sel_eq {r : BitVec 4} (h : r ≤ 0xD) : ∃ reg : Reg, reg.sel = r := by
  have hsel : ∀ r : BitVec 4, r ≤ 0xD → (Reg.ofSel r).map Reg.sel = some r := by decide
  obtain ⟨reg, -, hr⟩ := Option.map_eq_some_iff.1 (hsel r h)
  exact ⟨reg, hr⟩

/-- A register is written by its name. -/
theorem writeInstr_read (r : Reg) : writeInstr (.read r.sel) = ['R', 'E', 'A', 'D'] ++ ' ' :: regNames.nameOf r := by
  simp only [writeInstr, ofSel_sel]
  rfl

/-- A line is its port and the words of its command. -/
theorem assemble_writeLine (p : Port) {i : Instr} {ws : List (List Char)}
    (hw : lineWords (lineBody (writeInstr i)) [] = ws) (ha : assembleWords ws = some [encode i]) :
    assemble (writeLine p i) = some [⟨p, encode i⟩] := by
  obtain ⟨hword, hfind⟩ := portName p
  unfold assemble
  rw [writeLine, words_cons hword, hw]
  simp only [hfind, ha]
  rfl

/-- Settles O6: the line has its port, its mnemonic and at most one operand as its words, and each is read back. -/
theorem writtenLineAssembles : Obligations.WrittenLineAssembles := by
  intro p i hi
  cases i with
  | pushRx b =>
    have hw := words_pair (m := ['P', 'U', 'S', 'H', '.', 'R', 'X']) rfl
      (isWord_hexByte (b.extractLsb' 4 4) (b.extractLsb' 0 4))
    exact assemble_writeLine p hw (assembleWords_byte rfl (byteOperand_hexByte b))
  | pushTx b =>
    have hw := words_pair (m := ['P', 'U', 'S', 'H', '.', 'T', 'X']) rfl
      (isWord_hexByte (b.extractLsb' 4 4) (b.extractLsb' 0 4))
    exact assemble_writeLine p hw (assembleWords_byte rfl (byteOperand_hexByte b))
  | read r =>
    obtain ⟨reg, rfl⟩ := exists_sel_eq (of_decide_eq_true hi)
    obtain ⟨hword, hfind⟩ := regName reg
    have hw := words_pair (m := ['R', 'E', 'A', 'D']) rfl hword
    rw [← writeInstr_read] at hw
    exact assemble_writeLine p hw (assembleWords_read (by rw [regOperand, hfind]))
  | _ => exact assemble_writeLine p (words_singleton rfl) rfl

end Sys2Proof.Machine
end

section
/-! PROOFS. A legal command on its own port completes (R50, R54, R55): its effect answers a state, with `ok = 1`, and what it
records is no illegal command. -/

namespace Sys2Proof.Machine

/-- A byte that has its place in `raw` is taken, if the frame that it may complete has its place there too (R83 to R90). -/
theorem exists_byteStep {c : Nat} {s : State} (b : Byte) (hr : c < s.params.rawCap)
    (ht : 6 ≤ c → 4 ≤ total s.params s.fr.plen ∧ total s.params s.fr.plen ≤ s.params.rawCap) :
    ∃ t, ByteStep c b s t := by
  match c with
  | 0 =>
    by_cases hb : b = s.params.sync1
    · exact ⟨_, .sync1 rfl hb hr⟩
    · exact ⟨_, .noise1 rfl hb⟩
  | 1 =>
    by_cases hb : b = s.params.sync2
    · exact ⟨_, .sync2 rfl hb hr⟩
    · exact ⟨_, .noise2 rfl hb⟩
  | 2 => exact ⟨_, .takeCls rfl hr⟩
  | 3 => exact ⟨_, .takeId rfl hr⟩
  | 4 => exact ⟨_, .lenLo rfl hr⟩
  | 5 =>
    rcases Nat.lt_or_ge s.params.rawCap (total s.params (withHighByte s.fr.plen b)) with hl | hl
    · exact ⟨_, .oversize rfl hr hl⟩
    · exact ⟨_, .lenHi rfl hr hl⟩
  | k + 6 =>
    have h6 : 6 ≤ k + 6 := Nat.le_add_left 6 k
    by_cases hn : k + 6 = total s.params s.fr.plen - 1
    · obtain ⟨hmin, hmax⟩ := ht h6
      obtain ⟨ok, hv⟩ := ckVerdict_isOk (fr := takeBody s.params (k + 6) b (s.rawSet (k + 6) b))
        (by simpa using hmax) (by simpa using hmin)
      exact ⟨_, .complete h6 hr hn ok hv⟩
    · exact ⟨_, .body h6 hr hn⟩

/-- From every state of the invariant a poll has a step: what it stores and loads lies within `raw` (R27, R92). -/
theorem exists_pollStep {s : State} (hi : s.inv) : ∃ t, PollStep s t := by
  have hfield := @payload_within_raw s hi
  obtain ⟨hw, hend, ⟨-, -, hh, -⟩, -, -, -, -, -, -, hread, -⟩ := hi
  cases hs : s.fr.fstate with
  | idle =>
    rcases Nat.eq_zero_or_pos (s.rx.occ s.params.rxN) with ho | ho
    · exact ⟨_, .quiet hs ho⟩
    · exact ⟨_, .start hs ho⟩
  | reading =>
    obtain ⟨hf, hc, hbody⟩ := hread hs
    by_cases ho : s.rx.occ s.params.rxN = 0
    · exact ⟨_, .wait hs (.inl ho)⟩
    obtain ⟨-, -, hcap, -⟩ := Params.wf_iff.1 hw
    have hplace : s.fr.cursor.toNat < s.params.rawCap := by omega
    have hmin : 4 ≤ total s.params s.fr.plen := by unfold total; omega
    obtain ⟨t, ht⟩ := exists_byteStep (s := s.popped) s.nextByte hplace fun h6 =>
      ⟨hmin, (plen_le_maxPlen_iff hw _).1 (hbody h6).1⟩
    exact ⟨t, .byte hs ho hf hh t ht⟩
  | parsing =>
    rcases Nat.lt_or_ge s.fr.pcur.toNat s.fr.plen.toNat with hl | hl
    · cases hk : known s.fr.cls s.fr.id with
      | false => exact ⟨_, .unknown hs hl hk⟩
      | true =>
        cases he : entry s.fr.cls s.fr.id s.fr.pcur.toNat with
        | none => exact ⟨_, .skip hs hl hk he⟩
        | some row =>
          rcases Nat.lt_or_ge s.fr.plen.toNat (s.fr.pcur.toNat + row.width.bytes) with hfit | hfit
          · exact ⟨_, .misfit hs hl hk row he hfit⟩
          · exact ⟨_, .field hs hl hk row he hfit (by rw [Nat.add_assoc]; exact hfield hs hfit)⟩
    · exact ⟨_, .done hs hl⟩

/-- With the rings in range, and for `POLL` the whole invariant, a command's effect answers a state (R50). -/
theorem effectOf_isOk {i : Instr} {s : State} (hrx : s.rx.inv s.params .rx) (htx : s.tx.inv s.params .tx)
    (hi : i = .poll → s.inv) : ∃ t, effectOf i s = .ok t := by
  by_cases hp : i = .poll
  · subst hp
    obtain ⟨u, hu⟩ := exists_pollStep (hi rfl)
    exact ⟨_, pollEffect_iff.2 ⟨u, hu, rfl⟩⟩
  · obtain ⟨-, -, -, hrxt, -⟩ := hrx
    obtain ⟨-, -, htxh, htxt, -⟩ := htx
    cases he : effectOf i s with
    | ok t => exact ⟨t, rfl⟩
    | error f => exact absurd he (effectOf_ne_error hp hrxt htxt htxh f)

/-- The effect of a legal command answers `ok = 1` (R54). -/
theorem effectOf_resp {i : Instr} {s t : State} (hw : i.wf = true) (h : effectOf i s = .ok t) :
    ∃ d, t.resp = some ⟨true, d⟩ := by
  cases i with
  | pushRx b => obtain ⟨rb, a, -, ⟨-, rfl⟩ | ⟨-, rfl⟩⟩ := pushEffect_ok.1 h <;> exact ⟨_, rfl⟩
  | pushTx b => obtain ⟨rb, a, -, ⟨-, rfl⟩ | ⟨-, rfl⟩⟩ := pushEffect_ok.1 h <;> exact ⟨_, rfl⟩
  | popTx => obtain ⟨rb, v, b, -, rfl⟩ := popEffect_ok.1 h; exact ⟨_, rfl⟩
  | poll => obtain ⟨u, -, rfl⟩ := pollEffect_ok.1 h; exact ⟨_, rfl⟩
  | read r =>
    obtain ⟨reg, hreg⟩ := ofSel_of_le (of_decide_eq_true hw)
    simp only [effectOf, readEffect, hreg] at h
    cases h
    exact ⟨_, rfl⟩
  | _ => cases h; exact ⟨_, rfl⟩

/-- The effect of a legal command records at most one event, and no illegal command (R72, R73, R79, R107). -/
theorem effectOf_records {i : Instr} {s t : State} (hw : i.wf = true) (h : effectOf i s = .ok t) :
    t.history = s.history ∨ ∃ e, t.history = s.history ++ [e] ∧ ∀ p w, e ≠ .cond (.illegalCommand p w) := by
  by_cases hp : i = .poll
  · subst hp
    obtain ⟨u, hu, rfl⟩ := pollEffect_step h
    obtain ⟨-, -, -, -, ⟨-, hh, -⟩ | ⟨x, -, hh, -, hx, -⟩ | ⟨-, -, -, -, hh, -⟩⟩ := pollStep_history hu
    · exact .inl hh
    · exact .inr ⟨_, hh, fun p w e => by rw [e] at hx; exact hx⟩
    · exact .inr ⟨_, hh, by simp⟩
  · rcases effectOf_history hp h hw with ⟨-, hh⟩ | ⟨b, -, -, hh⟩ | ⟨b, -, -, hh⟩ | ⟨-, -, -, hh⟩
    · exact .inl hh
    · exact .inr ⟨_, hh, by simp⟩
    · exact .inr ⟨_, hh, by simp⟩
    · exact .inr ⟨_, hh, by simp⟩

/-- Settles O9. -/
theorem legalCommandCompletes : Obligations.LegalCommandCompletes := by
  intro i s hw hrx htx hi hwf hp
  obtain ⟨t, ht⟩ := effectOf_isOk hrx htx hi
  obtain ⟨d, hd⟩ := effectOf_resp hwf ht
  refine ⟨t, d, exec_next.2 ⟨hw, .inl ⟨hp, ht⟩⟩, hd, fun p w hmem => ?_⟩
  rcases effectOf_records hwf ht with hh | ⟨e, hh, he⟩
  · rwa [hh] at hmem
  · rw [hh, List.mem_append, List.mem_singleton] at hmem
    exact hmem.resolve_right fun h => he p w h.symm

end Sys2Proof.Machine
end

section
/-! PROOFS. Runs of pushes and pops of one ring (R70): what any run does to the queue, a run that fills it, and a run that
empties it. -/

namespace Sys2Proof.Machine

/-- A ring with no byte queued has occupancy 0 (R18). -/
theorem Ring.queue_eq_nil_iff {n : Nat} {rb : Ring} : rb.queue n = [] ↔ rb.occ n = 0 := by
  rw [← List.length_eq_zero_iff, Ring.length_queue]

/-- A run that begins with a push and does not stop (R66). -/
theorem ringRun_push_some {p : Params} {q : RingSel} {b : Byte} {os : List (Option Byte)} {rb r : Ring}
    {acc out : List Byte} (h : ringRun p q (some b :: os) rb = some (acc, out, r)) :
    ∃ rb' a acc', rb.push p q b = .ok (rb', a) ∧ ringRun p q os rb' = some (acc', out, r) ∧
      acc = (if a then [b] else []) ++ acc' := by
  cases hpush : rb.push p q b with
  | error f => simp [ringRun, hpush] at h
  | ok ra =>
    obtain ⟨rb', a⟩ := ra
    rw [ringRun_push hpush, Option.map_eq_some_iff] at h
    obtain ⟨⟨acc', out', r'⟩, hrest, heq⟩ := h
    cases heq
    exact ⟨rb', a, acc', rfl, hrest, by cases a <;> rfl⟩

/-- A run that begins with a pop and does not stop (R67). -/
theorem ringRun_pop_some {p : Params} {q : RingSel} {os : List (Option Byte)} {rb r : Ring} {acc out : List Byte}
    (h : ringRun p q (none :: os) rb = some (acc, out, r)) :
    ∃ rb' v b out', rb.pop p q = .ok (rb', v, b) ∧ ringRun p q os rb' = some (acc, out', r) ∧
      out = (if v then [b] else []) ++ out' := by
  cases hpop : rb.pop p q with
  | error f => simp [ringRun, hpop] at h
  | ok rv =>
    obtain ⟨rb', v, b⟩ := rv
    rw [ringRun_pop hpop, Option.map_eq_some_iff] at h
    obtain ⟨⟨acc', out', r'⟩, hrest, heq⟩ := h
    cases heq
    exact ⟨rb', v, b, out', rfl, hrest, by cases v <;> rfl⟩

/-- R70, from any ring in range: the bytes queued before and the bytes accepted are the bytes popped and the bytes queued
after. -/
theorem ringRun_queue {p : Params} {q : RingSel} {os : List (Option Byte)} {rb rb' : Ring} {acc out : List Byte}
    (hi : rb.inv p q) (h : ringRun p q os rb = some (acc, out, rb')) :
    rb.queue (p.slots q) ++ acc = out ++ rb'.queue (p.slots q) := by
  induction os generalizing rb acc out with
  | nil => cases h; exact List.append_nil _
  | cons o os ih =>
    have ⟨_, _, hh, ht, _⟩ := hi
    cases o with
    | some b =>
      obtain ⟨r, a, acc, hpush, hrest, rfl⟩ := ringRun_push_some h
      rw [← List.append_assoc, ← Ring.push_queue hh ht hpush]
      exact ih (Ring.push_inv hi hpush) hrest
    | none =>
      obtain ⟨r, v, b, out, hpop, hrest, rfl⟩ := ringRun_pop_some h
      rw [Ring.pop_queue hh ht hpop, List.append_assoc, ih (Ring.pop_inv hi hpop) hrest, List.append_assoc]

/-- Pushes for which there is room are all accepted, whatever follows (R66). -/
theorem ringRun_pushes {p : Params} {q : RingSel} {bs : List Byte} {rb : Ring} (hi : rb.inv p q)
    (hroom : rb.occ (p.slots q) + bs.length ≤ p.slots q - 1) :
    ∃ rb', rb'.inv p q ∧ rb'.queue (p.slots q) = rb.queue (p.slots q) ++ bs ∧
      ∀ os, ringRun p q (bs.map some ++ os) rb =
        (ringRun p q os rb').map fun (acc, out, r) => (bs ++ acc, out, r) := by
  induction bs generalizing rb with
  | nil => exact ⟨rb, hi, (List.append_nil _).symm, fun os => by simp⟩
  | cons b bs ih =>
    have ⟨_, _, hh, ht, _⟩ := hi
    rw [List.length_cons] at hroom
    have hf : rb.occ (p.slots q) ≠ p.slots q - 1 := by omega
    have hpush := Ring.push_not_full b hf ht
    have hocc := Ring.occ_push ht hf (rb.mem.write rb.tail b)
    obtain ⟨rb', hi', hq, hrun⟩ := ih (Ring.push_inv hi hpush) (by omega)
    refine ⟨rb', hi', ?_, fun os => ?_⟩
    · rw [hq, Ring.push_queue hh ht hpush, List.append_assoc]
      rfl
    · rw [List.map_cons, List.cons_append, ringRun_push hpush, hrun, Option.map_map]
      rfl

/-- A pop of a ring with a byte queued returns the oldest one, and moves `head` on by one mod `N` (R67). -/
theorem Ring.pop_of_queue_eq_cons {p : Params} {q : RingSel} {rb : Ring} {b : Byte} {bs : List Byte}
    (hh : rb.head < p.slots q) (ht : rb.tail < p.slots q) (hq : rb.queue (p.slots q) = b :: bs) :
    rb.pop p q = .ok ({ rb with head := (rb.head + 1) % p.slots q }, true, b) ∧
      Ring.queue (p.slots q) { rb with head := (rb.head + 1) % p.slots q } = bs := by
  have he : rb.occ (p.slots q) ≠ 0 := by
    rw [ne_eq, ← Ring.queue_eq_nil_iff, hq]
    exact List.cons_ne_nil b bs
  rw [Ring.queue_eq_cons hh ht he, List.cons.injEq] at hq
  obtain ⟨rfl, hrest⟩ := hq
  rw [← incN_eq_mod hh]
  exact ⟨Ring.pop_not_empty he hh, hrest⟩

/-- As many pops as there are bytes queued return them in order, and leave none (R67). -/
theorem ringRun_pops {p : Params} {q : RingSel} {bs : List Byte} {rb : Ring} (hi : rb.inv p q)
    (hq : rb.queue (p.slots q) = bs) :
    ∃ rb', rb'.occ (p.slots q) = 0 ∧ ringRun p q (List.replicate bs.length none) rb = some ([], bs, rb') := by
  induction bs generalizing rb with
  | nil => exact ⟨rb, Ring.queue_eq_nil_iff.1 hq, rfl⟩
  | cons b bs ih =>
    have ⟨_, _, hh, ht, _⟩ := hi
    obtain ⟨hpop, hrest⟩ := Ring.pop_of_queue_eq_cons hh ht hq
    obtain ⟨rb', hocc, hrun⟩ := ih (Ring.pop_inv hi hpop) hrest
    refine ⟨rb', hocc, ?_⟩
    rw [List.length_cons, List.replicate_succ, ringRun_pop hpop, hrun]
    rfl

/-- Settles O20: the run that fills the ring and then empties it, and for any run the conservation of bytes that
`ringRun_queue` states. -/
theorem fifoLaw : Obligations.FifoLaw := by
  intro p q rb hw hi he
  refine ⟨fun bs hk => ?_, fun os acc out rb' h => ?_⟩
  · obtain ⟨r, hir, hq, hrun⟩ := ringRun_pushes hi (bs := bs) (by omega)
    rw [Ring.queue_eq_nil_iff.2 he, List.nil_append] at hq
    obtain ⟨rb', hempty, hpops⟩ := ringRun_pops hir hq
    refine ⟨rb', ?_, Ring.pop_empty hempty⟩
    rw [hrun, hpops]
    simp
  · have hacc := ringRun_queue hi h
    rw [Ring.queue_eq_nil_iff.2 he, List.nil_append] at hacc
    exact ⟨⟨_, hacc.symm⟩, hacc⟩

end Sys2Proof.Machine
end

section
/-! PROOFS. The commands of the ring buffer family, each with its word, its whole next state on its own port, and the
illegal command elsewhere (R72 to R77). -/

namespace Sys2Proof.Machine

/-! The commands of the two rings, given the ring: word, port and effect. -/

/-- R56: the word of a push is `0x10bb` or `0x11bb`. -/
theorem encode_pushOf (q : RingSel) (b : Byte) :
    encode (pushOf q b) = (match q with | .rx => 0x10 | .tx => 0x11 : Byte) ++ b := by
  cases q with
  | rx => exact congrArg (· ++ b) (show (1 : BitVec 4) ++ (0 : BitVec 4) = (0x10 : Byte) by decide)
  | tx => exact congrArg (· ++ b) (show (1 : BitVec 4) ++ (1 : BitVec 4) = (0x11 : Byte) by decide)

theorem pushOf_port (q : RingSel) (b : Byte) : (pushOf q b).port = pushPort q := by cases q <;> rfl

theorem lenOf_port (q : RingSel) : (lenOf q).port = .host := by cases q <;> rfl

theorem isEmptyOf_port (q : RingSel) : (isEmptyOf q).port = .host := by cases q <;> rfl

theorem clearOf_port (q : RingSel) : (clearOf q).port = .host := by cases q <;> rfl

theorem effectOf_lenOf (q : RingSel) (s : State) : effectOf (lenOf q) s = lenEffect q s := by cases q <;> rfl

theorem effectOf_isEmptyOf (q : RingSel) (s : State) : effectOf (isEmptyOf q) s = isEmptyEffect q s := by
  cases q <;> rfl

theorem effectOf_clearOf (q : RingSel) (s : State) : effectOf (clearOf q) s = clearEffect q s := by cases q <;> rfl

/-- On its own port a command's next state is the one its effect answers (R55). -/
theorem exec_of_effect {i : Instr} {s t : State} (hw : s.params.wf = true) (hp : s.port = i.port)
    (h : effectOf i s = .ok t) : exec i s = .next t := exec_next.2 ⟨hw, .inl ⟨hp, h⟩⟩

/-- On any other port a command is illegal (R57 (f)). -/
theorem exec_illegal {i : Instr} {s : State} (hw : s.params.wf = true) (hp : s.port ≠ i.port) :
    exec i s = .next (s.illegalAnswer (encode i)) := exec_of_other_port hw hp

/-! Reading a ring of an updated state. -/

@[simp] theorem State.respond_ring (s : State) (ok : Bool) (d : Data) (q : RingSel) :
    (s.respond ok d).ring q = s.ring q := by cases q <;> rfl

@[simp] theorem State.raise_ring (s : State) (c : Condition) (q : RingSel) : (s.raise c).ring q = s.ring q := by
  cases q <;> rfl

@[simp] theorem State.setRing_otherRing (s : State) (q : RingSel) (rb : Ring) :
    (s.setRing q rb).ring (otherRing q) = s.ring (otherRing q) := by cases q <;> rfl

/-! `PUSH` (R72, R73). -/

/-- The next state of a push into a full ring. -/
theorem pushEffect_full {q : RingSel} {s : State} (b : Byte)
    (h : (s.ring q).occ (s.params.slots q) = s.params.slots q - 1) :
    pushEffect q b s = .ok (((s.setRing q { s.ring q with ovf := s.params.satInc (s.ring q).ovf }).raise
      (overflowOf q b)).respond true 0) :=
  pushEffect_ok.2 ⟨_, false, Ring.push_full b h, .inr ⟨rfl, rfl⟩⟩

/-- The next state of a push into any other ring. -/
theorem pushEffect_not_full {q : RingSel} {s : State} (b : Byte)
    (h : (s.ring q).occ (s.params.slots q) ≠ s.params.slots q - 1) (ht : (s.ring q).tail < s.params.slots q) :
    pushEffect q b s = .ok ((s.setRing q { s.ring q with
      mem := (s.ring q).mem.write (s.ring q).tail b
      tail := incN (s.params.slots q) (s.ring q).tail }).respond true 1) :=
  pushEffect_ok.2 ⟨_, true, Ring.push_not_full b h ht, .inl ⟨rfl, rfl⟩⟩

/-- Settles O16: the two cases of `RB_PUSH`. -/
theorem pushStoresOrCountsOverflow : Obligations.PushStoresOrCountsOverflow := by
  intro q b s hw
  rw [← pushOf_port q b]
  refine ⟨encode_pushOf q b, exec_illegal hw, fun hp hf => ?_, fun hp hf ht => ?_⟩
  · refine exec_of_effect hw hp ?_
    rw [effectOf_pushOf, pushEffect_full b hf]
    cases q <;> rfl
  · refine exec_of_effect hw hp ?_
    rw [effectOf_pushOf, pushEffect_not_full b hf ht]
    cases q <;> rfl

/-- A push changes neither the `head` of its ring nor anything else but its ring, the history and the response. -/
theorem pushEffect_keeps {q : RingSel} {b : Byte} {s t : State} (h : pushEffect q b s = .ok t) :
    (t.ring q).head = (s.ring q).head ∧ t.ring (otherRing q) = s.ring (otherRing q) ∧
      t.fr = s.fr ∧ t.conn = s.conn ∧ t.tel = s.tel ∧ t.params = s.params ∧ t.port = s.port ∧ t.input = s.input := by
  obtain ⟨rb, a, hpush, ht⟩ := pushEffect_ok.1 h
  have hhead : rb.head = (s.ring q).head := by
    rcases Ring.push_cases hpush with ⟨-, -, rfl⟩ | ⟨-, -, -, rfl⟩ <;> rfl
  rcases ht with ⟨-, rfl⟩ | ⟨-, rfl⟩ <;> simp [hhead]

/-- Settles O17: the two cases of `RB_PUSH`, over the frame that they share. -/
theorem pushAppendsToQueue : Obligations.PushAppendsToQueue := by
  intro q b s hw ⟨_, _, hh, ht, hovf⟩ hp
  by_cases hf : (s.ring q).occ (s.params.slots q) = s.params.slots q - 1
  · have heff := pushEffect_full b hf
    refine ⟨_, exec_of_effect hw hp ((effectOf_pushOf q b s).trans heff), fun _ => ?_, fun hn => absurd hf hn,
      pushEffect_keeps heff⟩
    have hcount : s.params.satInc (s.ring q).ovf = min ((s.ring q).ovf + 1) (2 ^ s.params.cntW - 1) :=
      satInc_min (min_eq_left hovf).symm
    rw [State.respond_ring, State.raise_ring, State.setRing_ring]
    refine ⟨Ring.queue_ovf _ _ _, fun _ => rfl, rfl, hcount, ?_, rfl⟩
    rw [State.respond_history, State.raise_history, State.setRing_history]
    rfl
  · have heff := pushEffect_not_full b hf ht
    refine ⟨_, exec_of_effect hw hp ((effectOf_pushOf q b s).trans heff), fun hn => absurd hn hf, fun _ => ?_,
      pushEffect_keeps heff⟩
    rw [State.respond_ring, State.setRing_ring]
    exact ⟨Ring.queue_write_tail hh ht hf b, fun a ha => (Memory.read_write _ _ _ a).trans (if_neg ha),
      (Memory.read_write _ _ _ _).trans (if_pos rfl), incN_eq_mod ht, rfl, State.setRing_history s q _, rfl⟩

/-! `POP.TX` (R74). -/

/-- Settles O18: the two cases of `RB_POP`. -/
theorem popTakesOldestByte : Obligations.PopTakesOldestByte := by
  refine ⟨rfl, fun s hw ⟨_, _, hh, ht, _⟩ => ⟨fun hp => exec_illegal hw hp, fun hp hq => ?_, fun b bs hp hq => ?_⟩⟩
  · have hpop : s.tx.pop s.params .tx = _ := Ring.pop_empty (Ring.queue_eq_nil_iff.1 hq)
    exact exec_of_effect hw hp (popEffect_ok.2 ⟨_, _, _, hpop, rfl⟩)
  · obtain ⟨hpop, hrest⟩ := Ring.pop_of_queue_eq_cons (q := .tx) hh ht hq
    exact ⟨_, exec_of_effect hw hp (popEffect_ok.2 ⟨_, _, _, hpop, rfl⟩), hrest, rfl⟩

/-! `LEN` and `ISEMPTY` (R75, R76). -/

/-- A count that fits in 32 bits is the value of its zero-extension (R75). -/
theorem zext32_toNat {n : Nat} (h : n < 2 ^ 32) : (zext32 n).toNat = n := by
  rw [zext32, if_pos h, BitVec.toNat_ofNat, Nat.mod_eq_of_lt h]

/-- Settles O23: the answer is the zero-extended occupancy, which the order of the indices gives. -/
theorem lenAnswersOccupancy : Obligations.LenAnswersOccupancy := by
  intro q s hw
  have hlt := Ring.occ_lt (s.ring q) (slots_pos hw q)
  rw [← lenOf_port q]
  refine ⟨by cases q <;> rfl, exec_illegal hw, fun hp => ?_, by omega, fun hh ht => ?_⟩
  · exact ⟨_, exec_of_effect hw hp (effectOf_lenOf q s), zext32_toNat⟩
  · split
    · next h => exact Ring.occ_of_lt h hh
    · next h => exact Ring.occ_of_le (Nat.le_of_not_lt h) ht

/-- Settles O24: the answer is the bit that says whether the occupancy is 0. -/
theorem isEmptyAnswersIndexEquality : Obligations.IsEmptyAnswersIndexEquality := by
  intro q s hw
  rw [← isEmptyOf_port q]
  refine ⟨by cases q <;> rfl, exec_illegal hw, fun hp => ?_, Ring.occ_eq_zero⟩
  refine exec_of_effect hw hp ((effectOf_isEmptyOf q s).trans ?_)
  simp [isEmptyEffect, Ring.isEmpty, bit32, State.respond]

/-! `CLEAR` (R77). -/

/-- A cleared ring has no byte queued (R69). -/
theorem Ring.clear_queue {p : Params} (hw : p.wf = true) (q : RingSel) (rb : Ring) :
    (rb.clear p q).queue (p.slots q) = [] :=
  Ring.queue_eq_nil_iff.2 ((Ring.occ_eq_zero (slots_pos hw q) (slots_pos hw q)).2 rfl)

/-- Settles O25: `RB_CLEAR` on one ring, which `setRing` alone replaces. -/
theorem clearZeroesOneRing : Obligations.ClearZeroesOneRing := by
  intro q s hw
  rw [← clearOf_port q]
  refine ⟨by cases q <;> rfl, exec_illegal hw, fun hp => ?_⟩
  refine ⟨_, exec_of_effect hw hp (effectOf_clearOf q s), ?_⟩
  rw [State.respond_ring, State.setRing_ring]
  exact ⟨Memory.read_zero _ _, rfl, rfl, rfl, Ring.clear_queue hw q _, rfl⟩

end Sys2Proof.Machine
end

section
/-! PROOFS. The current frame in step with its bytes (R82 to R90): what the framer does with a byte that it accepts, that the
agreement with `raw` moves on with it, and that the verdict on a complete frame is whether its checksum holds. -/

namespace Sys2Proof.Machine

/-- What the framer does to the frame it reads with a byte `b` accepted at cursor `c`: the byte is stored and counted, has
the value its place demands, is kept in the register of its place (R83 to R88), and is covered by the sums at the indices
2 to `total − 3` (R82). -/
structure Framer.Takes (p : Params) (c : Nat) (b : Byte) (fr fr' : Framer) : Prop where
  cursor : fr'.cursor.toNat = c + 1
  raw : fr'.raw = fr.raw.write c b
  sync1 : c = 0 → b = p.sync1
  sync2 : c = 1 → b = p.sync2
  cls : fr'.cls = if c = 2 then b else fr.cls
  id : fr'.id = if c = 3 then b else fr.id
  plen : fr'.plen = if c = 4 then b.setWidth 16 else if c = 5 then withHighByte fr.plen b else fr.plen
  sums : (fr'.ckA, fr'.ckB) =
    if 2 ≤ c ∧ (c < 6 ∨ c + 3 ≤ total p fr.plen) then fr.sumsWith p b else (fr.ckA, fr.ckB)

/-- The sums do not depend on the bytes in `raw`. -/
@[simp] theorem Framer.sumsWith_raw (p : Params) (fr : Framer) (raw : Memory) (b : Byte) :
    Framer.sumsWith p { fr with raw := raw } b = fr.sumsWith p b := rfl

/-- A body byte is summed exactly where it is covered by the checksum (R89). -/
theorem takeBody_of_covered {p : Params} {c : Nat} {b : Byte} {fr : Framer} (h6 : 6 ≤ c)
    (hc : c + 3 ≤ total p fr.plen) : takeBody p c b fr = { fr with
      ckA := (fr.sumsWith p b).1, ckB := (fr.sumsWith p b).2, cursor := BitVec.ofNat 8 (c + 1) } := by
  rw [takeBody, if_pos (by omega), ckAcc_sumsWith]

theorem takeBody_of_not_covered {p : Params} {c : Nat} {b : Byte} {fr : Framer} (h6 : 6 ≤ c)
    (hc : total p fr.plen < c + 3) : takeBody p c b fr = { fr with cursor := BitVec.ofNat 8 (c + 1) } := by
  rw [takeBody, if_neg (by omega)]

/-- Every byte at cursor 6 or more is accepted (R89). -/
theorem takeBody_takes {p : Params} {c : Nat} {b : Byte} {fr : Framer} (h6 : 6 ≤ c) (hc : c < 255) :
    fr.Takes p c b (takeBody p c b { fr with raw := fr.raw.write c b }) := by
  have hcur : (BitVec.ofNat 8 (c + 1)).toNat = c + 1 := by
    rw [BitVec.toNat_ofNat]
    omega
  have hreg (i : Nat) (hi : i < 6) : c ≠ i := by omega
  rcases Nat.lt_or_ge (total p fr.plen) (c + 3) with hn | hn
  · rw [takeBody_of_not_covered (fr := { fr with raw := fr.raw.write c b }) h6 hn]
    constructor <;> simp [hcur, hreg, Nat.not_lt.2 h6, Nat.not_le.2 hn]
  · rw [takeBody_of_covered (fr := { fr with raw := fr.raw.write c b }) h6 hn]
    constructor <;> simp [hcur, hreg, hn, le_trans (by decide : 2 ≤ 6) h6]

/-- A byte read is accepted, or the framer goes back to Idle (R83 to R90). -/
theorem byteStep_takes {c : Nat} {b : Byte} {s t : State} (h : ByteStep c b s t) (hw : s.params.wf = true) :
    t.fr.fstate = .idle ∨ s.fr.Takes s.params c b t.fr := by
  obtain ⟨-, -, -, h255, -⟩ := Params.wf_iff.1 hw
  cases h with
  | noise1 hc hb => exact .inl rfl
  | noise2 hc hb => exact .inl rfl
  | oversize hc hr hl => exact .inl rfl
  | sync1 hc hb hr => right; constructor <;> simp [hc, hb]
  | sync2 hc hb hr => right; constructor <;> simp [hc, hb]
  | takeCls hc hr => right; constructor <;> simp [hc, takeClass, ckAcc_sumsWith]
  | takeId hc hr => right; constructor <;> simp [hc, Machine.takeId, ckAcc_sumsWith]
  | lenLo hc hr => right; constructor <;> simp [hc, takeLenLo, ckAcc_sumsWith]
  | lenHi hc hr hl => right; constructor <;> simp [hc, takeLenHi, ckAcc_sumsWith]
  | body h6 hr hn => exact .inr (takeBody_takes h6 (by omega))
  | complete h6 hr hn ok hv =>
    rcases applyPolicy_cases ok (takeVerdict ok (s.setFr (takeBody s.params c b (s.rawSet c b)))) with
      ⟨-, e⟩ | ⟨-, -, e⟩ <;> rw [e]
    · have hb : s.fr.Takes s.params c b _ := takeBody_takes h6 (by omega)
      rw [takeVerdict_fr]
      exact .inr ⟨hb.cursor, hb.raw, hb.sync1, hb.sync2, hb.cls, hb.id, hb.plen, hb.sums⟩
    · exact .inl rfl

/-! The bytes of a frame. -/

/-- One more byte of `raw`. -/
theorem Framer.rawBytes_succ (fr : Framer) (i n : Nat) :
    fr.rawBytes i (n + 1) = fr.rawBytes i n ++ [fr.raw.read (i + n)] := by
  simp [Framer.rawBytes, List.range_succ]

/-- Framers with the same bytes at the indices from `i` on have the same `n` bytes there. -/
theorem Framer.rawBytes_congr {fr fr' : Framer} {i n : Nat}
    (h : ∀ j < i + n, fr'.raw.read j = fr.raw.read j) : fr'.rawBytes i n = fr.rawBytes i n := by
  refine List.map_congr_left fun k hk => h (i + k) ?_
  have := List.mem_range.1 hk
  omega

/-- A byte accepted at cursor `c` leaves the bytes before it. -/
theorem Framer.Takes.read_of_lt {p : Params} {c : Nat} {b : Byte} {fr fr' : Framer} (h : fr.Takes p c b fr')
    {i : Nat} (hi : i < c) : fr'.raw.read i = fr.raw.read i := by
  rw [h.raw, Memory.read_write, if_neg (by omega)]

theorem Framer.Takes.read_self {p : Params} {c : Nat} {b : Byte} {fr fr' : Framer} (h : fr.Takes p c b fr') :
    fr'.raw.read c = b := by
  rw [h.raw, Memory.read_write, if_pos rfl]

/-- An accepted byte at index `i` reads as `v`, if the new byte is `v` where it is that one, and it read as `v` before. -/
theorem Framer.Takes.read {p : Params} {c : Nat} {b : Byte} {fr fr' : Framer} (h : fr.Takes p c b fr') {i : Nat}
    {v : Byte} (hnew : c = i → b = v) (hold : i + 1 ≤ c → fr.raw.read i = v) (hi : i + 1 ≤ fr'.cursor.toNat) :
    fr'.raw.read i = v := by
  rw [h.cursor] at hi
  rcases Nat.lt_or_ge i c with hlt | hge
  · rw [h.read_of_lt hlt, hold hlt]
  · obtain rfl : c = i := by omega
    rw [h.read_self, hnew rfl]

/-- The checksum covers the accepted byte, where it lies at the indices 2 to `total − 3`, and no other (R82). -/
theorem Framer.Takes.coveredCount {p : Params} {c : Nat} {b : Byte} {fr fr' : Framer} (h : fr.Takes p c b fr')
    (h8 : 8 ≤ p.hdrLen + p.ckLen) (hc : fr.cursor.toNat = c) :
    if 2 ≤ c ∧ (c < 6 ∨ c + 3 ≤ total p fr.plen) then
      2 + fr.coveredCount p = c ∧ fr'.coveredCount p = fr.coveredCount p + 1
    else fr'.coveredCount p = fr.coveredCount p := by
  have htot (plen : BitVec 16) : 8 ≤ total p plen := by unfold total; omega
  have h1 := htot fr.plen
  have h2 := htot fr'.plen
  unfold Framer.coveredCount
  rw [h.cursor, hc]
  rcases Nat.lt_or_ge c 6 with hlt | h6
  · split <;> omega
  · rw [show fr'.plen = fr.plen by rw [h.plen, if_neg (by omega), if_neg (by omega)]]
    split <;> omega

/-- The sums stay the sums of the covered bytes (R82). -/
theorem Framer.Takes.fletcher {p : Params} {c : Nat} {b : Byte} {fr fr' : Framer} (h : fr.Takes p c b fr')
    (h8 : 8 ≤ p.hdrLen + p.ckLen) (hc : fr.cursor.toNat = c) (hk : p.ckFn = .fletcher8)
    (ha : (fr.ckA, fr.ckB) = fletcher8 (fr.rawBytes 2 (fr.coveredCount p))) :
    (fr'.ckA, fr'.ckB) = fletcher8 (fr'.rawBytes 2 (fr'.coveredCount p)) := by
  have hkeep : fr'.rawBytes 2 (fr.coveredCount p) = fr.rawBytes 2 (fr.coveredCount p) := by
    rcases Nat.eq_zero_or_pos (fr.coveredCount p) with h0 | hpos
    · rw [h0]
      rfl
    · refine Framer.rawBytes_congr fun j hj => h.read_of_lt ?_
      unfold Framer.coveredCount at hj hpos
      omega
  have hcount := h.coveredCount h8 hc
  rw [h.sums]
  split at hcount
  · next hcov =>
    obtain ⟨hlast, hnext⟩ := hcount
    rw [if_pos hcov, hnext, Framer.rawBytes_succ, hkeep, hlast, h.read_self, fletcher8_concat, ← ha, Framer.sumsWith, hk]
    rfl
  · next hcov => rw [if_neg hcov, hcount, hkeep, ha]

/-- The low byte of the length is the byte at index 4 (R87). -/
theorem Framer.Takes.plen_low {p : Params} {c : Nat} {b : Byte} {fr fr' : Framer} (h : fr.Takes p c b fr')
    (h5 : fr'.cursor.toNat = 5) : fr'.plen = (fr'.raw.read 4).setWidth 16 := by
  rw [h.cursor] at h5
  obtain rfl : c = 4 := by omega
  rw [h.plen, if_pos rfl, h.read_self]

/-- The high byte of a length whose low byte is known completes it (R36, R88). -/
theorem withHighByte_low (lo hi : Byte) : withHighByte (lo.setWidth 16) hi = hi ++ lo := by
  rw [withHighByte, BitVec.setWidth_setWidth_of_le _ (by decide), BitVec.setWidth_eq]

/-- The length is the two bytes at the indices 4 and 5, low byte first (R36, R88). -/
theorem Framer.Takes.plen_whole {p : Params} {c : Nat} {b : Byte} {fr fr' : Framer} (h : fr.Takes p c b fr')
    (hlow : c = 5 → fr.plen = (fr.raw.read 4).setWidth 16)
    (hwhole : 6 ≤ c → fr.plen = fr.raw.read 5 ++ fr.raw.read 4) (h6 : 6 ≤ fr'.cursor.toNat) :
    fr'.plen = fr'.raw.read 5 ++ fr'.raw.read 4 := by
  rw [h.cursor] at h6
  rw [h.plen, if_neg (by omega), h.read_of_lt (by omega : 4 < c)]
  split
  · next h5 =>
    subst h5
    rw [h.read_self, hlow rfl, withHighByte_low]
  · next h5 => rw [h.read_of_lt (by omega), hwhole (by omega)]

/-- A framer that agrees with its accepted bytes agrees with them and one more (R82 to R89). -/
theorem Framer.Takes.agrees {p : Params} {c : Nat} {b : Byte} {fr fr' : Framer} (h : fr.Takes p c b fr')
    (h8 : 8 ≤ p.hdrLen + p.ckLen) (hc : fr.cursor.toNat = c) (ha : fr.agrees p) : fr'.agrees p := by
  unfold Framer.agrees at ha
  rw [hc] at ha
  obtain ⟨hsync1, hsync2, hcls, hid, hlow, hwhole, hsum⟩ := ha
  refine ⟨h.read h.sync1 hsync1, h.read h.sync2 hsync2, h.read (fun hi => ?_) (fun hi => ?_),
    h.read (fun hi => ?_) (fun hi => ?_), h.plen_low, h.plen_whole hlow hwhole,
    fun hk => h.fletcher h8 hc hk (hsum hk)⟩
  · rw [h.cls, if_pos hi]
  · rw [h.cls, if_neg (by omega), hcls hi]
  · rw [h.id, if_pos hi]
  · rw [h.id, if_neg (by omega), hid hi]

/-! The verdict of a complete frame (R90). -/

/-- The bytes that a frame within `raw` should end in. -/
theorem expectedCk_eq {p : Params} {fr : Framer} (hl : total p fr.plen ≤ p.rawCap) (h4 : 4 ≤ total p fr.plen) :
    expectedCk p fr = .ok (fr.ckExpected p) := by
  have hrange : fr.raw.loadRange .raw p.rawCap 2 (total p fr.plen - 4) =
      .ok (fr.rawBytes 2 (total p fr.plen - 4)) := Memory.loadRange_of_le (by omega)
  unfold expectedCk Framer.ckExpected
  rw [hrange]
  cases hk : p.ckFn with
  | fletcher8 => rfl
  | other => simp [ckFn, hk]

/-- The verdict compares the last two bytes of a frame within `raw` with the expected ones. -/
theorem ckVerdict_eq {p : Params} {fr : Framer} (hl : total p fr.plen ≤ p.rawCap) (h4 : 4 ≤ total p fr.plen) :
    ckVerdict p fr = .ok (decide ((fr.raw.read (total p fr.plen - 2), fr.raw.read (total p fr.plen - 1)) =
      fr.ckExpected p)) := by
  rw [ckVerdict, expectedCk_eq hl h4, Memory.load_of_lt (by omega), Memory.load_of_lt (by omega)]
  simp only [Except.ok.injEq, Prod.ext_iff, Bool.decide_and]
  rfl

/-- Once the payload is in, the expected bytes are the checksum of the frame's own bytes (R82). -/
theorem Framer.ckExpected_eq {p : Params} {fr : Framer} (ha : fr.agrees p)
    (hc : total p fr.plen ≤ fr.cursor.toNat + 2) : fr.ckExpected p = ckFn p (fr.rawBytes 2 (total p fr.plen - 4)) := by
  obtain ⟨-, -, -, -, -, -, hsum⟩ := ha
  unfold Framer.ckExpected ckFn
  cases hk : p.ckFn with
  | fletcher8 =>
    have hn : fr.coveredCount p = total p fr.plen - 4 := by
      unfold Framer.coveredCount
      omega
    rw [← hn]
    exact hsum hk
  | other => rfl

/-- The verdict on a complete frame that its registers agree with is whether its checksum holds. -/
theorem ckVerdict_iff_checksumHolds {p : Params} {fr : Framer} {ok : Bool} (ha : fr.agrees p)
    (hc : fr.cursor.toNat = total p fr.plen) (hl : total p fr.plen ≤ p.rawCap) (h4 : 4 ≤ total p fr.plen)
    (hv : ckVerdict p fr = .ok ok) : ok = true ↔ fr.checksumHolds p := by
  rw [ckVerdict_eq hl h4, Framer.ckExpected_eq ha (by omega)] at hv
  cases hv
  exact decide_eq_true_iff

/-- A complete frame whose checksum holds is parsed (R90). -/
theorem applyVerdict_true (s : State) : applyPolicy true (takeVerdict true s) =
    s.setFr { s.fr with lastCkValid := true, frameReady := true, fstate := .parsing, pcur := 0 } := rfl

/-- Any other one is counted, and parsed under `ACCEPT` (R90). -/
theorem applyVerdict_accept (s : State) (h : s.params.ckPolicy = .accept) : applyPolicy false (takeVerdict false s) =
    (s.setFr { s.fr with
      lastCkValid := false, ckErrCnt := s.params.satInc s.fr.ckErrCnt
      frameReady := true, fstate := .parsing, pcur := 0 }).raise (.ckMismatch s.fr.cls s.fr.id) :=
  if_pos (.inr h)

/-- It is counted and discarded under `REJECT` (R90). -/
theorem applyVerdict_reject (s : State) (h : s.params.ckPolicy = .reject) : applyPolicy false (takeVerdict false s) =
    (s.setFr { s.fr with
      lastCkValid := false, ckErrCnt := s.params.satInc s.fr.ckErrCnt, fstate := .idle }).raise
        (.ckMismatch s.fr.cls s.fr.id) :=
  if_neg (by rw [show (takeVerdict false s).params.ckPolicy = .reject from h]; decide)

/-! The steps. -/

/-- A byte read that leads to Parsing completes a frame within `raw`, whose verdict is kept and obeyed (R89, R90). -/
theorem byteStep_parsing {c : Nat} {b : Byte} {s t : State} (h : ByteStep c b s t) (hs : s.fr.fstate = .reading)
    (ht : t.fr.fstate = .parsing) : 6 ≤ c ∧ c < s.params.rawCap ∧ c + 1 = total s.params t.fr.plen ∧
      ∃ ok, ckVerdict s.params t.fr = .ok ok ∧ t.fr.lastCkValid = ok ∧ (ok = true ∨ s.params.ckPolicy = .accept) := by
  have hne {fr : Framer} (hfr : fr.fstate = .reading) : fr.fstate ≠ .parsing := by rw [hfr]; decide
  cases h with
  | noise1 hc hb => cases ht
  | noise2 hc hb => cases ht
  | oversize hc hr hl => cases ht
  | sync1 hc hb hr => exact absurd ht (hne hs)
  | sync2 hc hb hr => exact absurd ht (hne hs)
  | takeCls hc hr => exact absurd ht (hne ((ckAcc_fstate ..).trans hs))
  | takeId hc hr => exact absurd ht (hne ((ckAcc_fstate ..).trans hs))
  | lenLo hc hr => exact absurd ht (hne ((ckAcc_fstate ..).trans hs))
  | lenHi hc hr hl => exact absurd ht (hne ((ckAcc_fstate ..).trans hs))
  | body h6 hr hn => exact absurd ht (hne ((takeBody_fstate ..).trans hs))
  | complete h6 hr hn ok hv =>
    have hlast : c + 1 = total s.params (takeBody s.params c b (s.rawSet c b)).plen := by
      rw [takeBody_plen]
      show c + 1 = total s.params s.fr.plen
      omega
    cases ok with
    | true => exact ⟨h6, hr, hlast, true, hv, rfl, .inl rfl⟩
    | false =>
      cases hpolicy : s.params.ckPolicy with
      | accept =>
        rw [applyVerdict_accept _ (by exact hpolicy)]
        exact ⟨h6, hr, hlast, false, hv, rfl, .inr rfl⟩
      | reject =>
        rw [applyVerdict_reject _ (by exact hpolicy)] at ht
        cases ht

theorem frameInv_of_idle {s : State} (h : s.fr.fstate = .idle) : s.frameInv := by
  constructor <;> intro hs <;> rw [h] at hs <;> cases hs

/-- With no byte accepted and the sums at 0 there is nothing to disagree with (R80). -/
theorem agrees_of_start {p : Params} {fr : Framer} (hc : fr.cursor = 0) (hs : (fr.ckA, fr.ckB) = (0, 0)) :
    fr.agrees p := by
  simp [Framer.agrees, hc, hs, Framer.coveredCount, Framer.rawBytes, fletcher8]

/-- A byte read keeps the agreement (R83 to R90). -/
theorem byteStep_frameInv {c : Nat} {b : Byte} {s t : State} (h : ByteStep c b s t) (hw : s.params.wf = true)
    (h8 : 8 ≤ s.params.hdrLen + s.params.ckLen) (hs : s.fr.fstate = .reading) (hc : s.fr.cursor.toNat = c)
    (ha : s.fr.agrees s.params) : t.frameInv := by
  rcases byteStep_takes h hw with hidle | htakes
  · exact frameInv_of_idle hidle
  have ha' := htakes.agrees h8 hc ha
  obtain ⟨hp, -⟩ := byteStep_history h
  unfold State.frameInv
  rw [hp]
  refine ⟨fun _ => ha', fun hpars => ?_⟩
  obtain ⟨h6, hr, hlast, ok, hv, hvalid, hpolicy⟩ := byteStep_parsing h hs hpars
  refine ⟨ha', ?_, fun hrej => ?_⟩
  · rw [hvalid]
    exact ckVerdict_iff_checksumHolds ha' (htakes.cursor.trans hlast) (by omega) (by omega) hv
  · rw [hvalid]
    exact hpolicy.resolve_right (by rw [hrej]; decide)

/-- Every poll keeps the agreement: but for the byte read, it starts a frame, ends it, or moves the parse cursor. -/
theorem pollStep_frameInv {s t : State} (h : PollStep s t) (hw : s.params.wf = true)
    (h8 : 8 ≤ s.params.hdrLen + s.params.ckLen) (hf : s.frameInv) : t.frameInv := by
  cases h with
  | start h ho => exact ⟨fun _ => agrees_of_start rfl rfl, nofun⟩
  | byte h ho hf' hh t hb => exact byteStep_frameInv (s := s.popped) hb hw h8 h rfl (hf.1 h)
  | done h hl => exact frameInv_of_idle rfl
  | _ => exact hf

/-- Settles O45: a poll keeps the agreement, RESET leaves no frame, and no other step touches the framer. -/
theorem stepKeepsFrameAgreement : Obligations.StepKeepsFrameAgreement := by
  intro s t hi h8 hf h
  obtain ⟨hw, ⟨-, rfl⟩ | ⟨lost, rest, -, rfl⟩ | ⟨c, rest, i, -, -, -, he⟩ | ⟨c, rest, i, -, -, -, rfl⟩ |
    ⟨c, rest, e, -, -, rfl⟩⟩ := step_cases h
  · exact hf
  · exact frameInv_of_idle rfl
  · by_cases hpoll : i = .poll
    · subst hpoll
      obtain ⟨u, hu, rfl⟩ := pollEffect_step he
      have hinv : u.frameInv := pollStep_frameInv hu hw h8 hf
      exact hinv
    · obtain ⟨hfr, -, hp, -⟩ := effectOf_keeps hpoll he
      unfold State.frameInv
      rw [hfr, hp]
      exact hf
  · exact hf
  · exact hf

end Sys2Proof.Machine
end

section
/-! PROOFS. One poll on `HOST`, byte by byte (R79 to R90): its whole next state is the step that `PollStep` allows, with the
response given. -/

namespace Sys2Proof.Machine

/-- A poll on `HOST` goes as its step says (R55, R79). -/
theorem exec_poll_of_step {s t : State} (hw : s.params.wf = true) (hp : s.port = .host) (h : PollStep s t) :
    exec .poll s = .next (t.respond true 0) :=
  exec_of_effect hw hp (pollEffect_iff.2 ⟨t, h, rfl⟩)

/-- A poll that takes a byte goes as that byte says (R81). -/
theorem exec_poll_of_byteStep {s t : State} {c : Nat} (h : s.takesByte) (hc : s.fr.cursor.toNat = c)
    (hb : ByteStep c s.nextByte s.popped t) : exec .poll s = .next (t.respond true 0) :=
  exec_poll_of_byte h hc (readByte_of_step hb)

/-- `head` moves on by one mod `N` (R65). -/
theorem popped_eq {s : State} (h : s.takesByte) :
    s.popped = { s with rx := { s.rx with head := (s.rx.head + 1) % s.params.rxN } } := by
  obtain ⟨-, -, -, -, -, hh⟩ := h
  rw [State.popped, incN_eq_mod hh]
  rfl

/-- The state after a byte is taken and the response given. -/
theorem respond_popped {s : State} (h : s.takesByte) (fr : Framer) :
    (s.popped.setFr fr).respond true 0 = s.polled fr := by
  rw [popped_eq h]
  rfl

/-- A byte that ends in another framer and changes nothing else. -/
theorem exec_poll_takes {s : State} {c : Nat} {fr : Framer} (h : s.takesByte) (hc : s.fr.cursor.toNat = c)
    (hb : ByteStep c s.nextByte s.popped (s.popped.setFr fr)) : exec .poll s = .next (s.polled fr) := by
  rw [exec_poll_of_byteStep h hc hb, respond_popped h]

/-- A byte that also raises a condition. -/
theorem exec_poll_raises {s : State} {c : Nat} {fr : Framer} {x : Condition} (h : s.takesByte)
    (hc : s.fr.cursor.toNat = c) (hb : ByteStep c s.nextByte s.popped ((s.popped.setFr fr).raise x)) :
    exec .poll s = .next { s.polled fr with history := s.history ++ [.cond x] } := by
  rw [exec_poll_of_byteStep h hc hb, ← respond_popped h]
  rfl

/-- Settles O30: the two ways of `POLL_IDLE`. -/
theorem pollInIdle : Obligations.PollInIdle :=
  fun _ hw hp hs => ⟨fun ho => exec_poll_of_step hw hp (.start hs ho), fun ho => exec_poll_of_step hw hp (.quiet hs ho)⟩

/-- Settles O31. -/
theorem pollWaitsForByte : Obligations.PollWaitsForByte :=
  fun _ hw hp hs ho => exec_poll_of_step hw hp (.wait hs ho)

/-- Settles O32: `READ_SYNC1`. -/
theorem pollReadsSync1 : Obligations.PollReadsSync1 := by
  intro s h hc
  have hcur : s.fr.cursor.toNat = 0 := congrArg BitVec.toNat hc
  exact ⟨fun hb => exec_poll_raises h hcur (.noise1 rfl hb), fun hb hr => exec_poll_takes h hcur (.sync1 rfl hb hr)⟩

/-- Settles O33: `READ_SYNC2`. -/
theorem pollReadsSync2 : Obligations.PollReadsSync2 := by
  intro s h hc
  have hcur : s.fr.cursor.toNat = 1 := congrArg BitVec.toNat hc
  refine ⟨fun hb => exec_poll_raises h hcur (.noise2 rfl hb), fun hb hr => ?_⟩
  rw [exec_poll_of_byteStep h hcur (.sync2 rfl hb hr), popped_eq h]
  rfl

/-- Settles O34: `READ_CLASS`, `READ_ID` and `READ_LEN_LO`, each with `CK_ACC`. -/
theorem pollReadsHeader : Obligations.PollReadsHeader := by
  intro s h
  refine ⟨fun hc hr => ?_, fun hc hr => ?_, fun hc hr => ?_⟩ <;>
    refine exec_poll_takes h (congrArg BitVec.toNat hc) ?_
  · have hb := ByteStep.takeCls (b := s.nextByte) (s := s.popped) rfl hr
    rwa [takeClass, ckAcc_sumsWith] at hb
  · have hb := ByteStep.takeId (b := s.nextByte) (s := s.popped) rfl hr
    rwa [Machine.takeId, ckAcc_sumsWith] at hb
  · have hb := ByteStep.lenLo (b := s.nextByte) (s := s.popped) rfl hr
    rwa [takeLenLo, ckAcc_sumsWith] at hb

/-- `{b, plen[7:0]}` (R36, R88). -/
theorem withHighByte_eq (plen : BitVec 16) (b : Byte) : withHighByte plen b = b ++ plen.extractLsb' 0 8 := by
  rw [withHighByte, BitVec.setWidth_eq_extractLsb' (by decide)]

/-- Settles O35: `READ_LEN_HI`, whose length is checked without wrap. -/
theorem pollBoundsLength : Obligations.PollBoundsLength := by
  intro s fr h hc hr hfr
  have hcur : s.fr.cursor.toNat = 5 := congrArg BitVec.toNat hc
  rw [← withHighByte_eq] at hfr
  have htake : takeLenHi s.popped.params s.nextByte (s.popped.rawSet 5 s.nextByte) = fr := by
    rw [takeLenHi, ckAcc_sumsWith, hfr]
    rfl
  subst hfr
  refine ⟨fun hl => exec_poll_raises h hcur ?_, fun hl => exec_poll_takes h hcur ?_⟩
  · have hb := ByteStep.oversize (b := s.nextByte) (s := s.popped) rfl hr hl
    rw [htake] at hb
    exact hb
  · have hb := ByteStep.lenHi (b := s.nextByte) (s := s.popped) rfl hr hl
    rwa [htake] at hb

/-- Settles O36: `READ_BODY` before the last byte. -/
theorem pollReadsBody : Obligations.PollReadsBody := by
  intro s c h hc h6 hr hn
  have hn' : c ≠ total s.params s.fr.plen - 1 := by omega
  have hb := ByteStep.body (b := s.nextByte) (s := s.popped) h6 hr hn'
  refine ⟨fun hcov => exec_poll_takes h hc ?_, fun hcov => exec_poll_takes h hc ?_⟩
  · rw [takeBody_of_covered h6 (by exact hcov)] at hb
    exact hb
  · rw [takeBody_of_not_covered h6 (by exact hcov)] at hb
    exact hb

/-- The verdict on a frame completed by byte `b`: `b` and the byte before it against the expected bytes (R90). -/
theorem ckVerdict_of_last {p : Params} {fr : Framer} {c : Nat} {b : Byte} {cur : BitVec 8} (h6 : 6 ≤ c)
    (hr : c < p.rawCap) (hn : c + 1 = total p fr.plen) :
    ckVerdict p { fr with raw := fr.raw.write c b, cursor := cur } =
      .ok (decide ((fr.raw.read (c - 1), b) = fr.ckExpected p)) := by
  have hbytes : Framer.rawBytes { fr with raw := fr.raw.write c b, cursor := cur } 2 (total p fr.plen - 4) =
      fr.rawBytes 2 (total p fr.plen - 4) := by
    refine Framer.rawBytes_congr fun j hj => ?_
    rw [Memory.read_write, if_neg (by omega)]
  have hexp : Framer.ckExpected p { fr with raw := fr.raw.write c b, cursor := cur } = fr.ckExpected p := by
    unfold Framer.ckExpected
    rw [hbytes]
  rw [ckVerdict_eq (by show total p fr.plen ≤ _; omega) (by show 4 ≤ total p fr.plen; omega), hexp,
    show total p fr.plen - 2 = c - 1 by omega, show total p fr.plen - 1 = c by omega]
  simp [show c - 1 ≠ c by omega]

/-- Settles O37: `READ_BODY` and `FRAME_COMPLETE`, in the three ways that the verdict and the policy go. -/
theorem pollCompletesFrame : Obligations.PollCompletesFrame := by
  intro s c fr h hc h6 hr hn hfr
  have htake : takeBody s.popped.params c s.nextByte (s.popped.rawSet c s.nextByte) = fr := by
    rw [takeBody_of_not_covered h6 (by show total s.params s.fr.plen < c + 3; omega), hfr]
    rfl
  have hv : ckVerdict s.params fr = .ok (decide ((s.fr.raw.read (c - 1), s.nextByte) = s.fr.ckExpected s.params)) := by
    rw [hfr]
    exact ckVerdict_of_last h6 hr hn
  have hb := ByteStep.complete (b := s.nextByte) (s := s.popped) h6 hr (Nat.eq_sub_of_add_eq hn) _ (htake ▸ hv)
  rw [htake] at hb
  subst hfr
  refine ⟨fun hck => exec_poll_takes h hc ?_, fun hck hrej => exec_poll_raises h hc ?_,
    fun hck hacc => exec_poll_raises h hc ?_⟩
  · rwa [decide_eq_true hck, applyVerdict_true] at hb
  · rwa [decide_eq_false hck, applyVerdict_reject _ (by exact hrej)] at hb
  · rwa [decide_eq_false hck, applyVerdict_accept _ (by exact hacc)] at hb

end Sys2Proof.Machine
end

section
/-! PROOFS. What a poll, and a step, can do to the telemetry and to the link (R84, R90, R92, R94, R107). -/

namespace Sys2Proof.Machine

/-- A poll changes at most one telemetry register (R92, R98). -/
theorem pollStep_tel_one {s t : State} (h : PollStep s t) : ∃ d, ∀ d', d' ≠ d → t.tel.value d' = s.tel.value d' := by
  rcases pollStep_tel h with e | ⟨-, row, v, -, -, e⟩ <;> rw [e]
  · exact ⟨.lon, fun _ _ => rfl⟩
  · exact ⟨row.dest, fun d hd => apply_value_of_ne hd v s.tel⟩

/-- A poll raises at most one condition (R92). -/
theorem pollStep_conditions {s t : State} (h : PollStep s t) :
    ∃ es, t.history = s.history ++ es ∧ es.countP Event.isCondition ≤ 1 := by
  cases pollStep_event h with
  | none hp hh hc hf hk => exact ⟨[], by rw [hh, List.append_nil], Nat.zero_le 1⟩
  | one e hp hh hc hf hk => exact ⟨[e], hh, List.countP_le_length⟩

/-- Settles O41: what each part of the state owes to one poll step. -/
theorem pollWorkIsBounded : Obligations.PollWorkIsBounded := by
  refine ⟨fun s hi => ?_, fun s t hp h => ?_⟩
  · obtain ⟨u, hu⟩ := exists_pollStep hi
    by_cases hp : s.port = .host
    · exact ⟨_, exec_poll_of_step hi.1 hp hu⟩
    · exact ⟨_, exec_of_other_port hi.1 hp⟩
  · obtain ⟨-, ⟨-, h⟩ | ⟨hne, -⟩⟩ := exec_next.1 h
    · obtain ⟨u, hu, rfl⟩ := pollEffect_step h
      obtain ⟨hpar, htx, hport, hin, -⟩ := pollStep_history hu
      obtain ⟨d, htel⟩ := pollStep_tel_one hu
      obtain ⟨es, hcond⟩ := pollStep_conditions hu
      refine ⟨?_, fun a ha => ?_, ⟨d, htel⟩, ⟨es, hcond⟩, htx, hpar, hport, hin⟩
      · exact (pollStep_rx hu).imp_right fun ⟨ho, hh, e⟩ => ⟨ho, by rw [← incN_eq_mod hh]; exact e⟩
      · rcases pollStep_raw hu with e | ⟨-, e⟩
        · exact congrArg (Memory.read · a) e
        · exact (congrArg (Memory.read · a) e).trans (by rw [Memory.read_write, if_neg ha])
    · exact absurd hp hne

/-- Settles O47: telemetry is written in Parsing alone, where under `REJECT` the frame's checksum holds. -/
theorem rejectedFramesWriteNoTelemetry : Obligations.RejectedFramesWriteNoTelemetry := by
  intro s t _ hf hrej h hr htel
  obtain ⟨-, hs, -⟩ := (step_tel h hr).resolve_left htel
  obtain ⟨ha, hvalid, hpolicy⟩ := hf.2 hs
  exact ⟨hvalid.1 (hpolicy hrej), ha⟩

/-- The three things a step can do to the link: leave it, set it by a valid sync pair, or clear it by RESET or an expiry
while armed (R84, R107, R124). -/
theorem step_conn {s t : State} (h : step s = .next t) : t.conn = s.conn ∨
    ((∃ rest, s.input = .cmd ⟨.host, 0x6000⟩ :: rest) ∧ s.fr.fstate = .reading ∧ s.fr.cursor = 1 ∧
      s.nextByte = s.params.sync2 ∧ t.conn = ⟨true, true⟩ ∧ t.history = s.history ++ [.arm s.params.wdTimeoutMs]) ∨
    ((∃ lost rest, s.input = .reset lost :: rest) ∧ t.conn = ⟨false, false⟩) ∨
    ((∃ rest, s.input = .cmd ⟨.timer, 0x8000⟩ :: rest) ∧ s.conn.wdArmed = true ∧ t.conn = ⟨false, false⟩ ∧
      t.history = s.history ++ [.cond .disconnected]) := by
  obtain ⟨-, ⟨-, rfl⟩ | ⟨lost, rest, hi, rfl⟩ | ⟨c, rest, i, hi, hd, hp, he⟩ | ⟨c, rest, i, -, -, -, rfl⟩ |
    ⟨c, rest, e, -, -, rfl⟩⟩ := step_cases h
  · exact .inl rfl
  · exact .inr (.inr (.inl ⟨⟨lost, rest, hi⟩, rfl⟩))
  · by_cases hpoll : i = .poll
    · subst hpoll
      obtain ⟨u, hu, rfl⟩ := pollEffect_step he
      obtain ⟨-, -, -, -, ⟨hc, -⟩ | ⟨x, hc, -⟩ | ⟨hs, hcur, hb, hc, hh, -⟩⟩ := pollStep_history hu
      · exact .inl hc
      · exact .inl hc
      · rw [command_of_poll hd hp] at hi
        exact .inr (.inl ⟨⟨rest, hi⟩, hs, hcur, hb, hc, hh⟩)
    · rcases effectOf_history hpoll he (encode_of_decode hd).1 with ⟨hc, -⟩ | ⟨b, -, hc, -⟩ | ⟨b, -, hc, -⟩ |
        ⟨rfl, harm, hc, hh⟩
      · exact .inl hc
      · exact .inl hc
      · exact .inl hc
      · rw [command_of_decode hd hp] at hi
        exact .inr (.inr (.inr ⟨⟨rest, hi⟩, harm, hc, hh⟩))
  · exact .inl rfl
  · exact .inl rfl

/-- Settles O50: of the things a step can do to the link, one sets it and two clear it. -/
theorem connectionChangesOnlyBySyncOrExpiry : Obligations.ConnectionChangesOnlyBySyncOrExpiry := by
  intro s t h
  rcases step_conn h with hc | ⟨hi, hs, hcur, hb, hc, hh⟩ | ⟨hi, hc⟩ | ⟨hi, harm, hc, hh⟩ <;> rw [hc]
  · exact ⟨fun h0 h1 => absurd (h0.symm.trans h1) (by decide), fun h1 h0 => absurd (h0.symm.trans h1) (by decide)⟩
  · exact ⟨fun _ _ => ⟨hi, hs, hcur, hb, rfl, hh⟩, nofun⟩
  · exact ⟨nofun, fun _ _ => .inl hi⟩
  · exact ⟨nofun, fun _ _ => .inr ⟨hi, harm, rfl, hh⟩⟩

end Sys2Proof.Machine
end

section
/-! PROOFS. The bytes of a frame that the block accepts (R60, R61): what a framer that has stored some of them holds, and that
each of them is accepted in its place. -/

namespace Sys2Proof.Machine

/-! The bytes of a frame (R60). -/

theorem Frame.length_bytes (p : Params) (f : Frame) : (f.bytes p).length = f.payload.length + 8 := by
  simp [Frame.bytes, Frame.covered]

theorem Frame.length_covered (f : Frame) : f.covered.length = f.payload.length + 4 := rfl

theorem Frame.plen_bytes (f : Frame) : f.plen.extractLsb' 8 8 ++ f.plen.extractLsb' 0 8 = f.plen :=
  BitVec.extractLsb'_append_extractLsb' (w := 8) (len := 8)

/-- A frame that the block accepts lies within `raw`, and its length is that of its bytes (R22, R61). -/
theorem Frame.fits_total {p : Params} {f : Frame} (hw : p.wf = true) (hfit : f.fits p = true) :
    f.plen.toNat = f.payload.length ∧ total p f.plen = (f.bytes p).length ∧ (f.bytes p).length ≤ p.rawCap ∧
      8 ≤ p.hdrLen + p.ckLen := by
  obtain ⟨-, -, hcap, h255, -⟩ := Params.wf_iff.1 hw
  simp only [Frame.fits, Bool.and_eq_true, decide_eq_true_eq] at hfit
  obtain ⟨⟨hhdr, hck⟩, hlen⟩ := hfit
  unfold Params.maxPlen at hlen
  have hplen : f.plen.toNat = f.payload.length := by
    rw [Frame.plen, BitVec.toNat_ofNat, Nat.mod_eq_of_lt (by omega)]
  rw [total, hplen, Frame.length_bytes]
  omega

theorem Framer.rawBytes_add (fr : Framer) (i m n : Nat) :
    fr.rawBytes i (m + n) = fr.rawBytes i m ++ fr.rawBytes (i + m) n := by
  simp [Framer.rawBytes, List.range_add, Nat.add_assoc]

@[simp] theorem Framer.length_rawBytes (fr : Framer) (i n : Nat) : (fr.rawBytes i n).length = n := by
  simp [Framer.rawBytes]

/-- A byte accepted at cursor `c` is the next of the bytes stored. -/
theorem Framer.Takes.rawBytes {p : Params} {c : Nat} {b : Byte} {fr fr' : Framer} (h : fr.Takes p c b fr') :
    fr'.rawBytes 0 (c + 1) = fr.rawBytes 0 c ++ [b] := by
  rw [Framer.rawBytes_succ, Nat.zero_add, h.read_self,
    Framer.rawBytes_congr fun j hj => h.read_of_lt (by omega)]

section
variable {p : Params} {f : Frame} {fr : Framer} {b : Byte} {q rest : List Byte} {k : Nat}

/-- The class, the id and the length are the four bytes after the sync pair (R60). -/
theorem Frame.header_bytes {b0 b1 b2 b3 b4 b5 : Byte} (h : b0 :: b1 :: b2 :: b3 :: b4 :: b5 :: q = f.bytes p ++ rest) :
    b2 = f.cls ∧ b3 = f.id ∧ b5 ++ b4 = f.plen := by
  simp only [Frame.bytes, Frame.covered, List.cons_append, List.cons.injEq] at h
  obtain ⟨-, -, hcls, hid, hlo, hhi, -⟩ := h
  rw [hlo, hhi, Frame.plen_bytes]
  exact ⟨hcls, hid, rfl⟩

/-- Six bytes of the frame stored are its header. -/
theorem header_of_rawBytes (hk : 6 ≤ k) (h : fr.rawBytes 0 k ++ q = f.bytes p ++ rest) :
    fr.raw.read 2 = f.cls ∧ fr.raw.read 3 = f.id ∧ fr.raw.read 5 ++ fr.raw.read 4 = f.plen := by
  obtain ⟨m, rfl⟩ := Nat.exists_eq_add_of_le hk
  rw [Framer.rawBytes_add] at h
  exact Frame.header_bytes h

/-- The header registers of a framer that has stored the frame's header are the frame's. -/
theorem registers_of_rawBytes (ha : fr.agrees p) (hc : fr.cursor.toNat = k) (hk : 6 ≤ k)
    (h : fr.rawBytes 0 k ++ q = f.bytes p ++ rest) : fr.cls = f.cls ∧ fr.id = f.id ∧ fr.plen = f.plen := by
  obtain ⟨-, -, hcls, hid, -, hplen, -⟩ := ha
  obtain ⟨h2, h3, h54⟩ := header_of_rawBytes hk h
  exact ⟨(hcls (by omega)).symm.trans h2, (hid (by omega)).symm.trans h3, (hplen (by omega)).trans h54⟩

/-- The byte that follows five bytes of the frame completes its length. -/
theorem length_of_rawBytes (ha : fr.agrees p) (hc : fr.cursor.toNat = 5)
    (h : fr.rawBytes 0 5 ++ b :: q = f.bytes p ++ rest) : withHighByte fr.plen b = f.plen := by
  obtain ⟨-, -, -, -, hlow, -⟩ := ha
  obtain ⟨-, -, hplen⟩ := Frame.header_bytes h
  rw [hlow hc, withHighByte_low]
  exact hplen

/-- The last byte of the frame and the one before it are the expected ones (R60, R90). -/
theorem checksum_of_rawBytes (ha : fr.agrees p) (hc : fr.cursor.toNat = k) (hk : 6 ≤ k)
    (hlen : total p f.plen = (f.bytes p).length) (hlast : k + 1 = total p f.plen)
    (h : fr.rawBytes 0 k ++ b :: q = f.bytes p ++ rest) : (fr.raw.read (k - 1), b) = fr.ckExpected p := by
  obtain ⟨-, -, hplen⟩ := registers_of_rawBytes ha hc hk h
  rw [Frame.length_bytes] at hlen
  obtain ⟨n, rfl⟩ : ∃ n, k = 2 + n + 1 := ⟨k - 3, by omega⟩
  have hn : total p fr.plen - 4 = n := by rw [hplen]; omega
  have hcov : (fr.rawBytes 2 n).length = f.covered.length := by
    rw [Framer.length_rawBytes, Frame.length_covered]
    omega
  have hsplit : fr.rawBytes 0 2 ++ (fr.rawBytes 2 n ++ fr.raw.read (2 + n) :: b :: q) =
      [p.sync1, p.sync2] ++ (f.covered ++ (ckFn p f.covered).1 :: (ckFn p f.covered).2 :: rest) := by
    simpa [Framer.rawBytes_succ, Framer.rawBytes_add, Frame.bytes] using h
  obtain ⟨-, htail⟩ := List.append_inj hsplit (Framer.length_rawBytes fr 0 2)
  obtain ⟨hcovered, hck⟩ := List.append_inj htail hcov
  obtain ⟨ha', hck⟩ := List.cons.inj hck
  obtain ⟨hb', -⟩ := List.cons.inj hck
  rw [Framer.ckExpected_eq ha (by rw [hplen]; omega), hn, hcovered, Nat.add_sub_cancel, ha', hb']

end

/-! One byte. -/

/-- A byte that the frame's place demands is accepted: no error is counted, the second one connects (R84), and the last one
leads to Parsing (R90). -/
theorem byteStep_accepts {c : Nat} {b : Byte} {s t : State} (h : ByteStep c b s t) (hs : s.fr.fstate = .reading)
    (h0 : c = 0 → b = s.params.sync1) (h1 : c = 1 → b = s.params.sync2)
    (h5 : c = 5 → total s.params (withHighByte s.fr.plen b) ≤ s.params.rawCap)
    (hlast : 6 ≤ c → c + 1 = total s.params s.fr.plen → (s.fr.raw.read (c - 1), b) = s.fr.ckExpected s.params) :
    t.fr.feCnt = s.fr.feCnt ∧ t.fr.ckErrCnt = s.fr.ckErrCnt ∧
      t.conn = (if c = 1 then ⟨true, true⟩ else s.conn) ∧
      (6 ≤ c → c + 1 = total s.params s.fr.plen →
        t.fr.fstate = .parsing ∧ t.fr.lastCkValid = true ∧ t.fr.pcur = 0) ∧
      ((6 ≤ c → c + 1 ≠ total s.params s.fr.plen) → t.fr.fstate = .reading) := by
  cases h with
  | noise1 hc hb => exact absurd (h0 hc) hb
  | noise2 hc hb => exact absurd (h1 hc) hb
  | oversize hc hr hl => exact absurd (h5 hc) (Nat.not_le.2 hl)
  | sync1 hc hb hr => simp [hc, hs]
  | sync2 hc hb hr => simp [hc, hs]
  | takeCls hc hr => simp [hc, takeClass, hs]
  | takeId hc hr => simp [hc, Machine.takeId, hs]
  | lenLo hc hr => simp [hc, takeLenLo, hs]
  | lenHi hc hr hl => simp [hc, takeLenHi, hs]
  | body h6 hr hn =>
    rw [if_neg (by omega)]
    refine ⟨?_, ?_, rfl, fun _ _ => absurd hn (by omega), fun _ => ?_⟩ <;> rw [State.setFr_fr, takeBody_eq]
    exact hs
  | complete h6 hr hn ok hv =>
    have htotal : c + 1 = total s.params s.fr.plen := by omega
    rw [takeBody_of_not_covered h6 (by show total s.params s.fr.plen < c + 3; omega)] at hv ⊢
    rw [ckVerdict_of_last h6 hr htotal, decide_eq_true (hlast h6 htotal)] at hv
    cases hv
    rw [if_neg (by omega)]
    exact ⟨rfl, rfl, rfl, fun _ _ => ⟨rfl, rfl, rfl⟩, fun hne => absurd htotal (hne h6)⟩

end Sys2Proof.Machine
end

section
/-! PROOFS. The polls that an accepted frame takes (R93, R103). In Reading the bytes stored and the bytes still queued are the
frame and what follows it; in Parsing the parse cursor takes the offsets that `groupsFrom` counts. Each poll leaves one fewer
to come, and only the last one ends in Idle. -/

namespace Sys2Proof.Machine

/-- What stays as it was at the start `s` of a frame's polls: the configuration and the error counts. -/
structure InRun (s u : State) : Prop where
  inv : u.inv
  params : u.params = s.params
  feCnt : u.fr.feCnt = s.fr.feCnt
  ckErrCnt : u.fr.ckErrCnt = s.fr.ckErrCnt

/-- `k` bytes of frame `f` are stored, and the bytes still queued are the rest of it and what follows. -/
structure Stored (s : State) (f : Frame) (rest : List Byte) (k : Nat) (u : State) : Prop extends InRun s u where
  frame : u.frameInv
  cursor : u.fr.cursor.toNat = k
  bytes : u.fr.rawBytes 0 k ++ u.rx.queue s.params.rxN = f.bytes s.params ++ rest
  conn : 2 ≤ k → u.conn = ⟨true, true⟩

/-- Frame `f` is being read, and `k` bytes of it are stored. -/
structure Reads (s : State) (f : Frame) (rest : List Byte) (k : Nat) (u : State) : Prop extends Stored s f rest k u where
  fstate : u.fr.fstate = .reading

/-- Frame `f` has been read whole and found valid. -/
structure Accepted (s : State) (f : Frame) (rest : List Byte) (u : State) : Prop extends InRun s u where
  valid : u.fr.lastCkValid = true
  cls : u.fr.cls = f.cls
  id : u.fr.id = f.id
  plen : u.fr.plen = f.plen
  bytes : u.fr.rawBytes 0 (f.bytes s.params).length = f.bytes s.params
  queue : u.rx.queue s.params.rxN = rest
  conn : u.conn = ⟨true, true⟩

/-- Frame `f` is being parsed, and the next field group is at offset `o`. -/
structure Parses (s : State) (f : Frame) (rest : List Byte) (o : Nat) (u : State) : Prop extends Accepted s f rest u where
  fstate : u.fr.fstate = .parsing
  offset : u.fr.pcur.toNat = o

/-- Before `n` more polls of the run that began at `s`: the bytes of the frame that are still to come, then the field groups,
then the poll that finishes the frame. -/
inductive RunLeft (s : State) (f : Frame) (rest : List Byte) (n : Nat) (u : State) : Prop
  | reading (k : Nat) (hk : k < (f.bytes s.params).length)
    (hn : n = (f.bytes s.params).length - k + f.groups s.params + 1) (h : Reads s f rest k u)
  | parsing (o fuel : Nat) (hfuel : f.payload.length ≤ o + fuel)
    (hn : n = groupsFrom s.params f.cls f.id f.payload.length fuel o + 1) (h : Parses s f rest o u)
  | finished (hn : n = 0) (hs : u.fr.fstate = .idle) (h : Accepted s f rest u)

/-! One poll, issued as a command. -/

/-- A poll issued goes as its step says, on the port that accepts it (R55, R79). -/
theorem issue_poll {u v : State} (hw : u.params.wf = true) (h : PollStep (u.accept (.of .poll) u.input) v) :
    issue (.of .poll) u = .next (v.respond true 0) := by
  rw [issue_eq_runCommand, runCommand_ok (c := .of .poll) (decode_encode (i := .poll) rfl)]
  exact exec_poll_of_step hw rfl h

/-- Neither taking a command nor answering it changes what the run speaks of. -/
theorem InRun.accept {s u : State} (h : InRun s u) (c : Command) (i : List Input) : InRun s (u.accept c i) :=
  ⟨h.inv, h.params, h.feCnt, h.ckErrCnt⟩

theorem Reads.accept {s u : State} {f : Frame} {rest : List Byte} {k : Nat} (h : Reads s f rest k u) (c : Command)
    (i : List Input) : Reads s f rest k (u.accept c i) :=
  ⟨⟨h.toInRun.accept c i, h.frame, h.cursor, h.bytes, h.conn⟩, h.fstate⟩

theorem Parses.accept {s u : State} {f : Frame} {rest : List Byte} {o : Nat} (h : Parses s f rest o u) (c : Command)
    (i : List Input) : Parses s f rest o (u.accept c i) :=
  ⟨⟨h.toInRun.accept c i, h.valid, h.cls, h.id, h.plen, h.bytes, h.queue, h.conn⟩, h.fstate, h.offset⟩

/-! Reading. -/

/-- In Reading no frame is ready (R27 (b)). -/
theorem frameReady_of_reading {s : State} (hi : s.inv) (hs : s.fr.fstate = .reading) : s.fr.frameReady = false := by
  obtain ⟨-, -, -, -, -, -, -, -, -, hread, -⟩ := hi
  exact (hread hs).1

/-- While bytes of the frame are still to come there is a byte to take. -/
theorem Reads.occ_ne_zero {s u : State} {f : Frame} {rest : List Byte} {k : Nat} (h : Reads s f rest k u)
    (hk : k < (f.bytes s.params).length) : u.rx.occ u.params.rxN ≠ 0 := by
  intro h0
  have hlen := congrArg List.length h.bytes
  rw [← h.params, Ring.queue_eq_nil_iff.2 h0, List.append_nil, Framer.length_rawBytes, List.length_append, h.params] at hlen
  omega

/-- With bytes of the frame still to come, the next one is taken and stored, and the last one leads to Parsing. -/
theorem Reads.byte {s u : State} {f : Frame} {rest : List Byte} {k : Nat} (h : Reads s f rest k u)
    (hfit : f.fits s.params = true) (hk : k < (f.bytes s.params).length) :
    ∃ v, PollStep u v ∧ Stored s f rest (k + 1) (v.respond true 0) ∧
      if k + 1 = (f.bytes s.params).length then
        v.fr.fstate = .parsing ∧ v.fr.lastCkValid = true ∧ v.fr.pcur = 0
      else v.fr.fstate = .reading := by
  have ho := h.occ_ne_zero hk
  obtain ⟨⟨⟨hi, hp, hfe, hck⟩, hframe, hc, hbytes, hconn⟩, hs⟩ := h
  rw [← hp] at hfit hk hbytes ⊢
  have ⟨hw, _, ⟨_, _, hh, ht, _⟩, _⟩ := hi
  obtain ⟨hplen, hlen, hcap, h8⟩ := Frame.fits_total hw hfit
  have hT := Frame.length_bytes u.params f
  have ha := hframe.1 hs
  rw [Ring.queue_eq_cons (n := u.params.rxN) hh ht ho] at hbytes
  have htotal (h6 : 6 ≤ k) : total u.params u.fr.plen = (f.bytes u.params).length := by
    obtain ⟨-, -, e⟩ := registers_of_rawBytes ha hc h6 hbytes
    rw [e, hlen]
  obtain ⟨v, hv⟩ := exists_byteStep (s := u.popped) u.nextByte (hk.trans_le hcap) fun h6 => by
    show 4 ≤ total u.params u.fr.plen ∧ total u.params u.fr.plen ≤ u.params.rawCap
    rw [htotal h6]
    omega
  have hstep : PollStep u v := .byte hs ho (frameReady_of_reading hi hs) hh v (hc ▸ hv)
  obtain ⟨hfe', hck', hconn', hparse, hread⟩ := byteStep_accepts hv hs
    (fun h0 => by subst h0; exact (List.cons.inj hbytes).1)
    (fun h1 => by subst h1; exact (List.cons.inj (List.cons.inj hbytes).2).1)
    (fun h5 => by subst h5; exact (length_of_rawBytes ha hc hbytes).symm ▸ hlen.trans_le hcap)
    (fun h6 hlast => checksum_of_rawBytes ha hc h6 hlen (hlast.trans ((htotal h6).trans hlen.symm)) hbytes)
  have hphase : if k + 1 = (f.bytes u.params).length then
      v.fr.fstate = .parsing ∧ v.fr.lastCkValid = true ∧ v.fr.pcur = 0 else v.fr.fstate = .reading := by
    split
    · next hlast =>
      have h6 : 6 ≤ k := by omega
      exact hparse h6 (hlast.trans (htotal h6).symm)
    · next hlast => exact hread fun h6 e => hlast (e.trans (htotal h6))
  have hbusy : v.fr.fstate ≠ .idle := by
    split at hphase
    · rw [hphase.1]; decide
    · rw [hphase]; decide
  have htakes := (byteStep_takes hv hw).resolve_left hbusy
  obtain ⟨hp', -, -, hrx', -⟩ := byteStep_history hv
  have hi' : v.inv := pollStep_inv hstep hi
  have hframe' : v.frameInv := pollStep_frameInv hstep hw h8 hframe
  refine ⟨v, hstep, ⟨⟨hi', hp'.trans hp, hfe'.trans hfe, hck'.trans hck⟩, hframe', htakes.cursor, ?_, fun h2 => ?_⟩,
    hphase⟩
  · rw [State.respond_fr, State.respond_rx, htakes.rawBytes, hrx', ← hp, ← hbytes, List.append_assoc]
    rfl
  · rw [State.respond_conn, hconn']
    split
    · rfl
    · exact hconn (by omega)

/-- With all its bytes stored, the frame is accepted. -/
theorem Stored.accepted {s u : State} {f : Frame} {rest : List Byte}
    (h : Stored s f rest (f.bytes s.params).length u) (hs : u.fr.fstate = .parsing) (hv : u.fr.lastCkValid = true) :
    Accepted s f rest u := by
  obtain ⟨hbytes, hqueue⟩ := List.append_inj h.bytes (Framer.length_rawBytes _ _ _)
  have h6 : 6 ≤ (f.bytes s.params).length := by
    rw [Frame.length_bytes]
    omega
  have ha := (h.frame.2 hs).1
  rw [h.params] at ha
  obtain ⟨hcls, hid, hplen⟩ := registers_of_rawBytes ha h.cursor h6 h.bytes
  exact ⟨h.toInRun, hv, hcls, hid, hplen, hbytes, hqueue, h.conn (by omega)⟩

/-! Parsing. -/

/-- One field group moves the parse cursor to the next offset, and the framer no further (R98). -/
theorem pollStep_group {s t : State} (h : PollStep s t) (hs : s.fr.fstate = .parsing)
    (hl : s.fr.pcur.toNat < s.fr.plen.toNat) : t.params = s.params ∧ t.rx = s.rx ∧ t.conn = s.conn ∧
      t.fr = { s.fr with
        pcur := pcurOf (nextOffset s.params s.fr.cls s.fr.id s.fr.plen.toNat s.fr.pcur.toNat) } := by
  cases h with
  | start h ho => rw [hs] at h; cases h
  | quiet h ho => rw [hs] at h; cases h
  | wait h ho => rw [hs] at h; cases h
  | byte h ho hf hh t hb => rw [hs] at h; cases h
  | done h hle => exact absurd hl (Nat.not_lt.2 hle)
  | unknown h hl hk => exact ⟨rfl, rfl, rfl, by rw [nextOffset, if_neg (by rw [hk]; decide)]; rfl⟩
  | skip h hl hk he => exact ⟨rfl, rfl, rfl, by rw [nextOffset, if_pos hk, he]; rfl⟩
  | misfit h hl hk row he hwd => exact ⟨rfl, rfl, rfl, by rw [nextOffset, if_pos hk, he]; rfl⟩
  | field h hl hk row he hwd hr => exact ⟨rfl, rfl, rfl, by rw [nextOffset, if_pos hk, he]; rfl⟩

/-- A field group moves the parse cursor on, and at most three bytes past the payload (R24, R98). -/
theorem nextOffset_bounds {p : Params} (hw : p.wf = true) (cls id : Byte) {plen o : Nat} (h : o < plen) :
    o < nextOffset p cls id plen o ∧ nextOffset p cls id plen o ≤ plen + 3 := by
  obtain ⟨-, -, -, -, hskip, hskip'⟩ := Params.wf_iff.1 hw
  unfold nextOffset
  split
  · split
    · next row he =>
      have := row.width.bytes_bounds
      omega
    · omega
  · omega

/-- A poll that moves only the phase and the parse cursor leaves the frame accepted. -/
theorem Accepted.poll {s u v : State} {f : Frame} {rest : List Byte} (h : Accepted s f rest u) (hstep : PollStep u v)
    (hrx : v.rx = u.rx) (hconn : v.conn = u.conn) {st : FState} {ready : Bool} {o : BitVec 8}
    (hfr : v.fr = { u.fr with fstate := st, frameReady := ready, pcur := o }) :
    Accepted s f rest (v.respond true 0) := by
  obtain ⟨hp, -⟩ := pollStep_history hstep
  have hi : v.inv := pollStep_inv hstep h.inv
  constructor
  case toInRun =>
    refine ⟨hi, hp.trans h.params, ?_, ?_⟩ <;> rw [State.respond_fr, hfr]
    · exact h.feCnt
    · exact h.ckErrCnt
  case queue => rw [State.respond_rx, hrx, h.queue]
  case conn => rw [State.respond_conn, hconn, h.conn]
  all_goals rw [State.respond_fr, hfr]
  · exact h.valid
  · exact h.cls
  · exact h.id
  · exact h.plen
  · exact h.bytes

/-- While payload is left, a poll does the field group at the parse cursor. -/
theorem Parses.group {s u : State} {f : Frame} {rest : List Byte} {o : Nat} (h : Parses s f rest o u)
    (hlen : f.plen.toNat = f.payload.length) (hcap : f.payload.length < 248) (ho : o < f.payload.length) :
    ∃ v, PollStep u v ∧
      Parses s f rest (nextOffset s.params f.cls f.id f.payload.length o) (v.respond true 0) := by
  have hw := h.inv.1
  obtain ⟨v, hv⟩ := exists_pollStep h.inv
  obtain ⟨-, hrx, hconn, hfr⟩ := pollStep_group hv h.fstate (by rw [h.offset, h.plen, hlen]; exact ho)
  rw [h.cls, h.id, h.plen, h.offset, hlen, h.params] at hfr
  rw [h.params] at hw
  obtain ⟨-, hnext⟩ := nextOffset_bounds hw f.cls f.id ho
  refine ⟨v, hv, h.toAccepted.poll hv hrx hconn hfr, ?_, ?_⟩ <;> rw [State.respond_fr, hfr]
  · exact h.fstate
  · show (pcurOf _).toNat = _
    rw [pcurOf_of_lt (by omega), BitVec.toNat_ofNat, Nat.mod_eq_of_lt (by omega)]

/-- With the payload parsed, a poll finishes the frame (R91). -/
theorem Parses.finish {s u : State} {f : Frame} {rest : List Byte} {o : Nat} (h : Parses s f rest o u)
    (hlen : f.plen.toNat = f.payload.length) (ho : f.payload.length ≤ o) :
    ∃ v, PollStep u v ∧ v.fr.fstate = .idle ∧ Accepted s f rest (v.respond true 0) := by
  have hstep : PollStep u _ := .done h.fstate (by rw [h.offset, h.plen, hlen]; exact ho)
  exact ⟨_, hstep, rfl, h.toAccepted.poll hstep rfl rfl rfl⟩

/-! The whole run. -/

/-- No field group is left at or past the end of the payload. -/
theorem groupsFrom_of_le {p : Params} {cls id : Byte} {plen o : Nat} (h : plen ≤ o) (fuel : Nat) :
    groupsFrom p cls id plen fuel o = 0 := by
  cases fuel with
  | zero => rfl
  | succ n => exact if_pos h

theorem groupsFrom_of_lt {p : Params} {cls id : Byte} {plen o : Nat} (h : o < plen) (fuel : Nat) :
    groupsFrom p cls id plen (fuel + 1) o = groupsFrom p cls id plen fuel (nextOffset p cls id plen o) + 1 :=
  if_neg (Nat.not_le.2 h)

/-- A run with a poll left goes on by one poll. -/
theorem RunLeft.next {s u : State} {f : Frame} {rest : List Byte} {n : Nat} (hw : s.params.wf = true)
    (hfit : f.fits s.params = true) (h : RunLeft s f rest (n + 1) u) :
    ∃ v, issue (.of .poll) u = .next v ∧ RunLeft s f rest n v := by
  obtain ⟨hlen, -, hcap, -⟩ := Frame.fits_total hw hfit
  obtain ⟨-, -, -, h255, -⟩ := Params.wf_iff.1 hw
  have hT := Frame.length_bytes s.params f
  cases h with
  | reading k hk hn h =>
    obtain ⟨v, hv, hstored, hphase⟩ := (h.accept (.of .poll) u.input).byte hfit hk
    refine ⟨_, issue_poll h.inv.1 hv, ?_⟩
    split at hphase
    · next hlast =>
      obtain ⟨hs, hvalid, hpcur⟩ := hphase
      rw [hlast] at hstored
      exact .parsing 0 f.payload.length (Nat.le_add_left _ _) (by show n = f.groups s.params + 1; omega)
        ⟨hstored.accepted hs hvalid, hs, congrArg BitVec.toNat hpcur⟩
    · next hlast => exact .reading (k + 1) (by omega) (by omega) ⟨hstored, hphase⟩
  | parsing o fuel hfuel hn h =>
    have hu := h.accept (.of .poll) u.input
    rcases Nat.lt_or_ge o f.payload.length with ho | ho
    · obtain ⟨v, hv, hnext⟩ := hu.group hlen (by omega) ho
      obtain ⟨fuel, rfl⟩ : ∃ m, fuel = m + 1 := ⟨fuel - 1, by omega⟩
      rw [groupsFrom_of_lt ho] at hn
      obtain ⟨hmove, -⟩ := nextOffset_bounds hw f.cls f.id ho
      exact ⟨_, issue_poll h.inv.1 hv, .parsing _ fuel (by omega) (by omega) hnext⟩
    · obtain ⟨v, hv, hs, hdone⟩ := hu.finish hlen ho
      rw [groupsFrom_of_le ho] at hn
      exact ⟨_, issue_poll h.inv.1 hv, .finished (by omega) hs hdone⟩
  | finished hn hs h => cases hn

/-- The first of several polls. -/
theorem polls_succ {u v : State} (h : issue (.of .poll) u = .next v) (n : Nat) : polls (n + 1) u = polls n v := by
  rw [polls, h]

/-- A run goes on by any number of the polls it has left. -/
theorem RunLeft.run {s u : State} {f : Frame} {rest : List Byte} (hw : s.params.wf = true)
    (hfit : f.fits s.params = true) {k n : Nat} (h : RunLeft s f rest (k + n) u) :
    ∃ v, polls k u = some v ∧ RunLeft s f rest n v := by
  induction k generalizing u with
  | zero => exact ⟨u, rfl, by rwa [Nat.zero_add] at h⟩
  | succ k ih =>
    rw [Nat.add_right_comm] at h
    obtain ⟨t, ht, hrun⟩ := h.next hw hfit
    rw [polls_succ ht]
    exact ih hrun

/-- A run with no poll left has ended, and its frame was accepted. -/
theorem RunLeft.ended {s u : State} {f : Frame} {rest : List Byte} (h : RunLeft s f rest 0 u) :
    u.fr.fstate = .idle ∧ Accepted s f rest u := by
  cases h with
  | reading k hk hn h => cases hn
  | parsing o fuel hfuel hn h => cases hn
  | finished hn hs h => exact ⟨hs, h⟩

/-- A run with a poll left is not in Idle. -/
theorem RunLeft.busy {s u : State} {f : Frame} {rest : List Byte} {n : Nat} (hn : 0 < n) (h : RunLeft s f rest n u) :
    u.fr.fstate ≠ .idle := by
  cases h with
  | reading k hk _ h => rw [h.fstate]; decide
  | parsing o fuel hfuel _ h => rw [h.fstate]; decide
  | finished h0 hs h => omega

/-- The first poll starts the frame and takes no byte of it (R80). -/
theorem RunLeft.start {s : State} {f : Frame} {rest : List Byte} (hi : s.inv) (hs : s.fr.fstate = .idle)
    (hfit : f.fits s.params = true) (hq : s.rx.queue s.params.rxN = f.bytes s.params ++ rest) :
    ∃ v, issue (.of .poll) s = .next v ∧ RunLeft s f rest ((f.bytes s.params).length + f.groups s.params + 1) v := by
  obtain ⟨-, -, -, h8⟩ := Frame.fits_total hi.1 hfit
  have hT := Frame.length_bytes s.params f
  have ho : 0 < s.rx.occ s.params.rxN := by
    rw [← Ring.length_queue, hq, List.length_append]
    omega
  have hstep := PollStep.start (s := s.accept (.of .poll) s.input) hs ho
  have hi' := pollStep_inv hstep hi
  have hframe := pollStep_frameInv hstep hi.1 h8 (frameInv_of_idle hs)
  exact ⟨_, issue_poll hi.1 hstep,
    .reading 0 (by omega) rfl ⟨⟨⟨hi', rfl, rfl, rfl⟩, hframe, rfl, hq, fun h2 => absurd h2 (by decide)⟩, rfl⟩⟩

/-- Settles O54: after the poll that starts the frame, `T` polls read it, `G` parse it, and one finishes it. -/
theorem acceptedFramePollCount : Obligations.AcceptedFramePollCount := by
  intro s f rest hi hs hfit hq
  obtain ⟨v, hv, hrun⟩ := RunLeft.start hi hs hfit hq
  have hcount : f.polls s.params = (f.bytes s.params).length + f.groups s.params + 1 + 1 := rfl
  refine ⟨?_, fun k hk hlt => ?_⟩
  · obtain ⟨t, ht, hrest⟩ := RunLeft.run (n := 0) hi.1 hfit hrun
    obtain ⟨hidle, h⟩ := hrest.ended
    refine ⟨t, ?_, hidle, h.queue, h.valid, h.cls, h.id, h.plen, h.conn, h.feCnt, h.ckErrCnt⟩
    rw [hcount, polls_succ hv, ht]
  · obtain ⟨k, rfl⟩ : ∃ j, k = j + 1 := ⟨k - 1, by omega⟩
    obtain ⟨n, hn⟩ : ∃ n, f.polls s.params = k + 1 + (n + 1) := ⟨f.polls s.params - (k + 2), by omega⟩
    rw [show (f.bytes s.params).length + f.groups s.params + 1 = k + (n + 1) by omega] at hrun
    obtain ⟨t, ht, hrest⟩ := hrun.run hi.1 hfit
    exact ⟨t, by rw [polls_succ hv, ht], hrest.busy (Nat.succ_pos n)⟩

end Sys2Proof.Machine
end

section
/-! PROOFS. The field table and its two lookups (R62, R97). -/

namespace Sys2Proof

/-- `entry` answers the rows of the table, each at its own class, id and offset (R97). -/
theorem entry_eq_some_iff {cls id : Byte} {o : Nat} {row : FieldRow} : entry cls id o = some row ↔
    row.cls = cls ∧ row.id = id ∧ row.offset = o ∧ row ∈ fieldTable := by
  constructor
  · intro h
    obtain ⟨hmem, hcls, hid, ho⟩ := entry_some h
    exact ⟨hcls, hid, ho, hmem⟩
  · have hrows : ∀ r ∈ fieldTable, entry r.cls r.id r.offset = some r := by decide
    rintro ⟨rfl, rfl, rfl, hmem⟩
    exact hrows row hmem

/-- A message is known when the table has a row of its class and id (R97). -/
theorem known_iff {cls id : Byte} : known cls id = true ↔ ∃ row ∈ fieldTable, row.cls = cls ∧ row.id = id := by
  simp [known]

end Sys2Proof

namespace Sys2Proof.Machine

/-- Settles O40: `entry` and `known` speak of the rows of the table, and the table is the list of these seven. -/
theorem fieldTableRows : Obligations.FieldTableRows := by
  refine ⟨fun cls id o row => ?_, fun cls id => ?_⟩
  · simp only [entry_eq_some_iff, fieldTable, List.mem_cons, List.not_mem_nil, or_false]
  · rw [known_iff]
    constructor
    · have hrows : ∀ row ∈ fieldTable, row.cls = 0x01 ∧ (row.id = 0x02 ∨ row.id = 0x03 ∨ row.id = 0x12) := by decide
      rintro ⟨row, hmem, rfl, rfl⟩
      exact hrows row hmem
    · rintro ⟨rfl, rfl | rfl | rfl⟩ <;> decide

end Sys2Proof.Machine
end

section
/-! PROOFS. The polls in Parsing that decode nothing (R91, R98, R100, R101, R102): each is a case of `PollStep`, and the parse
cursor takes the new offset where its 8 bits hold it. -/

namespace Sys2Proof

/-- An offset that fits is the parse cursor's value (R24, R98). -/
theorem pcurOf_toNat {v : Nat} (h : v < 256) : (pcurOf v).toNat = v := by
  rw [pcurOf_of_lt h, BitVec.toNat_ofNat, Nat.mod_eq_of_lt h]

/-- A parse cursor moved on by `w` bytes, where the new offset fits (R98). -/
theorem pcurOf_add {c : BitVec 8} {w : Nat} (h : c.toNat + w < 256) : pcurOf (c.toNat + w) = c + BitVec.ofNat 8 w := by
  rw [pcurOf_of_lt h, BitVec.ofNat_add, BitVec.ofNat_toNat, BitVec.setWidth_eq]

/-- A parse cursor moved to the end of a payload that fits (R98). -/
theorem pcurOf_plen {plen : BitVec 16} (h : plen.toNat < 256) : pcurOf plen.toNat = plen.setWidth 8 := by
  rw [pcurOf_of_lt h, BitVec.ofNat_toNat]

end Sys2Proof

namespace Sys2Proof.Machine

/-- Settles O57: the cases `unknown`, `skip` and `misfit` of `PollStep`, which ask nothing of the state. -/
theorem parsingMovesOnInEveryState : Obligations.ParsingMovesOnInEveryState := by
  intro s hw hp hs hl
  refine ⟨fun hk => ?_, fun hk he => ?_, fun row he hwd => ?_⟩
  · exact ⟨_, exec_poll_of_step hw hp (.unknown hs hl hk), pcurOf_toNat⟩
  · exact ⟨pcurOf (s.fr.pcur.toNat + s.params.skipW), exec_poll_of_step hw hp (.skip hs hl hk he), pcurOf_toNat⟩
  · exact ⟨pcurOf (s.fr.pcur.toNat + row.width.bytes),
      exec_poll_of_step hw hp (.misfit hs hl (known_of_entry he) row he hwd), pcurOf_toNat⟩

/-- In Parsing, from every state of the invariant, the payload ends at least seven bytes before the end of `raw` (R27 (c)). -/
theorem plen_le_of_parsing {s : State} (hi : s.inv) (hs : s.fr.fstate = .parsing) : s.fr.plen.toNat ≤ 248 := by
  obtain ⟨hw, hend, -, -, -, -, -, -, -, -, hparse⟩ := hi
  obtain ⟨-, -, hl, -⟩ := hparse hs
  obtain ⟨-, -, -, h255, -⟩ := Params.wf_iff.1 hw
  have ht := (plen_le_maxPlen_iff hw _).1 hl
  unfold total at ht
  omega

/-- Settles O38: the same three cases and `done`, where the invariant keeps every new offset below 256. -/
theorem pollParsesWithoutDecoding : Obligations.PollParsesWithoutDecoding := by
  intro s hi hp hs
  have hw := hi.1
  have hplen := plen_le_of_parsing hi hs
  refine ⟨fun hl => exec_poll_of_step hw hp (.done hs hl), fun hl hk => ?_, fun hl hk he => ?_, fun row hl he hwd => ?_⟩
  · rw [← pcurOf_plen (by omega)]
    exact exec_poll_of_step hw hp (.unknown hs hl hk)
  · obtain ⟨-, -, -, -, -, hskip⟩ := Params.wf_iff.1 hw
    rw [← pcurOf_add (by omega)]
    exact exec_poll_of_step hw hp (.skip hs hl hk he)
  · have hwidth := row.width.bytes_bounds
    rw [← pcurOf_add (by omega)]
    exact exec_poll_of_step hw hp (.misfit hs hl (known_of_entry he) row he hwd)

end Sys2Proof.Machine
end

section
/-! PROOFS. The round trip of a position frame (R100, R104, R105): at each parse cursor the fields that begin
before it are written and nothing else is, along the run of polls that an accepted frame takes. -/

namespace Sys2Proof.Machine

/-! The payload bytes in `raw`. -/

/-- A stretch of the first `m` bytes of `raw`. -/
theorem Framer.rawBytes_eq_drop_take (fr : Framer) {i n m : Nat} (h : i + n ≤ m) :
    fr.rawBytes i n = ((fr.rawBytes 0 m).drop i).take n := by
  obtain ⟨k, rfl⟩ := Nat.exists_eq_add_of_le h
  rw [Framer.rawBytes_add, Framer.rawBytes_add, List.append_assoc, Nat.zero_add,
    List.drop_left' (Framer.length_rawBytes fr 0 i), List.take_left' (Framer.length_rawBytes fr i n)]

/-- The payload follows the six header bytes of a frame (R60). -/
theorem Frame.payload_of_bytes (p : Params) (f : Frame) {o n : Nat} (h : o + n ≤ f.payload.length) :
    ((f.bytes p).drop (6 + o)).take n = (f.payload.drop o).take n := by
  rw [← List.drop_drop]
  show ((f.payload ++ _).drop o).take n = _
  rw [List.drop_append_of_le_length (by omega), List.take_append_of_le_length (by rw [List.length_drop]; omega)]

/-- In a frame accepted, the bytes at a payload offset are the payload's (R98). -/
theorem Accepted.payload_bytes {s u : State} {f : Frame} {rest : List Byte} (h : Accepted s f rest u)
    (hhdr : s.params.hdrLen = 6) {o n : Nat} (ho : o + n ≤ f.payload.length) :
    u.fr.rawBytes (u.params.hdrLen + o) n = (f.payload.drop o).take n := by
  rw [h.params, hhdr, u.fr.rawBytes_eq_drop_take (m := (f.bytes s.params).length), h.bytes, f.payload_of_bytes _ ho]
  rw [Frame.length_bytes]
  omega

/-! The telemetry of a position frame (R62). -/

/-- A position frame that holds all three fields, and a skip width that reaches each of them (R100, R105). -/
structure PositionFrame (p : Params) (f : Frame) : Prop where
  fits : f.fits p = true
  cls : f.cls = 0x01
  id : f.id = 0x02
  long : 20 ≤ f.payload.length
  skip : p.skipW ∣ 4

theorem PositionFrame.hdrLen {p : Params} {f : Frame} (h : PositionFrame p f) : p.hdrLen = 6 := by
  have hfit := h.fits
  simp only [Frame.fits, Bool.and_eq_true, decide_eq_true_eq] at hfit
  exact hfit.1.1

/-- The rows of the position message (R62). -/
theorem entry_position {o : Nat} {row : FieldRow} (h : entry 0x01 0x02 o = some row) :
    (o = 4 ∧ row = ⟨0x01, 0x02, 4, .four, .lon, false⟩) ∨ (o = 8 ∧ row = ⟨0x01, 0x02, 8, .four, .lat, false⟩) ∨
      (o = 16 ∧ row = ⟨0x01, 0x02, 16, .four, .alt, true⟩) := by
  obtain ⟨hmem, hcls, hid, rfl⟩ := entry_some h
  clear h
  revert row
  decide

/-- The fields of the position message are aligned, have four bytes each, and end within 20 bytes (R62). -/
theorem entry_position_bounds {o : Nat} {row : FieldRow} (h : entry 0x01 0x02 o = some row) :
    4 ∣ o ∧ row.width.bytes = 4 ∧ o + 4 ≤ 20 := by
  rcases entry_position h with ⟨rfl, rfl⟩ | ⟨rfl, rfl⟩ | ⟨rfl, rfl⟩ <;> decide

/-- The field of four bytes at payload offset `o`. -/
def Frame.field (f : Frame) (o : Nat) : Data := leWord ((f.payload.drop o).take 4)

/-- A field is its four bytes, the last one highest (R37). -/
theorem Frame.field_eq {f : Frame} {o : Nat} {pre post : List Byte} {b0 b1 b2 b3 : Byte} (hlen : pre.length = o)
    (h : f.payload = pre ++ [b0, b1, b2, b3] ++ post) : f.field o = b3 ++ b2 ++ b1 ++ b0 := by
  rw [field, h, List.append_assoc, List.drop_left' hlen]
  exact leWord_four b0 b1 b2 b3

/-- The telemetry when the parse cursor of a position frame has come to `o`, from telemetry `tel` at its start: the fields of
R62 that begin before `o` are written. -/
def Frame.positionTel (f : Frame) (tel : Telemetry) (o : Nat) : Telemetry :=
  { tel with
    lon := if 4 < o then f.field 4 else tel.lon
    lat := if 8 < o then f.field 8 else tel.lat
    alt := if 16 < o then f.field 16 else tel.alt
    hasPosition := tel.hasPosition || decide (16 < o) }

/-- At the start of the payload no field is written. -/
theorem Frame.positionTel_zero (f : Frame) (tel : Telemetry) : f.positionTel tel 0 = tel := by
  simp [positionTel]

/-- At offset 20 and after it every field is written. -/
theorem Frame.positionTel_of_le (f : Frame) (tel : Telemetry) {o : Nat} (h : 20 ≤ o) : f.positionTel tel o =
    { tel with lon := f.field 4, lat := f.field 8, alt := f.field 16, hasPosition := true } := by
  rw [positionTel, if_pos (by omega), if_pos (by omega), if_pos (by omega), decide_eq_true (by omega), Bool.or_true]

/-- A row's field, decoded at its offset, is written from there on (R98, R99). -/
theorem Frame.positionTel_field (f : Frame) (tel : Telemetry) {o : Nat} {row : FieldRow}
    (h : entry 0x01 0x02 o = some row) :
    FieldRow.apply row (f.field o) (f.positionTel tel o) = f.positionTel tel (o + 4) := by
  rcases entry_position h with ⟨rfl, rfl⟩ | ⟨rfl, rfl⟩ | ⟨rfl, rfl⟩ <;>
    simp [FieldRow.apply, Telemetry.write, positionTel]

/-- A skip from a multiple of `k` to the next one passes over no multiple of `k` (R100). -/
theorem lt_add_iff_of_dvd {k o r : Nat} (ho : k ∣ o) (hr : k ∣ r) (hne : o ≠ r) : r < o + k ↔ r < o := by
  have hle (h : o < r) : k ≤ r - o := Nat.le_of_dvd (by omega) (Nat.dvd_sub hr ho)
  omega

/-- A skip at an unlisted offset passes over no field (R100). -/
theorem Frame.positionTel_skip (f : Frame) (tel : Telemetry) {k o : Nat} (hk : k ∣ 4) (ho : k ∣ o)
    (he : entry 0x01 0x02 o = none) : f.positionTel tel (o + k) = f.positionTel tel o := by
  have hlt {r : Nat} {row : FieldRow} (hrow : entry 0x01 0x02 r = some row) : r < o + k ↔ r < o := by
    refine lt_add_iff_of_dvd ho (hk.trans (entry_position_bounds hrow).1) ?_
    rintro rfl
    rw [he] at hrow
    cases hrow
  simp only [positionTel, hlt (r := 4) rfl, hlt (r := 8) rfl, hlt (r := 16) rfl]

/-! One poll. -/

/-- The telemetry along the run of polls of a position frame that began at `s`: untouched while the frame is read, then written
up to the parse cursor, which stays a multiple of the skip width. -/
structure PositionRun (s : State) (f : Frame) (u : State) : Prop where
  reading : u.fr.fstate = .reading → u.tel = s.tel
  parsing : u.fr.fstate = .parsing →
    s.params.skipW ∣ u.fr.pcur.toNat ∧ u.tel = f.positionTel s.tel u.fr.pcur.toNat
  idle : u.fr.fstate = .idle → u.tel = f.positionTel s.tel f.payload.length

section
variable {s u v : State} {f : Frame} {rest : List Byte}

theorem PositionRun.of_reading (hs : u.fr.fstate = .reading) (ht : u.tel = s.tel) : PositionRun s f u := by
  refine ⟨fun _ => ht, ?_, ?_⟩ <;> (intro h; rw [hs] at h; cases h)

theorem PositionRun.of_parsing {o : Nat} (hs : u.fr.fstate = .parsing) (ho : u.fr.pcur.toNat = o)
    (hd : s.params.skipW ∣ o) (ht : u.tel = f.positionTel s.tel o) : PositionRun s f u := by
  subst ho
  refine ⟨?_, fun _ => ⟨hd, ht⟩, ?_⟩ <;> (intro h; rw [hs] at h; cases h)

theorem PositionRun.of_idle (hs : u.fr.fstate = .idle) (ht : u.tel = f.positionTel s.tel f.payload.length) :
    PositionRun s f u := by
  refine ⟨?_, ?_, fun _ => ht⟩ <;> (intro h; rw [hs] at h; cases h)

/-- Neither taking a command nor answering it changes what the run speaks of. -/
theorem PositionRun.accept (h : PositionRun s f u) (c : Command) (i : List Input) : PositionRun s f (u.accept c i) :=
  ⟨h.reading, h.parsing, h.idle⟩

theorem PositionRun.respond (h : PositionRun s f u) (ok : Bool) (d : Data) : PositionRun s f (u.respond ok d) :=
  ⟨h.reading, h.parsing, h.idle⟩

/-- A poll has one outcome. -/
theorem pollStep_unique {w : State} (h : PollStep u v) (h' : PollStep u w) : v = w :=
  Except.ok.inj ((pollFramer_of_step h).symm.trans (pollFramer_of_step h'))

/-- A poll issued answers as a poll step says (R55, R79). -/
theorem issue_poll_step (h : issue (.of .poll) u = .next v) :
    ∃ w, PollStep (u.accept (.of .poll) u.input) w ∧ v = w.respond true 0 := by
  rw [issue_eq_runCommand, runCommand_ok (c := .of .poll) (decode_encode (i := .poll) rfl), exec_next] at h
  obtain ⟨-, ⟨-, h⟩ | ⟨hne, -⟩⟩ := h
  · exact pollEffect_step h
  · exact absurd rfl hne

/-- A poll in Idle that leaves it starts a frame, and touches no telemetry (R80). -/
theorem PositionRun.start (hstep : PollStep u v) (hs : u.fr.fstate = .idle) (ht : u.tel = s.tel)
    (hbusy : v.fr.fstate ≠ .idle) : PositionRun s f v := by
  cases hstep with
  | start h ho => exact .of_reading rfl ht
  | quiet h ho => exact absurd hs hbusy
  | _ h => rw [hs] at h; cases h

/-- A poll that takes a byte of the frame touches no telemetry, and Parsing begins at offset 0 (R81, R90). -/
theorem PositionRun.byte {k : Nat} (h : Reads s f rest k u) (hfit : f.fits s.params = true)
    (hk : k < (f.bytes s.params).length) (hrun : PositionRun s f u) (hstep : PollStep u v) : PositionRun s f v := by
  obtain ⟨w, hw, -, hphase⟩ := h.byte hfit hk
  obtain rfl := pollStep_unique hstep hw
  have ht : v.tel = s.tel := by
    rcases pollStep_tel hstep with e | ⟨hs, -⟩
    · rw [e, hrun.reading h.fstate]
    · rw [h.fstate] at hs
      cases hs
  split at hphase
  · obtain ⟨hs, -, hpcur⟩ := hphase
    exact .of_parsing hs (congrArg BitVec.toNat hpcur) (Nat.dvd_zero _) (by rw [ht]; exact (f.positionTel_zero _).symm)
  · exact .of_reading hphase ht

/-- A field group writes the field at the parse cursor, where the table lists one (R98). -/
theorem PositionRun.group {o : Nat} (h : Parses s f rest o u) (hf : PositionFrame s.params f)
    (hlen : f.plen.toNat = f.payload.length) (hcap : f.payload.length < 248) (ho : o < f.payload.length)
    (hrun : PositionRun s f u) (hstep : PollStep u v) : PositionRun s f v := by
  obtain ⟨hd, ht⟩ := hrun.parsing h.fstate
  have hplen : u.fr.plen.toNat = f.payload.length := h.plen.symm ▸ hlen
  have hrow {row : FieldRow} (he : entry u.fr.cls u.fr.id u.fr.pcur.toNat = some row) : entry 0x01 0x02 o = some row := by
    rwa [h.cls, h.id, hf.cls, hf.id, h.offset] at he
  rw [h.offset] at hd ht
  have hlong := hf.long
  have hskip := Nat.le_of_dvd (by decide) hf.skip
  cases hstep with
  | unknown hs hl hk =>
    rw [h.cls, h.id, hf.cls, hf.id] at hk
    exact absurd hk (by decide)
  | skip hs hl hk he =>
    rw [h.cls, h.id, hf.cls, hf.id, h.offset] at he
    rw [h.offset, h.params]
    exact .of_parsing hs (pcurOf_toNat (by omega)) (Nat.dvd_add hd dvd_rfl)
      (ht.trans (f.positionTel_skip _ hf.skip hd he).symm)
  | misfit hs hl hk row he hw =>
    obtain ⟨-, hwidth, hend⟩ := entry_position_bounds (hrow he)
    rw [hplen, h.offset, hwidth] at hw
    omega
  | field hs hl hk row he hw hr =>
    obtain ⟨-, hwidth, hend⟩ := entry_position_bounds (hrow he)
    rw [h.offset, hwidth, h.payload_bytes hf.hdrLen (by omega), ht]
    exact .of_parsing hs (pcurOf_toNat (by omega)) (Nat.dvd_add hd hf.skip) (f.positionTel_field _ (hrow he))
  | done hs hl =>
    rw [hplen, h.offset] at hl
    omega
  | _ hs => rw [h.fstate] at hs; cases hs

/-- The poll that finishes the frame leaves every field written (R91). -/
theorem PositionRun.finish {o : Nat} (h : Parses s f rest o u) (hf : PositionFrame s.params f)
    (hlen : f.plen.toNat = f.payload.length) (ho : f.payload.length ≤ o) (hrun : PositionRun s f u)
    (hstep : PollStep u v) : PositionRun s f v := by
  obtain ⟨-, ht⟩ := hrun.parsing h.fstate
  obtain rfl := pollStep_unique hstep (.done h.fstate (by rw [h.offset, h.plen, hlen]; exact ho))
  refine .of_idle rfl (ht.trans ?_)
  rw [h.offset, f.positionTel_of_le _ (hf.long.trans ho), f.positionTel_of_le _ hf.long]

/-! The whole run. -/

/-- A run with a poll left goes on by one poll, with the telemetry that belongs to it. -/
theorem PositionRun.next {n : Nat} (hw : s.params.wf = true) (hf : PositionFrame s.params f)
    (h : RunLeft s f rest (n + 1) u) (hrun : PositionRun s f u) :
    ∃ v, issue (.of .poll) u = .next v ∧ RunLeft s f rest n v ∧ PositionRun s f v := by
  obtain ⟨hlen, -, hcap, -⟩ := Frame.fits_total hw hf.fits
  obtain ⟨-, -, -, h255, -⟩ := Params.wf_iff.1 hw
  have hT := Frame.length_bytes s.params f
  obtain ⟨v, hv, hnext⟩ := h.next hw hf.fits
  obtain ⟨w, hstep, rfl⟩ := issue_poll_step hv
  have hrun' := hrun.accept (.of .poll) u.input
  have hw' : PositionRun s f w := by
    cases h with
    | reading k hk hn h => exact hrun'.byte (h.accept _ _) hf.fits hk hstep
    | parsing o fuel hfuel hn h =>
      rcases Nat.lt_or_ge o f.payload.length with ho | ho
      · exact hrun'.group (h.accept _ _) hf hlen (by omega) ho hstep
      · exact hrun'.finish (h.accept _ _) hf hlen ho hstep
    | finished hn hs h => cases hn
  exact ⟨_, hv, hnext, hw'.respond true 0⟩

/-- A run ends with every field written. -/
theorem PositionRun.run {n : Nat} (hw : s.params.wf = true) (hf : PositionFrame s.params f)
    (h : RunLeft s f rest n u) (hrun : PositionRun s f u) :
    ∃ t, polls n u = some t ∧ t.tel = f.positionTel s.tel f.payload.length := by
  induction n generalizing u with
  | zero => exact ⟨u, rfl, hrun.idle h.ended.1⟩
  | succ n ih =>
    obtain ⟨v, hv, hnext, hrun'⟩ := hrun.next hw hf h
    rw [polls_succ hv]
    exact ih hnext hrun'

end

/-- Settles O55: the run of O54, along which each field is written as the parse cursor passes it. -/
theorem positionFrameRoundTrip : Obligations.PositionFrameRoundTrip := by
  intro s f rest before gap after x0 x1 x2 x3 y0 y1 y2 y3 z0 z1 z2 z3 hi hs hskip hfit hcls hid hbefore hgap hpayload hq
  have hf : PositionFrame s.params f := by
    refine ⟨hfit, hcls, hid, ?_, ?_⟩
    · simp only [hpayload, List.length_append, List.length_cons, List.length_nil, hbefore, hgap]
      omega
    · have hdvd : ∀ k ≤ 4, 1 ≤ k → k ≠ 3 → k ∣ 4 := by decide
      obtain ⟨-, -, -, -, h1, h4⟩ := Params.wf_iff.1 hi.1
      exact hdvd _ h4 h1 hskip
  obtain ⟨v, hv, hnext⟩ := RunLeft.start hi hs hfit hq
  obtain ⟨w, hstep, rfl⟩ := issue_poll_step hv
  have hbusy := hnext.busy (Nat.succ_pos _)
  have hstart : PositionRun s f w := .start hstep hs rfl hbusy
  obtain ⟨t, ht, htel⟩ := (hstart.respond true 0).run hi.1 hf hnext
  refine ⟨t, ?_, ?_⟩
  · rw [show f.polls s.params = (f.bytes s.params).length + f.groups s.params + 1 + 1 from rfl, polls_succ hv, ht]
  · have h4 : f.field 4 = x3 ++ x2 ++ x1 ++ x0 := Frame.field_eq hbefore (by simpa using hpayload)
    have h8 : f.field 8 = y3 ++ y2 ++ y1 ++ y0 :=
      Frame.field_eq (pre := before ++ [x0, x1, x2, x3]) (by simp [hbefore]) (by simpa using hpayload)
    have h16 : f.field 16 = z3 ++ z2 ++ z1 ++ z0 :=
      Frame.field_eq (pre := before ++ [x0, x1, x2, x3] ++ [y0, y1, y2, y3] ++ gap) (by simp [hbefore, hgap]) hpayload
    rw [htel, f.positionTel_of_le _ hf.long, h4, h8, h16]

end Sys2Proof.Machine
end

section
/-! PROOFS. An expiry of the watchdog on `TIMER`, armed and stale (R107). -/

namespace Sys2Proof.Machine

/-- An expiry while the watchdog is armed ends the connection. -/
theorem wdexpEffect_of_armed {s : State} (h : s.conn.wdArmed = true) :
    wdexpEffect s = .ok (((s.setConn ⟨false, false⟩).raise .disconnected).respond true 0) := by
  rw [wdexpEffect, if_pos h]

/-- A stale expiry gives its response and no more. -/
theorem wdexpEffect_of_not_armed {s : State} (h : s.conn.wdArmed = false) :
    wdexpEffect s = .ok (s.respond true 0) := by
  rw [wdexpEffect, if_neg (Bool.eq_false_iff.1 h)]

/-- Settles O29: on another port the word is illegal, and on `TIMER` the two cases of R107. -/
theorem wdexpDisconnectsWhileArmed : Obligations.WdexpDisconnectsWhileArmed :=
  ⟨rfl, fun _ hw => ⟨exec_illegal (i := .wdexp) hw,
    fun hp ha => exec_of_effect hw hp (wdexpEffect_of_armed ha),
    fun hp ha => exec_of_effect hw hp (wdexpEffect_of_not_armed ha)⟩⟩

end Sys2Proof.Machine
end

section
/-! PROOFS. The block has no exception (R109): from the invariant every step goes on, and a command leaves at most one event
in the history, of its own kind (R110, R113). -/

namespace Sys2Proof.Machine

/-- Settles O44: an illegal command has its answer in every state, and a legal one completes from the invariant (R50), which
taking the command from the input keeps. -/
theorem blockNeverStops : Obligations.BlockNeverStops := by
  intro s hi
  have ⟨hw, _, hrx, htx, _⟩ := hi
  match hin : s.input with
  | [] => exact ⟨_, step_of_nil hw hin⟩
  | .reset _ :: _ => exact ⟨_, step_of_reset hw hin⟩
  | .cmd c :: rest =>
    cases hd : decode c.word with
    | error e => exact ⟨_, step_of_illegal hw hin hd⟩
    | ok i =>
      by_cases hp : c.port = i.port
      · have haccept : (s.accept c rest).inv := hi
        obtain ⟨t, ht⟩ := effectOf_isOk (i := i) (s := s.accept c rest) hrx htx fun _ => haccept
        exact ⟨t, step_of_legal hw hin hd hp ht⟩
      · exact ⟨_, step_of_other_port hw hin hd hp⟩

/-- A command that is illegal on its port: a word of R57 (a) to (e), or a legal word of another port (R57 (f)). -/
def Command.illegal (c : Command) : Prop := illegalFields c.word ∨ ∃ i, decode c.word = .ok i ∧ c.port ≠ i.port

theorem Command.not_illegal {c : Command} {i : Instr} (hd : decode c.word = .ok i) (hp : c.port = i.port) :
    ¬c.illegal := by
  rintro (hf | ⟨j, hd', hp'⟩)
  · obtain ⟨e, he⟩ := (decode_error_iff c.word).2 hf
    cases hd.symm.trans he
  · cases hd.symm.trans hd'
    exact hp' hp

/-- A step that takes a command runs it on its port, or takes it as illegal. -/
theorem step_command_cases {s t : State} {c : Command} {rest : List Input} (hi : s.input = .cmd c :: rest)
    (h : step s = .next t) :
    (∃ i, decode c.word = .ok i ∧ c.port = i.port ∧ effectOf i (s.accept c rest) = .ok t) ∨
    (c.illegal ∧ t = illegalCommand c.word (s.accept c rest)) := by
  obtain ⟨-, ⟨hi', -⟩ | ⟨_, _, hi', -⟩ | ⟨_, _, i, hi', hd, hp, he⟩ | ⟨_, _, i, hi', hd, hp, rfl⟩ |
    ⟨_, _, e, hi', hd, rfl⟩⟩ := step_cases h <;> cases hi.symm.trans hi'
  · exact .inl ⟨i, hd, hp, he⟩
  · exact .inr ⟨.inr ⟨i, hd, hp⟩, by rw [(encode_of_decode hd).2]⟩
  · exact .inr ⟨.inl ((decode_error_iff c.word).1 ⟨e, hd⟩), rfl⟩

/-- The events that a legal command may append to the history (R72, R73, R79, R107, R110). -/
def mayRecord (p : Params) : Instr → Event → Prop
  | .pushRx b, e => e = .cond (.rxOverflow b)
  | .pushTx b, e => e = .cond (.txOverflow b)
  | .wdexp, e => e = .cond .disconnected
  | .poll, e => e.ofPoll p
  | _, _ => False

/-- A legal command appends nothing, or one event of its own kind. -/
theorem effectOf_mayRecord {i : Instr} {s t : State} (hw : i.wf = true) (h : effectOf i s = .ok t) :
    t.history = s.history ∨ ∃ e, t.history = s.history ++ [e] ∧ mayRecord s.params i e := by
  by_cases hp : i = .poll
  · subst hp
    obtain ⟨u, hu, rfl⟩ := pollEffect_step h
    obtain ⟨-, -, -, -, ⟨-, hh, -⟩ | ⟨x, -, hh, -, hx, -⟩ | ⟨-, -, -, -, hh, -⟩⟩ := pollStep_history hu
    · exact .inl hh
    · exact .inr ⟨_, hh, hx⟩
    · exact .inr ⟨_, hh, rfl⟩
  · rcases effectOf_history hp h hw with ⟨-, hh⟩ | ⟨b, rfl, -, hh⟩ | ⟨b, rfl, -, hh⟩ | ⟨rfl, -, -, hh⟩
    · exact .inl hh
    · exact .inr ⟨_, hh, rfl⟩
    · exact .inr ⟨_, hh, rfl⟩
    · exact .inr ⟨_, hh, rfl⟩

/-- A command with no event of its own: neither a push, nor `WDEXP`, nor `POLL`. -/
theorem not_mayRecord {p : Params} {i : Instr} (hpush : ∀ b, i ≠ .pushRx b ∧ i ≠ .pushTx b) (hwd : i ≠ .wdexp)
    (hpoll : i ≠ .poll) (e : Event) : ¬mayRecord p i e := by
  cases i with
  | pushRx b => exact absurd rfl (hpush b).1
  | pushTx b => exact absurd rfl (hpush b).2
  | wdexp => exact absurd rfl hwd
  | poll => exact absurd rfl hpoll
  | _ => exact id

/-- Settles O51: an illegal command records itself, and a legal one at most an event of its own kind. -/
theorem oneConditionPerCommand : Obligations.OneConditionPerCommand := by
  intro s t c rest hi h
  rcases step_command_cases hi h with ⟨i, hd, hp, he⟩ | ⟨hill, rfl⟩
  · have hlegal : ¬c.illegal := Command.not_illegal hd hp
    rcases effectOf_mayRecord (encode_of_decode hd).1 he with hh | ⟨e, hh, hrec⟩
    · exact ⟨[], by rw [hh, List.append_nil]; rfl, Nat.zero_le 1, fun h => absurd h hlegal, fun j _ _ =>
        ⟨fun _ _ => .inl rfl, fun _ _ => .inl rfl, fun _ => .inl rfl, fun _ => nofun, fun _ _ _ => rfl⟩⟩
    · refine ⟨[e], hh, Nat.le_refl 1, fun h => absurd h hlegal, fun j hj _ => ?_⟩
      cases hd.symm.trans hj
      refine ⟨?_, ?_, ?_, ?_, fun hpush hwd hpoll => absurd hrec (not_mayRecord hpush hwd hpoll e)⟩
      · rintro b rfl
        exact .inr (List.singleton_inj.2 hrec)
      · rintro b rfl
        exact .inr (List.singleton_inj.2 hrec)
      · rintro rfl
        exact .inr (List.singleton_inj.2 hrec)
      · rintro rfl
        exact List.forall_mem_singleton.2 hrec
  · exact ⟨[.cond (.illegalCommand c.port c.word)], rfl, Nat.le_refl 1, fun _ => rfl, fun i hd hp =>
      absurd hill (Command.not_illegal hd hp)⟩

end Sys2Proof.Machine
end

section
/-! PROOFS. RESET and the quiescent block: the configuration survives every step (R127), RESET restores the reset state
(R124 to R126), and a poll with nothing to do changes nothing (R139). -/

namespace Sys2Proof.Machine

/-- Settles O11: RESET takes its parameters over, a legal command keeps them by `effectOf_params`, and an illegal one is
only recorded. -/
theorem parametersNeverChange : Obligations.ParametersNeverChange := by
  intro s t h
  obtain ⟨-, ⟨-, rfl⟩ | ⟨lost, rest, -, rfl⟩ | ⟨c, rest, i, -, -, -, h⟩ | ⟨c, rest, i, -, -, -, rfl⟩ |
    ⟨c, rest, e, -, -, rfl⟩⟩ := step_cases h
  · rfl
  · exact applyReset_params rest s
  · exact (effectOf_params h).trans (State.accept_params s c rest)
  · exact illegalCommand_params (encode i) (s.accept c rest)
  · exact illegalCommand_params c.word (s.accept c rest)

/-- Settles O13: the step takes the RESET, and `applyReset` does not read the commands lost to it. -/
theorem resetInputRestoresResetState : Obligations.ResetInputRestoresResetState :=
  fun _ _ _ hw hi => step_of_reset hw hi

/-- R35: both rings are empty after reset. -/
@[simp] theorem State.resetWith_ring (p : Params) (q : RingSel) : (State.resetWith p).ring q = .empty := by
  cases q <;> rfl

/-- Putting back the ring that is there changes nothing. -/
@[simp] theorem State.setRing_ring_self (s : State) (q : RingSel) : s.setRing q (s.ring q) = s := by
  cases q <;> rfl

/-- `CLEAR` of a ring that is already in its reset state only answers (R77). -/
theorem clearEffect_of_empty {q : RingSel} {s : State} (hw : s.params.wf = true) (he : s.ring q = .empty) :
    clearEffect q s = .ok (s.respond true 0) := by
  have hclear : (s.ring q).clear s.params q = s.ring q := by
    rw [he, Ring.clear_eq_empty (Ring.empty_inv (slots_pos hw q))]
  rw [clearEffect, hclear, State.setRing_ring_self]

/-- Settles O15: a cleared ring is the empty one, which is the ring after reset. -/
theorem clearAfterResetChangesNothing : Obligations.ClearAfterResetChangesNothing := by
  intro p q hw
  refine ⟨fun rb hi => (Ring.clear_eq_empty hi).trans (State.resetWith_ring p q).symm, ?_⟩
  exact exec_of_effect hw (clearOf_port q).symm
    ((effectOf_clearOf q _).trans (clearEffect_of_empty hw (State.resetWith_ring p q)))

/-- Settles O42: a quiescent block is the `quiet` case of `PollStep`. -/
theorem quiescentPollChangesNothing : Obligations.QuiescentPollChangesNothing := by
  intro s hw hp hq
  obtain ⟨hidle, hempty⟩ : s.fr.fstate = .idle ∧ s.rx.occ s.params.rxN = 0 := by
    simpa [State.quiescent] using hq
  exact exec_poll_of_step hw hp (.quiet hidle hempty)

end Sys2Proof.Machine
end
